-- ==== Sys2Proof/Config.lean ====
section
/-! DEFINITION. The implementation parameters of 00_scope.md R9 and the two values left open: what a line reads as
(R14) and how long the block waits beyond the settle delay (70_reset_and_hazards.md R240). -/

namespace Sys2Proof

/-- The implementation parameters of 00_scope.md R9, one value of this structure per block instance.
They are fixed for the instance: no step changes them. `UDELAY_W` is fixed at 16 by R9 and so is the
width of `udelayReset` and of the UDELAY register, not a field.

Every definition of the model takes its parameters from here, so a statement about every state is a
statement about every instance. -/
structure Params where
  /-- `NUM_BITS`: how many bit identifiers the pin backend maps. -/
  numBits : Nat
  /-- `MASK_W`: width of the level mask on the backend write port. -/
  maskW : Nat
  /-- `UDELAY_RESET`: reset value of UDELAY, in microseconds. -/
  udelayReset : BitVec 16
  /-- `CLK_PER_US`: core clock cycles per microsecond. -/
  clkPerUs : Nat
  /-- `BUF_BYTES`: bytes in the I2C data buffer. -/
  bufBytes : Nat
  /-- `I2C_SCL_ID`: bit id of the I2C clock line. -/
  sclId : Nat
  /-- `I2C_SDA_ID`: bit id of the I2C data line. -/
  sdaId : Nat
  /-- `MDC_ID`: bit id of the MDIO clock line. -/
  mdcId : Nat
  /-- `MDIO_ID`: bit id of the MDIO data line. -/
  mdioId : Nat
  /-- `MDIO_PREAMBLE_BITS`: all-ones bits sent before the MDIO frame. -/
  preambleBits : Nat
  /-- `BASE`: host address of the register window. -/
  base : Nat
deriving DecidableEq, Repr

/-- The defaults of 00_scope.md R9. `CLK_PER_US` and `BASE` are OPEN there and have no default:
1 and 0 here are DESIGN CHOICES (notes/assumptions/2.md) that no statement rests on. -/
def Params.default : Params where
  numBits := 8
  maskW := 32
  udelayReset := 5#16
  clkPerUs := 1
  bufBytes := 16
  sclId := 0
  sdaId := 1
  mdcId := 0
  mdioId := 1
  preambleBits := 0
  base := 0

/-- The legal ranges of 00_scope.md R9. -/
abbrev Params.wf (p : Params) : Prop :=
  (2 ≤ p.numBits ∧ p.numBits ≤ 256) ∧ (1 ≤ p.maskW ∧ p.maskW ≤ 64) ∧
  (1 ≤ p.clkPerUs ∧ p.clkPerUs ≤ 4095) ∧
  (4 ≤ p.bufBytes ∧ p.bufBytes ≤ 64 ∧ p.bufBytes % 4 = 0) ∧
  (p.sclId < p.numBits ∧ p.sdaId < p.numBits ∧ p.sdaId ≠ p.sclId) ∧
  (p.mdcId < p.numBits ∧ p.mdioId < p.numBits ∧ p.mdioId ≠ p.mdcId) ∧
  p.preambleBits ≤ 32

/-- The level a `PinRead` returns when no scripted answer is left: "a draw answered by the
environment ... under no law a model may assume" (00_scope.md R14, 10_state.md R36, decision D42).
A FREE VALUE: it has no body. The argument is the number of draws taken before this one
(`Env.draws`), so that every draw is free of the others. -/
opaque Config.freeLevel : Nat → Bool

/-- How many core clock cycles pass, beyond the settle delay, before the next backend event or the
commit of a running command: "the block gives no upper bound on the gap between events"
(70_reset_and_hazards.md R240; item U8 of 93_implementation_defined.md, any value). A FREE VALUE: it has no body.
The arguments are the number of events issued and of host requests still to come, so that every wait
of a run is free of the others (notes/assumptions/10.md). -/
opaque Config.freeGap : Nat → Nat → Nat

end Sys2Proof
end

