-- ==== Sys2Proof/Word.lean ====
section
/-! DEFINITION. The two word types of the block: the 32-bit register word (10_state.md R23) and the byte of BUF (R31). -/

namespace Sys2Proof

/-- A host-visible register, a command word or a host data word: 32 bits (10_state.md R23, 30_encoding.md R80). -/
abbrev Word := BitVec 32

/-- One byte of BUF (10_state.md R31). -/
abbrev Byte := BitVec 8

/-- A field of a word: `v` at bits `lo + n - 1 : lo` of a word of zeros (00_scope.md R11). -/
def place {n : Nat} (lo : Nat) (v : BitVec n) : Word :=
  v.setWidth 32 <<< lo

end Sys2Proof
end

