-- ==== Sys2Proof/Syntax.lean ====
section
/-! DEFINITION. The command words of BBCMD version 1 as data: one constructor per row of spec/opcode_table.json. -/

namespace Sys2Proof

/-- A logic level (40_bitbasher.md R100): released (`REL`, 1) or asserted, driven low (`A0`, 0).
There is no drive-high level (R101). -/
inductive Level where
  /-- `REL`: stop driving, let the line float to its pulled state. -/
  | rel
  /-- `A0`: drive the line low. -/
  | a0
deriving DecidableEq, Repr

/-- A command, by the operand fields of its format (30_encoding.md R81 to R85). Every field has
exactly the width of its place in the word; the range checks of R92 are `Instr.wf`. -/
inductive Instr where
  /-- WRITE_BIT, format B1 (40_bitbasher.md R105). -/
  | writeBit (id : BitVec 8) (lvl : Level)
  /-- READ_BIT, format B1 (40_bitbasher.md R106). -/
  | readBit (id : BitVec 8)
  /-- WRITE_BITS, format BM (40_bitbasher.md R107). -/
  | writeBits (id : BitVec 8) (count : BitVec 6)
  /-- READ_BITS, format BM (40_bitbasher.md R108). -/
  | readBits (id : BitVec 8) (count : BitVec 6)
  /-- I2C_WRITE, format I2 (41_i2c.md R150). -/
  | i2cWrite (dev : BitVec 7) (reg : BitVec 8) (len : BitVec 8)
  /-- I2C_READ, format I2 (41_i2c.md R155). -/
  | i2cRead (dev : BitVec 7) (reg : BitVec 8) (len : BitVec 8)
  /-- MDIO_READ, format MD (42_mdio.md R180). -/
  | mdioRead (phy reg : BitVec 5)
  /-- MDIO_WRITE, format MD (42_mdio.md R184). -/
  | mdioWrite (phy reg : BitVec 5)
deriving DecidableEq, Repr

end Sys2Proof
end

