-- ==== Sys2Proof/Machine/State.lean ====
section
/-! DEFINITION. The state of the block: the host-visible registers (10_state.md section 2), the hidden state
(section 4), and the two external ports as plain data. Reset (70_reset_and_hazards.md R233). -/

namespace Sys2Proof.Machine

/-- Byte storage keyed by byte index (BUF, `h.BSTAGE`), in one canonical form: indices strictly
rising, and no entry that holds what an unlisted index reads as. -/
abbrev Memory := List Host.Cell

/-- What an unlisted byte reads as: the reset value 0x00 of every byte of BUF (10_state.md R31) and
of `h.BSTAGE` (R34). DEDUCED (notes/assumptions/14.md). -/
def Memory.unlisted : Byte := 0#8

/-- The canonical form of `Memory`. -/
abbrev Memory.wf (m : Memory) : Prop :=
  m.Pairwise (fun c d => c.1 < d.1) ∧ ∀ c ∈ m, c.2 ≠ Memory.unlisted

/-- The result of the last command (10_state.md R25, 60_exceptions.md R200). -/
inductive Result where
  | ok
  | notPresent
  | notAcknowledged
  | badCommand
deriving DecidableEq, Repr

/-- The framer state `h.FSM` (10_state.md R35). -/
inductive Fsm where
  | idle
  | start | address | ack | data | restart | rdata | mack | stop
  | preamble | frame | ta | mwdata | mrdata | release
deriving DecidableEq, Repr

/-- The host-visible registers (10_state.md R23), by their fields: the reserved bits of STATUS and
UDELAY read as 0 and are held nowhere. -/
structure Regs where
  /-- CMD (R24). -/
  cmd : Word
  /-- STATUS.BUSY (R25). -/
  busy : Bool
  /-- STATUS.RESULT (R25). -/
  result : Result
  /-- STATUS.ADVISORY (R25). -/
  advisory : Bool
  /-- STATUS.WDROP (R25). -/
  wdrop : Bool
  /-- UDELAY.DELAY (R27). -/
  udelay : BitVec 16
  /-- ARG (R28). -/
  arg : Word
  /-- RDATA (R30). -/
  rdata : Word
  /-- BUF (R31), keyed by the index in `BUF[...]`. -/
  buf : Memory
deriving DecidableEq, Repr

/-- The hidden state (10_state.md R34). -/
structure Hidden where
  /-- `h.CUR`: the command word latched at accept. -/
  cur : Word
  /-- `h.SEQ`: index of the next backend event of the current command's trace (R21). -/
  seq : Nat
  /-- `h.SETTLE`: settle down-counter in core clock cycles (40_bitbasher.md R102). -/
  settle : Nat
  /-- `h.FSM`: framer state (R35). -/
  fsm : Fsm
  /-- `h.RSTAGE`: result word staged for RDATA until commit. -/
  rstage : Word
  /-- `h.BSTAGE`: received bytes staged for BUF until commit. -/
  bstage : Memory
  /-- The "accumulated acknowledgment bits" of the source's Protocol Session (R34), oldest first.
  R34 counts them among the hidden items without a name of their own; the name is the model's
  (notes/assumptions/3.md). -/
  acks : List Bool
deriving DecidableEq, Repr

/-- One event on the pin-backend port (60_exceptions.md R210), ids and masks as numbers (DESIGN CHOICE,
notes/assumptions/17.md). -/
inductive PinEvent where
  /-- `PinWrite`: `pin_wr` with `pin_wr_id` and `pin_wr_mask` (a number of `MASK_W` bits). -/
  | pinWr (id mask : Nat)
  /-- `PinRead`: `pin_rd` with `pin_rd_id`, and the `pin_rd_level` the backend answered. -/
  | pinRd (id : Nat) (level : Bool)
deriving DecidableEq, Repr

/-- One thing the host does at the host port (60_exceptions.md R211), at a host address. -/
inductive HostReq where
  /-- A read of `width` bytes; `MemRead(off, 4)` is `width = 4` at `BASE + off` (00_scope.md R13). -/
  | read (addr width : Nat)
  /-- A write of `width` bytes; `MemWrite(off, 4, v)` is `width = 4` at `BASE + off`. -/
  | write (addr width : Nat) (v : Word)
  /-- The host macro `wait` of 30_encoding.md R94: poll STATUS until BUSY reads 0. Its last poll only is
  answered (DESIGN CHOICE, notes/assumptions/11.md). -/
  | wait
  /-- The reset input `rst` (70_reset_and_hazards.md R230). -/
  | reset
deriving DecidableEq, Repr

/-- A host request and the number of core clock cycles that pass before it reaches the block (DESIGN
CHOICE, notes/assumptions/4.md). -/
structure HostInput where
  gap : Nat
  req : HostReq
deriving DecidableEq, Repr

/-- The block's surroundings: what has yet to reach it and what it has put out. These are the
model's own fields (notes/assumptions/4.md, notes/assumptions/5.md); nothing here is state of the block. -/
structure Env where
  /-- Host requests still to come, in the order the host issues them (20_memory.md R68). -/
  host : List HostInput
  /-- Answers to the `PinRead`s to come, oldest first (decision D42). -/
  pins : List Bool
  /-- How many answers have been drawn from `Config.freeLevel`. -/
  draws : Nat
  /-- The backend events issued so far, oldest first (00_scope.md R16). -/
  trace : List PinEvent
  /-- The host reads served so far, oldest first: byte offset and the word on `rdata`. -/
  replies : List (Nat × Word)
deriving DecidableEq, Repr

/-- The machine: one block instance with its parameters (00_scope.md R9), its registers (`x` as in
`x[NAME]`, R12), its hidden state (`h` as in `h.NAME`, R12) and its surroundings.
DESIGN CHOICE (notes/assumptions/6.md): the parameters are a field that no step changes. -/
structure State where
  params : Params
  x : Regs
  h : Hidden
  env : Env
deriving DecidableEq, Repr

/-- Why a run of the host stops (20_memory.md R62, 60_exceptions.md R206). A stop is safe: the model
claims nothing about an access the spec gives no effect. -/
inductive Fault where
  /-- Raised by the host port on an access that is not 4 bytes wide. Safe (notes/assumptions/13.md). -/
  | hostWidth
  /-- Raised by the host port on an offset that is not a multiple of 4. Safe. -/
  | hostMisaligned
  /-- Raised by the host port on an address outside offsets 0x00 .. 0x7F. Safe. -/
  | hostOutside
  /-- Raised by the sequencer when BUSY is 1 and `h.CUR` holds no command: a state no run reaches,
  since only a decoded command is accepted (10_state.md R26). DESIGN CHOICE, safe
  (notes/assumptions/15.md). -/
  | noCommand
deriving DecidableEq, Repr

/-- Why an instruction has no meaning. -/
inductive Refusal where
  /-- Raised by `exec` for an instruction with no meaning yet: none is left. Safe. -/
  | notModelled (mnemonic : String)
deriving DecidableEq, Repr

/-- The host-visible registers after reset (70_reset_and_hazards.md R233). -/
def Regs.reset (p : Params) : Regs where
  cmd := 0#32
  busy := false
  result := .ok
  advisory := false
  wdrop := false
  udelay := p.udelayReset
  arg := 0#32
  rdata := 0#32
  buf := []

/-- The hidden state after reset (70_reset_and_hazards.md R233). -/
def Hidden.reset : Hidden where
  cur := 0#32
  seq := 0
  settle := 0
  fsm := .idle
  rstage := 0#32
  bstage := []
  acks := []

/-- Surroundings with nothing scripted and nothing put out yet. -/
def Env.empty : Env where
  host := []
  pins := []
  draws := 0
  trace := []
  replies := []

/-- The machine right after reset (70_reset_and_hazards.md R233), an instance with the default
parameters of 00_scope.md R9. -/
def State.reset : State where
  params := Params.default
  x := Regs.reset Params.default
  h := Hidden.reset
  env := Env.empty

end Sys2Proof.Machine
end

