-- ==== Sys2Proof/Machine/Flags.lean ====
section
/-! DEFINITION. The flags of STATUS (10_state.md R25, R33): its word, the write-1-to-clear, the advisory rule. -/

namespace Sys2Proof.Machine

/-- The code of a result in STATUS bits 2:1 (60_exceptions.md R200). -/
def Result.code : Result → BitVec 2
  | .ok => 0#2
  | .notPresent => 1#2
  | .notAcknowledged => 2#2
  | .badCommand => 3#2

/-- The word a host read of STATUS returns (10_state.md R25): BUSY at bit 0, RESULT at 2:1,
ADVISORY at 3, WDROP at 4, bits 31:5 zero. -/
def statusWord (x : Regs) : Word :=
  place 4 (BitVec.ofBool x.wdrop) ||| place 3 (BitVec.ofBool x.advisory) ||| place 1 x.result.code |||
    place 0 (BitVec.ofBool x.busy)

/-- WDROP after a host write of `v` to STATUS: bit 4 clears it, every other bit is ignored
(10_state.md R25). -/
def wdropAfterWrite (wdrop : Bool) (v : Word) : Bool :=
  wdrop && !v.getLsbD 4

/-- ADVISORY at the commit of an MDIO_READ: RESULT is OK and `h.RSTAGE[15:0]` is 0xFFFF
(60_exceptions.md R201, 42_mdio.md R181). -/
def advisoryOf (res : Result) (rstage : Word) : Bool :=
  decide (res = .ok) && decide (rstage.extractLsb' 0 16 = 0xFFFF#16)

end Sys2Proof.Machine
end

