-- ==== Sys2Proof/Decode.lean ====
section
/-! DEFINITION. The decoder of a command word (30_encoding.md R80 to R92, checks 1 and 2), the encoder written from
the format tables, and the host's view of the decoder. -/

namespace Sys2Proof

/-- Why a word is no command whatever the parameters (30_encoding.md R92). -/
inductive DecodeError where
  /-- `OP` is 0x0 or 0x9 .. 0xF (R92, check 1). -/
  | reservedOpcode
  /-- A bit that the format reserves is 1 (R92, check 2). -/
  | reservedBits
deriving DecidableEq, Repr

/-- LEVEL, bit 16: 1 is released, 0 is asserted (30_encoding.md R81). -/
def Level.ofBit (b : Bool) : Level := if b then .rel else .a0

/-- The bit of a level: `REL` is 1, `A0` is 0 (40_bitbasher.md R100). -/
def Level.toBit : Level → Bool
  | .rel => true
  | .a0 => false

/-- `w & mask == match` (30_encoding.md R89); a word that fails has a reserved bit at 1. -/
def checkReserved (w mask pattern : Word) (i : Instr) : Except DecodeError Instr :=
  if w &&& mask = pattern then .ok i else .error .reservedBits

/-- Decode a command word: the opcode map of 30_encoding.md R88, the match and mask of R89, the
fields of R85. -/
def decode (w : Word) : Except DecodeError Instr :=
  let bitId := w.extractLsb' 8 8
  let count := w.extractLsb' 16 6
  let dev := w.extractLsb' 8 7
  let reg8 := w.extractLsb' 16 8
  let len := w.extractLsb' 24 8
  let phy := w.extractLsb' 8 5
  let reg5 := w.extractLsb' 16 5
  match (w.extractLsb' 0 4).toNat with
  | 1 => checkReserved w 0xFFFE00FF#32 0x1#32 (.writeBit bitId (.ofBit (w.getLsbD 16)))
  | 2 => checkReserved w 0xFFFF00FF#32 0x2#32 (.readBit bitId)
  | 3 => checkReserved w 0xFFC000FF#32 0x3#32 (.writeBits bitId count)
  | 4 => checkReserved w 0xFFC000FF#32 0x4#32 (.readBits bitId count)
  | 5 => checkReserved w 0x000080FF#32 0x5#32 (.i2cWrite dev reg8 len)
  | 6 => checkReserved w 0x000080FF#32 0x6#32 (.i2cRead dev reg8 len)
  | 7 => checkReserved w 0xFFE0E0FF#32 0x7#32 (.mdioRead phy reg5)
  | 8 => checkReserved w 0xFFE0E0FF#32 0x8#32 (.mdioWrite phy reg5)
  | _ => .error .reservedOpcode

/-- Format B1 (30_encoding.md R81). -/
def formatB1 (op : BitVec 4) (level : Bool) (id : BitVec 8) : Word :=
  place 16 (BitVec.ofBool level) ||| place 8 id ||| place 0 op

/-- Format BM (30_encoding.md R82). -/
def formatBM (op : BitVec 4) (id : BitVec 8) (count : BitVec 6) : Word :=
  place 16 count ||| place 8 id ||| place 0 op

/-- Format I2 (30_encoding.md R83). -/
def formatI2 (op : BitVec 4) (dev : BitVec 7) (reg len : BitVec 8) : Word :=
  place 24 len ||| place 16 reg ||| place 8 dev ||| place 0 op

/-- Format MD (30_encoding.md R84). -/
def formatMD (op : BitVec 4) (phy reg : BitVec 5) : Word :=
  place 16 reg ||| place 8 phy ||| place 0 op

/-- The command word of an instruction: its format (30_encoding.md R81 to R84) and its opcode (R88). -/
def encode : Instr → Word
  | .writeBit id lvl => formatB1 1#4 lvl.toBit id
  | .readBit id => formatB1 2#4 false id
  | .writeBits id count => formatBM 3#4 id count
  | .readBits id count => formatBM 4#4 id count
  | .i2cWrite dev reg len => formatI2 5#4 dev reg len
  | .i2cRead dev reg len => formatI2 6#4 dev reg len
  | .mdioRead phy reg => formatMD 7#4 phy reg
  | .mdioWrite phy reg => formatMD 8#4 phy reg

/-- What the decoder reads from the table's number `w`. A command is one 32-bit word written whole
(30_encoding.md R80), so the table's bit numbers are the word's and no byte order enters. -/
def decodeTableWord (nbits w : Nat) : Option Instr :=
  (decode (BitVec.ofNat 32 (w % 2 ^ nbits))).toOption

end Sys2Proof
end

