-- ==== Sys2Proof/Machine/Operands.lean ====
section
/-! DEFINITION. How operands become bits on the wire: levels and masks, bit order, the I2C address byte, the MDIO
frame word (30_encoding.md R85 to R87, 20_memory.md R60, 40_bitbasher.md R100). -/

namespace Sys2Proof.Machine

/-- The mask of a level on the backend write port: `ones(MASK_W)` for `REL`, `zeros(MASK_W)` for `A0`
(40_bitbasher.md R100). -/
def levelMask (p : Params) : Level → Nat
  | .rel => 2 ^ p.maskW - 1
  | .a0 => 0

/-- The bits of a field in wire order, most significant first (20_memory.md R60). -/
def msbFirst {n : Nat} (v : BitVec n) : List Bool :=
  (List.range n).reverse.map v.getLsbD

/-- The positions of an `n`-bit field in wire order: `n-1` downto 0. -/
def downTo (n : Nat) : List Nat :=
  (List.range n).reverse

/-- `v[i] <- b`. -/
def setBit {n : Nat} (v : BitVec n) (i : Nat) (b : Bool) : BitVec n :=
  if b then v ||| (1#n <<< i) else v &&& ~~~(1#n <<< i)

/-- The I2C address byte `{DEV[6:0], rw}`, `rw` 0 for a write and 1 for a read (30_encoding.md R86). -/
def addressByte (dev : BitVec 7) (rw : BitVec 1) : Byte :=
  dev ++ rw

/-- ST, the MDIO start pattern (42_mdio.md R172). -/
def mdioStart : BitVec 2 := 0b01#2

/-- OPC of a read (42_mdio.md R172). -/
def mdioOpRead : BitVec 2 := 0b10#2

/-- OPC of a write (42_mdio.md R172). -/
def mdioOpWrite : BitVec 2 := 0b01#2

/-- TA of a write, sent by the framer (42_mdio.md R172). -/
def mdioTurnaround : BitVec 2 := 0b10#2

/-- The MDIO frame word `F = {ST, OPC, PHY, REG, TA, DATA}` (30_encoding.md R87). -/
def mdioFrame (opc : BitVec 2) (phy reg : BitVec 5) (ta : BitVec 2) (data : BitVec 16) : Word :=
  place 30 mdioStart ||| place 28 opc ||| place 23 phy ||| place 18 reg ||| place 16 ta ||| place 0 data

end Sys2Proof.Machine
end

