-- ==== Sys2Proof/WellFormed.lean ====
section
/-! DEFINITION. The operand checks of 30_encoding.md R92, checks 3 to 5; they depend on the instance's parameters.
Checks 1 and 2 (reserved opcode, reserved bit) are the decoder's. -/

namespace Sys2Proof

/-- Format B1: `BIT_ID < NUM_BITS` (30_encoding.md R92, check 3). -/
def bitIdOk (p : Params) (id : BitVec 8) : Bool :=
  decide (id.toNat < p.numBits)

/-- Format BM: `COUNT <= 32`, `BIT_ID < NUM_BITS` and `BIT_ID + COUNT <= NUM_BITS`
(30_encoding.md R92, check 4). -/
def bitRangeOk (p : Params) (id : BitVec 8) (count : BitVec 6) : Bool :=
  decide (count.toNat ≤ 32) && decide (id.toNat < p.numBits) &&
    decide (id.toNat + count.toNat ≤ p.numBits)

/-- Format I2: `LEN <= BUF_BYTES` (30_encoding.md R92, check 5). -/
def lengthOk (p : Params) (len : BitVec 8) : Bool :=
  decide (len.toNat ≤ p.bufBytes)

/-- Checks 3 to 5 of 30_encoding.md R92 on a decoded word. No MD word with zero reserved bits is
illegal. -/
def Instr.wf (p : Params) : Instr → Bool
  | .writeBit id _ => bitIdOk p id
  | .readBit id => bitIdOk p id
  | .writeBits id count => bitRangeOk p id count
  | .readBits id count => bitRangeOk p id count
  | .i2cWrite _ _ len => lengthOk p len
  | .i2cRead _ _ len => lengthOk p len
  | .mdioRead _ _ => true
  | .mdioWrite _ _ => true

end Sys2Proof
end

