-- ==== Sys2Proof/Machine/Ops.lean ====
section
/-! DEFINITION. The named operations of the machine: bytes of BUF, time, the pin-backend port, accept, commit,
rejection, and the sequencer that runs a command's backend events in order. -/

namespace Sys2Proof.Machine

/-! ## Bytes -/

/-- The byte at index `a`. -/
def Memory.read : Memory → Nat → Byte
  | [], _ => Memory.unlisted
  | (k, v) :: m, a => if k = a then v else Memory.read m a

/-- Put a byte that is not the unlisted value in front, or nothing for the unlisted value. -/
def Memory.cons (a : Nat) (v : Byte) (m : Memory) : Memory :=
  if v = Memory.unlisted then m else (a, v) :: m

/-- Store one byte, keeping the canonical form. -/
def Memory.write : Memory → Nat → Byte → Memory
  | [], a, v => Memory.cons a v []
  | (k, x) :: m, a, v =>
    if a < k then Memory.cons a v ((k, x) :: m)
    else if a = k then Memory.cons a v m
    else (k, x) :: Memory.write m a v

/-- Bytes `0 .. n-1` of `src` into `dst` (the BUF update of 60_exceptions.md R201). -/
def Memory.copy (n : Nat) (src dst : Memory) : Memory :=
  (List.range n).foldl (fun m k => m.write k (src.read k)) dst

/-- The 32-bit word at byte index `k`: byte `k + j` at bits `8j+7 : 8j` (20_memory.md R61). -/
def Memory.readWord (m : Memory) (k : Nat) : Word :=
  place 24 (m.read (k + 3)) ||| place 16 (m.read (k + 2)) ||| place 8 (m.read (k + 1)) |||
    place 0 (m.read k)

/-- Store a 32-bit word at byte index `k`, little-endian (20_memory.md R61). -/
def Memory.writeWord (m : Memory) (k : Nat) (v : Word) : Memory :=
  (((m.write k (v.extractLsb' 0 8)).write (k + 1) (v.extractLsb' 8 8)).write (k + 2)
    (v.extractLsb' 16 8)).write (k + 3) (v.extractLsb' 24 8)

/-! ## Time and the host's schedule -/

/-- How many core clock cycles may pass before the next host request must be served; `none` when
none is scheduled. A `wait` never interrupts a running command: it ends when BUSY reads 0
(30_encoding.md R94). -/
def State.budget (s : State) : Option Nat :=
  match s.env.host with
  | [] => none
  | ⟨g, .wait⟩ :: _ => if s.x.busy then none else some g
  | ⟨g, _⟩ :: _ => some g

/-- The next host request must be served now. -/
def State.due (s : State) : Bool :=
  decide (s.budget = some 0)

/-- `n` core clock cycles pass: the settle counter counts down to 0 (40_bitbasher.md R102) and the
next host request comes nearer. -/
def State.elapse (n : Nat) (s : State) : State :=
  { s with
    h := { s.h with settle := s.h.settle - n }
    env := { s.env with
      host := match s.env.host with
        | [] => []
        | r :: rest => { r with gap := r.gap - n } :: rest } }

/-- The cycles, beyond the settle delay, before the next backend event or commit: a free value
(70_reset_and_hazards.md R240, notes/assumptions/10.md). -/
def State.slack (s : State) : Nat :=
  Config.freeGap s.env.trace.length s.env.host.length

/-- Wait for the settle counter to run out and for the free number of cycles after it, or until the
next host request is due. With nothing for the host to see in between, the free wait is not seen. -/
def State.settleDown (s : State) : State :=
  match s.budget with
  | none => s.elapse s.h.settle
  | some g => if g ≤ s.h.settle then s.elapse g else s.elapse (min (s.h.settle + s.slack) g)

/-! ## The pin-backend port -/

/-- What becomes of a sampled level. -/
inductive Sink where
  /-- Bit `i` of the word staged for RDATA. -/
  | word (i : Nat)
  /-- Bit `j` of the byte staged for `BUF[k]`. -/
  | byte (k j : Nat)
  /-- An acknowledgment bit of an I2C command. -/
  | ack
deriving DecidableEq, Repr

/-- One backend event of a command's plan. `phase` is the number of acknowledgment samples that
must have answered ACK (0) for the event to be issued: 0 for an event that is always issued. -/
inductive PinOp where
  /-- `WB(id, lvl)` (40_bitbasher.md R103) in framer state `fsm`. -/
  | wb (fsm : Fsm) (phase id : Nat) (lvl : Level)
  /-- `RB(id)` (40_bitbasher.md R104) in framer state `fsm`. -/
  | rb (fsm : Fsm) (phase id : Nat) (sink : Sink)
deriving DecidableEq, Repr

/-- The framer state an event belongs to. -/
def PinOp.fsm : PinOp → Fsm
  | .wb f _ _ _ => f
  | .rb f _ _ _ => f

/-- The number of acknowledgments an event needs. -/
def PinOp.phase : PinOp → Nat
  | .wb _ n _ _ => n
  | .rb _ n _ _ => n

/-- "No further byte is sent after a NACK" (41_i2c.md R140): an event is issued only while every
acknowledgment it needs was 0. -/
def PinOp.live (o : PinOp) (acks : List Bool) : Bool :=
  (acks.take o.phase).all (fun a => !a)

/-- `PinWrite(id, mask)` and the start of its `Settle()`: the write takes one cycle and loads
`h.SETTLE` with `DELAY * CLK_PER_US` (40_bitbasher.md R102, R103). It is never skipped and compares
with no earlier level. -/
def State.pinWrite (id : Nat) (lvl : Level) (s : State) : State :=
  let t := s.elapse 1
  { t with
    h := { t.h with seq := t.h.seq + 1, settle := t.x.udelay.toNat * t.params.clkPerUs }
    env := { t.env with trace := t.env.trace ++ [.pinWr id (levelMask t.params lvl)] } }

/-- The level the environment answers next: the next scripted answer, or a free value. -/
def State.nextLevel (s : State) : Bool :=
  match s.env.pins with
  | b :: _ => b
  | [] => Config.freeLevel s.env.draws

/-- Take the environment's answer. -/
def Env.drawn (e : Env) : Env :=
  match e.pins with
  | _ :: rest => { e with pins := rest }
  | [] => { e with draws := e.draws + 1 }

/-- Where a sampled level goes: staged as it is sampled (DEDUCED, notes/assumptions/8.md). -/
def Hidden.store (sink : Sink) (b : Bool) (h : Hidden) : Hidden :=
  match sink with
  | .word i => { h with rstage := setBit h.rstage i b }
  | .byte k j => { h with bstage := h.bstage.write k (setBit (h.bstage.read k) j b) }
  | .ack => { h with acks := h.acks ++ [b] }

/-- `PinRead(id)`: one cycle, no settle delay before or after it (40_bitbasher.md R102, R104). -/
def State.pinRead (id : Nat) (sink : Sink) (s : State) : State :=
  let t := s.elapse 1
  let b := s.nextLevel
  { t with
    h := Hidden.store sink b { t.h with seq := t.h.seq + 1 }
    env := { t.env.drawn with trace := t.env.trace ++ [.pinRd id b] } }

/-- Issue one backend event. -/
def State.perform (o : PinOp) (s : State) : State :=
  match o with
  | .wb _ _ id lvl => s.pinWrite id lvl
  | .rb _ _ id sink => s.pinRead id sink

/-- `h.FSM` follows the position in the trace (10_state.md R35): it takes the state of the next
event once the settle delay before that event is over (DEDUCED, notes/assumptions/9.md). -/
def State.enter (f : Fsm) (s : State) : State :=
  if s.h.settle = 0 then { s with h := { s.h with fsm := f } } else s

/-! ## Commands: accept, commit, reject, drop -/

/-- What a commit delivers besides RESULT and ADVISORY (60_exceptions.md R201). -/
inductive Deliver where
  /-- Nothing: WRITE_BIT, WRITE_BITS, I2C_WRITE, MDIO_WRITE. -/
  | nothing
  /-- `x[RDATA] <- h.RSTAGE`: READ_BIT, READ_BITS. -/
  | word
  /-- `x[RDATA] <- h.RSTAGE` and the advisory rule: MDIO_READ. -/
  | phyWord
  /-- `BUF[0 .. n-1] <- h.BSTAGE[0 .. n-1]` on OK: I2C_READ. -/
  | bytes (n : Nat)
deriving DecidableEq, Repr

/-- A command as the sequencer runs it: its backend events in order, the result that a NACK of
each acknowledgment sample gives (NOT_ACKNOWLEDGED beyond the list), and what its commit delivers. -/
structure Command where
  ops : List PinOp
  nackResults : List Result
  deliver : Deliver
deriving DecidableEq, Repr

/-- The result of a command, given its acknowledgment samples: the first NACK decides
(41_i2c.md R140, 60_exceptions.md R205). -/
def Command.resultOf (c : Command) (acks : List Bool) : Result :=
  match acks.findIdx? id with
  | none => .ok
  | some j => c.nackResults.getD j .notAcknowledged

/-- The events still to come, by `h.SEQ` and the acknowledgment samples so far. -/
def Command.remaining (c : Command) (h : Hidden) : List PinOp :=
  (c.ops.filter (fun o => o.live h.acks)).drop h.seq

/-- Accept (10_state.md R26): the word is in CMD and `h.CUR`, `h.SEQ` is 0, BUSY is 1 and the
Protocol Session is a fresh one (R34; DEDUCED, notes/assumptions/7.md). -/
def State.accept (w : Word) (s : State) : State :=
  { s with
    x := { s.x with cmd := w, busy := true }
    h := { s.h with cur := w, seq := 0, rstage := 0#32, bstage := [], acks := [] } }

/-- Rejection, `raise BadCommand(w)` (60_exceptions.md R203): the block's one exception. CMD keeps
the word, RESULT is BAD_COMMAND, ADVISORY 0; nothing else changes and no event is issued. -/
def State.reject (w : Word) (s : State) : State :=
  { s with x := { s.x with cmd := w, result := .badCommand, advisory := false } }

/-- A host write while BUSY is 1 (10_state.md R29): dropped, and WDROP is set. -/
def State.dropWrite (s : State) : State :=
  { s with x := { s.x with wdrop := true } }

/-- ADVISORY at a commit (60_exceptions.md R201): set only by an MDIO_READ. -/
def Deliver.advisory (d : Deliver) (res : Result) (rstage : Word) : Bool :=
  match d with
  | .phyWord => advisoryOf res rstage
  | _ => false

/-- RDATA at a commit (60_exceptions.md R201). -/
def Deliver.rdata (d : Deliver) (rdata rstage : Word) : Word :=
  match d with
  | .word => rstage
  | .phyWord => rstage
  | _ => rdata

/-- BUF at a commit (60_exceptions.md R201). -/
def Deliver.buf (d : Deliver) (res : Result) (buf bstage : Memory) : Memory :=
  match d with
  | .bytes n => if res = .ok then Memory.copy n bstage buf else buf
  | _ => buf

/-- Commit, `finish(res)` (60_exceptions.md R201), in one step and one cycle: the return from a
command, successful or failed. WDROP keeps its value. The one cycle it takes is R252's "at least one"
(notes/assumptions/10.md). -/
def State.finish (d : Deliver) (res : Result) (s : State) : State :=
  let t := s.elapse 1
  { t with
    x := { t.x with
      result := res
      advisory := d.advisory res t.h.rstage
      rdata := d.rdata t.x.rdata t.h.rstage
      buf := d.buf res t.x.buf t.h.bstage
      busy := false }
    h := { t.h with seq := 0, fsm := .idle, rstage := 0#32, bstage := [], acks := [] } }

/-! ## The sequencer -/

/-- Run a command from the given events on: one backend event at a time, in order, each only after
the settle delay of the one before it (20_memory.md R67, 40_bitbasher.md R102), and the commit after
the last. The sequencer pauses, with BUSY still 1, where a host request is due (20_memory.md R68). -/
def run (c : Command) : List PinOp → State → State
  | [], s =>
    let t := s.settleDown
    if t.due then t else t.finish c.deliver (c.resultOf t.h.acks)
  | o :: rest, s =>
    if o.live s.h.acks then
      let t := s.settleDown.enter o.fsm
      if t.due then t else run c rest (t.perform o)
    else run c rest s

/-- A host write of the word of `i` to CMD (10_state.md R24, R26, R29): dropped while BUSY is 1,
rejected when a check of 30_encoding.md R92 fails, and otherwise accepted and run. `c` is the
command of `i` over the operands in `s`; they cannot change while it runs (20_memory.md R70). -/
def issue (i : Instr) (c : Command) (s : State) : Host.Outcome State Fault Refusal :=
  if s.x.busy then .next s.dropWrite
  else if i.wf s.params then .next (run c c.ops (s.accept (encode i)))
  else .next (s.reject (encode i))

end Sys2Proof.Machine
end

