-- ==== Sys2Proof/Machine/BitBasher.lean ====
section
/-! DEFINITION. The Bit-Basher Core's commands (40_bitbasher.md R105 to R108): WRITE_BIT, READ_BIT, WRITE_BITS,
READ_BITS. They run in no framer state (`h.FSM` stays IDLE, 10_state.md R35) and never fail (R110). -/

namespace Sys2Proof.Machine

/-- `WB(id, lvl)` of a core command. -/
def coreWrite (id : Nat) (lvl : Level) : PinOp := .wb .idle 0 id lvl

/-- `RB(id)` of a core command, into bit `i` of the result word. -/
def coreRead (id i : Nat) : PinOp := .rb .idle 0 id (.word i)

/-- WRITE_BIT (40_bitbasher.md R105): one `WB`. -/
def writeBitCommand (id : BitVec 8) (lvl : Level) : Command where
  ops := [coreWrite id.toNat lvl]
  nackResults := []
  deliver := .nothing

/-- READ_BIT (40_bitbasher.md R106): one `RB`, its level to RDATA. -/
def readBitCommand (id : BitVec 8) : Command where
  ops := [coreRead id.toNat 0]
  nackResults := []
  deliver := .word

/-- WRITE_BITS (40_bitbasher.md R107): element `i`, index 0 first, is `WB(id + i, x[ARG][i])`. -/
def writeBitsCommand (id : BitVec 8) (count : BitVec 6) (arg : Word) : Command where
  ops := (List.range count.toNat).map fun i => coreWrite (id.toNat + i) (.ofBit (arg.getLsbD i))
  nackResults := []
  deliver := .nothing

/-- READ_BITS (40_bitbasher.md R108): element `i`, index 0 first, is `RB(id + i)` into bit `i`. -/
def readBitsCommand (id : BitVec 8) (count : BitVec 6) : Command where
  ops := (List.range count.toNat).map fun i => coreRead (id.toNat + i) i
  nackResults := []
  deliver := .word

/-- WRITE_BIT (40_bitbasher.md R105). -/
def execWriteBit (id : BitVec 8) (lvl : Level) (s : State) : Host.Outcome State Fault Refusal :=
  issue (.writeBit id lvl) (writeBitCommand id lvl) s

/-- READ_BIT (40_bitbasher.md R106). -/
def execReadBit (id : BitVec 8) (s : State) : Host.Outcome State Fault Refusal :=
  issue (.readBit id) (readBitCommand id) s

/-- WRITE_BITS (40_bitbasher.md R107). -/
def execWriteBits (id : BitVec 8) (count : BitVec 6) (s : State) :
    Host.Outcome State Fault Refusal :=
  issue (.writeBits id count) (writeBitsCommand id count s.x.arg) s

/-- READ_BITS (40_bitbasher.md R108). -/
def execReadBits (id : BitVec 8) (count : BitVec 6) (s : State) :
    Host.Outcome State Fault Refusal :=
  issue (.readBits id count) (readBitsCommand id count) s

end Sys2Proof.Machine
end

