-- ==== Sys2Proof/Machine/I2c.lean ====
section
/-! DEFINITION. The software I2C framer (41_i2c.md R130 to R156): its bus conditions as lists of core operations, and
I2C_WRITE and I2C_READ. The acknowledgment phases of a command are numbered from 0; an event of phase `n` is
issued only while the first `n` acknowledgment samples were 0. -/

namespace Sys2Proof.Machine

/-- `I2C_START()` (41_i2c.md R132). -/
def i2cStart (p : Params) : List PinOp :=
  [.wb .start 0 p.sdaId .a0, .wb .start 0 p.sclId .a0]

/-- `I2C_RESTART()` (41_i2c.md R133). -/
def i2cRestart (p : Params) (n : Nat) : List PinOp :=
  [.wb .restart n p.sdaId .rel, .wb .restart n p.sclId .rel,
   .wb .restart n p.sdaId .a0, .wb .restart n p.sclId .a0]

/-- `I2C_SEND_BIT(b)` (41_i2c.md R134). -/
def i2cSendBit (p : Params) (f : Fsm) (n : Nat) (b : Bool) : List PinOp :=
  [.wb f n p.sdaId (.ofBit b), .wb f n p.sclId .rel, .wb f n p.sclId .a0]

/-- `I2C_SEND_BYTE(v)` (41_i2c.md R135): most significant bit first. -/
def i2cSendByte (p : Params) (f : Fsm) (n : Nat) (v : Byte) : List PinOp :=
  (msbFirst v).flatMap (i2cSendBit p f n)

/-- `I2C_RECV_ACK()` (41_i2c.md R136): one sample, while the clock is high. -/
def i2cRecvAck (p : Params) (n : Nat) : List PinOp :=
  [.wb .ack n p.sdaId .rel, .wb .ack n p.sclId .rel, .rb .ack n p.sdaId .ack,
   .wb .ack n p.sclId .a0]

/-- `I2C_STOP()` (41_i2c.md R137). It needs no acknowledgment: every I2C command ends with it,
successful or failed (R140, R141). -/
def i2cStop (p : Params) : List PinOp :=
  [.wb .stop 0 p.sdaId .a0, .wb .stop 0 p.sclId .rel, .wb .stop 0 p.sdaId .rel]

/-- `I2C_RECV_BYTE()` into `h.BSTAGE[k]` (41_i2c.md R138). -/
def i2cRecvByte (p : Params) (n k : Nat) : List PinOp :=
  .wb .rdata n p.sdaId .rel :: (downTo 8).flatMap fun j =>
    [.wb .rdata n p.sclId .rel, .rb .rdata n p.sdaId (.byte k j), .wb .rdata n p.sclId .a0]

/-- A byte sent in framer state `f`, and its acknowledgment. -/
def i2cSendAcked (p : Params) (f : Fsm) (n : Nat) (v : Byte) : List PinOp :=
  i2cSendByte p f n v ++ i2cRecvAck p n

/-- The common opening of both commands: START, the address byte with write bit 0 and its
acknowledgment, the register byte and its acknowledgment. -/
def i2cOpening (p : Params) (dev : BitVec 7) (reg : Byte) : List PinOp :=
  i2cStart p ++ i2cSendAcked p .address 0 (addressByte dev 0#1) ++ i2cSendAcked p .data 1 reg

/-- I2C_WRITE (41_i2c.md R150): the opening, the data bytes `BUF[0 .. n-1]` each with its
acknowledgment, STOP. A NACK of the address byte gives NOT_PRESENT, a later one NOT_ACKNOWLEDGED
(R140). -/
def i2cWriteCommand (p : Params) (dev : BitVec 7) (reg len : BitVec 8) (buf : Memory) : Command where
  ops := i2cOpening p dev reg
    ++ (List.range len.toNat).flatMap (fun k => i2cSendAcked p .data (k + 2) (buf.read k))
    ++ i2cStop p
  nackResults := [.notPresent]
  deliver := .nothing

/-- The read phase of I2C_READ for `n ≥ 1` bytes: repeated START, the address byte with read bit 1
and its acknowledgment, the bytes, each with the framer's own acknowledgment bit, NACK on the last
(41_i2c.md R139, R155). -/
def i2cReadPhase (p : Params) (dev : BitVec 7) (n : Nat) : List PinOp :=
  i2cRestart p 2 ++ i2cSendAcked p .address 2 (addressByte dev 1#1)
    ++ (List.range n).flatMap fun k =>
        i2cRecvByte p 3 k ++ i2cSendBit p .mack 3 (decide (k + 1 = n))

/-- I2C_READ (41_i2c.md R155): the opening, the read phase unless LEN is 0, STOP. A NACK of either
address byte gives NOT_PRESENT, of the register byte NOT_ACKNOWLEDGED (R140; 90_conflicts.md C3). -/
def i2cReadCommand (p : Params) (dev : BitVec 7) (reg len : BitVec 8) : Command where
  ops := i2cOpening p dev reg
    ++ (if len.toNat = 0 then [] else i2cReadPhase p dev len.toNat)
    ++ i2cStop p
  nackResults := [.notPresent, .notAcknowledged, .notPresent]
  deliver := .bytes len.toNat

/-- I2C_WRITE (41_i2c.md R150). -/
def execI2cWrite (dev : BitVec 7) (reg len : BitVec 8) (s : State) :
    Host.Outcome State Fault Refusal :=
  issue (.i2cWrite dev reg len) (i2cWriteCommand s.params dev reg len s.x.buf) s

/-- I2C_READ (41_i2c.md R155). -/
def execI2cRead (dev : BitVec 7) (reg len : BitVec 8) (s : State) :
    Host.Outcome State Fault Refusal :=
  issue (.i2cRead dev reg len) (i2cReadCommand s.params dev reg len) s

end Sys2Proof.Machine
end

