-- ==== Sys2Proof/Machine/Mdio.lean ====
section
/-! DEFINITION. The software MDIO/MII framer (42_mdio.md R170 to R185): its bit procedures as lists of core
operations, and MDIO_READ and MDIO_WRITE. It has no acknowledgment and no failure path (R177). -/

namespace Sys2Proof.Machine

/-- `MDIO_SEND_BIT(b)` (42_mdio.md R173). -/
def mdioSendBit (p : Params) (f : Fsm) (b : Bool) : List PinOp :=
  [.wb f 0 p.mdioId (.ofBit b), .wb f 0 p.mdcId .rel, .wb f 0 p.mdcId .a0]

/-- `MDIO_SEND_BITS(v, len)` (42_mdio.md R174): most significant bit first. -/
def mdioSendBits (p : Params) (f : Fsm) {n : Nat} (v : BitVec n) : List PinOp :=
  (msbFirst v).flatMap (mdioSendBit p f)

/-- `MDIO_RECV_BIT()` into bit `k` of the result word (42_mdio.md R175). -/
def mdioRecvBit (p : Params) (k : Nat) : List PinOp :=
  [.wb .mrdata 0 p.mdcId .rel, .rb .mrdata 0 p.mdioId (.word k), .wb .mrdata 0 p.mdcId .a0]

/-- The preamble: `MDIO_PREAMBLE_BITS` bits of value 1 (42_mdio.md R176). -/
def mdioPreamble (p : Params) : List PinOp :=
  (List.replicate p.preambleBits true).flatMap (mdioSendBit p .preamble)

/-- The start, operation, PHY and register fields of the frame (42_mdio.md R172). -/
def mdioHeader (p : Params) (opc : BitVec 2) (phy reg : BitVec 5) : List PinOp :=
  mdioSendBits p .frame mdioStart ++ mdioSendBits p .frame opc ++ mdioSendBits p .frame phy
    ++ mdioSendBits p .frame reg

/-- The final release (42_mdio.md R178). -/
def mdioRelease (p : Params) : List PinOp :=
  [.wb .release 0 p.mdioId .rel]

/-- MDIO_READ (42_mdio.md R180): preamble, header, two released turnaround periods, sixteen
samples, release. -/
def mdioReadCommand (p : Params) (phy reg : BitVec 5) : Command where
  ops := mdioPreamble p ++ mdioHeader p mdioOpRead phy reg
    ++ (mdioSendBit p .ta true ++ mdioSendBit p .ta true)
    ++ (downTo 16).flatMap (mdioRecvBit p) ++ mdioRelease p
  nackResults := []
  deliver := .phyWord

/-- MDIO_WRITE (42_mdio.md R184): preamble, header, turnaround 10, the sixteen bits of
`x[ARG][15:0]`, release. -/
def mdioWriteCommand (p : Params) (phy reg : BitVec 5) (arg : Word) : Command where
  ops := mdioPreamble p ++ mdioHeader p mdioOpWrite phy reg
    ++ mdioSendBits p .ta mdioTurnaround ++ mdioSendBits p .mwdata (arg.extractLsb' 0 16)
    ++ mdioRelease p
  nackResults := []
  deliver := .nothing

/-- MDIO_READ (42_mdio.md R180). -/
def execMdioRead (phy reg : BitVec 5) (s : State) : Host.Outcome State Fault Refusal :=
  issue (.mdioRead phy reg) (mdioReadCommand s.params phy reg) s

/-- MDIO_WRITE (42_mdio.md R184). -/
def execMdioWrite (phy reg : BitVec 5) (s : State) : Host.Outcome State Fault Refusal :=
  issue (.mdioWrite phy reg) (mdioWriteCommand s.params phy reg s.x.arg) s

end Sys2Proof.Machine
end

