-- ==== Sys2Proof/Machine/Dispatch.lean ====
section
/-! DEFINITION. One arm per command of the opcode table. `exec i s` is a host write of the word of `i` to CMD in `s` (DEDUCED, notes/assumptions/16.md). -/

namespace Sys2Proof.Machine

def exec (i : Instr) (s : State) : Host.Outcome State Fault Refusal :=
  match i with
  | .writeBit id lvl => Sys2Proof.Machine.execWriteBit id lvl s
  | .readBit id => Sys2Proof.Machine.execReadBit id s
  | .writeBits id count => Sys2Proof.Machine.execWriteBits id count s
  | .readBits id count => Sys2Proof.Machine.execReadBits id count s
  | .i2cWrite dev reg len => Sys2Proof.Machine.execI2cWrite dev reg len s
  | .i2cRead dev reg len => Sys2Proof.Machine.execI2cRead dev reg len s
  | .mdioRead phy reg => Sys2Proof.Machine.execMdioRead phy reg s
  | .mdioWrite phy reg => Sys2Proof.Machine.execMdioWrite phy reg s

end Sys2Proof.Machine
end

