-- ==== Sys2Proof/Machine/HostPort.lean ====
section
/-! DEFINITION. The host port (60_exceptions.md R211): the register window (20_memory.md R62 to R65), reset
(70_reset_and_hazards.md R230), and the sequencer between two host requests. -/

namespace Sys2Proof.Machine

/-- Offset of BUF in the window (20_memory.md R64). -/
def bufOffset : Nat := 0x40

/-- The byte offset of a legal access, or the host error of 20_memory.md R62. -/
def hostOffset (p : Params) (addr width : Nat) : Except Fault Nat :=
  if width ≠ 4 then .error .hostWidth
  else if addr < p.base ∨ p.base + 0x80 ≤ addr then .error .hostOutside
  else if (addr - p.base) % 4 ≠ 0 then .error .hostMisaligned
  else .ok (addr - p.base)

/-- Offset `off` lies in BUF (20_memory.md R64). -/
def inBuf (p : Params) (off : Nat) : Bool :=
  decide (bufOffset ≤ off) && decide (off < bufOffset + p.bufBytes)

/-- The word a host read returns (10_state.md R23 to R32): a read has no side effect
(20_memory.md R65), and reserved offsets read 0 (R32). -/
def readReg (s : State) (off : Nat) : Word :=
  if off = 0x00 then s.x.cmd
  else if off = 0x04 then statusWord s.x
  else if off = 0x08 then s.x.udelay.setWidth 32
  else if off = 0x0C then s.x.arg
  else if off = 0x10 then s.x.rdata
  else if inBuf s.params off then s.x.buf.readWord (off - bufOffset)
  else 0#32

/-- A host write of `v` to a register other than CMD while BUSY is 0 (20_memory.md R65): STATUS
clears WDROP, UDELAY, ARG and BUF store, RDATA and the reserved offsets ignore it. -/
def writeReg (off : Nat) (v : Word) (s : State) : State :=
  if off = 0x04 then { s with x := { s.x with wdrop := wdropAfterWrite s.x.wdrop v } }
  else if off = 0x08 then { s with x := { s.x with udelay := v.extractLsb' 0 16 } }
  else if off = 0x0C then { s with x := { s.x with arg := v } }
  else if inBuf s.params off then
    { s with x := { s.x with buf := s.x.buf.writeWord (off - bufOffset) v } }
  else s

/-- A host write of `w` to CMD while BUSY is 0 (10_state.md R26): a word that does not decode is
rejected, a command is executed. -/
def writeCmd (w : Word) (s : State) : Host.Outcome State Fault Refusal :=
  match decode w with
  | .ok i => exec i s
  | .error _ => .next (s.reject w)

/-- A host read of the word at `off`: it only puts the word out on `rdata`. -/
def State.reply (off : Nat) (s : State) : State :=
  { s with env := { s.env with replies := s.env.replies ++ [(off, readReg s off)] } }

/-- The reset input (70_reset_and_hazards.md R230 to R232): every register and hidden item takes its
reset value, a running command is abandoned, no event is issued. DESIGN CHOICE
(notes/assumptions/12.md): one reset request is one cycle of `rst`, with no access beside it. -/
def State.hardReset (s : State) : State :=
  { s with x := Regs.reset s.params, h := Hidden.reset }

/-- Serve one host request; a write's effect is complete before the next request (20_memory.md R68). -/
def serve (r : HostReq) (s : State) : Host.Outcome State Fault Refusal :=
  match r with
  | .read addr width =>
    match hostOffset s.params addr width with
    | .error f => .fault f
    | .ok off => .next (s.reply off)
  | .write addr width v =>
    match hostOffset s.params addr width with
    | .error f => .fault f
    | .ok off =>
      if s.x.busy then .next s.dropWrite
      else if off = 0x00 then writeCmd v s
      else .next (writeReg off v s)
  | .wait => .next (s.reply 0x04)
  | .reset => .next s.hardReset

/-- The command of an instruction over the operands in `s`, as `exec` runs it. -/
def commandOf (i : Instr) (s : State) : Command :=
  match i with
  | .writeBit id lvl => writeBitCommand id lvl
  | .readBit id => readBitCommand id
  | .writeBits id count => writeBitsCommand id count s.x.arg
  | .readBits id count => readBitsCommand id count
  | .i2cWrite dev reg len => i2cWriteCommand s.params dev reg len s.x.buf
  | .i2cRead dev reg len => i2cReadCommand s.params dev reg len
  | .mdioRead phy reg => mdioReadCommand s.params phy reg
  | .mdioWrite phy reg => mdioWriteCommand s.params phy reg s.x.arg

/-- Go on with the running command, latched in `h.CUR`, from event `h.SEQ` (10_state.md R21, R26). -/
def resume (s : State) : Host.Outcome State Fault Refusal :=
  match decode s.h.cur with
  | .ok i => .next (run (commandOf i s) ((commandOf i s).remaining s.h) s)
  | .error _ => .fault .noCommand

/-- With BUSY 0 the block issues no event and waits for the host (60_exceptions.md R216). -/
def State.idleWait (s : State) : State :=
  match s.budget with
  | none => s.elapse s.h.settle
  | some g => s.elapse g

/-- One step of the machine: serve the host request that is due, or go on with the running command
up to its commit or the next host request, or wait. -/
def advance (s : State) : Host.Outcome State Fault Refusal :=
  match s.env.host with
  | r :: rest =>
    if s.due then serve r.req { s with env := { s.env with host := rest } }
    else if s.x.busy then resume s
    else .next s.idleWait
  | [] => if s.x.busy then resume s else .next s.idleWait

/-- The next host request is a write of `w` to CMD, arriving at once at an idle block; the requests
already scheduled come after it. -/
def State.withCmdWrite (w : Word) (s : State) : State :=
  { s with
    x := { s.x with busy := false }
    env := { s.env with host := ⟨0, .write s.params.base 4 w⟩ :: s.env.host } }

end Sys2Proof.Machine
end

