-- ==== Sys2Proof/Machine/Step.lean ====
section
/-! DEFINITION. One step of the machine, and the placing of a command word where the next step takes it. -/

namespace Sys2Proof.Machine

/-- One step (see `advance`). The block has no program counter and fetches nothing: program order is
the order of the host's writes to CMD (10_state.md R21). -/
def step (s : State) : Host.Outcome State Fault Refusal :=
  advance s

/-- `s` with the instruction whose table number is `w` (of `nbits` bits) as the host's next write to
CMD, so that the very next step takes it (notes/assumptions/1.md). -/
def State.withFetchWord (s : State) (nbits w : Nat) : State :=
  s.withCmdWrite (BitVec.ofNat 32 (w % 2 ^ nbits))

end Sys2Proof.Machine
end

