-- ==== Sys2Proof/Machine/HostMacros.lean ====
section
/-! DEFINITION. The assembler lines, pseudo-instructions and host macros of 30_encoding.md R93 and R94, as data: how a
host program becomes the list of requests that `Env.host` holds. The textual syntax is not modelled, its lines are (DESIGN CHOICE, notes/assumptions/18.md). -/

namespace Sys2Proof.Machine

/-- A command line of 30_encoding.md R93, or a pseudo-instruction of R94. Operands are numbers. -/
inductive AsmLine where
  | writeBit (id : Nat) (lvl : Level)
  | readBit (id : Nat)
  | writeBits (id count : Nat)
  | readBits (id count : Nat)
  | i2cWrite (dev reg len : Nat)
  | i2cRead (dev reg len : Nat)
  | mdioRead (phy reg : Nat)
  | mdioWrite (phy reg : Nat)
  /-- `RELEASE <id>`. -/
  | release (id : Nat)
  /-- `ASSERT0 <id>`. -/
  | assert0 (id : Nat)
deriving DecidableEq, Repr

/-- An operand in its field; "an operand that does not fit its field is an assembly error"
(30_encoding.md R93). -/
def operand (n v : Nat) : Option (BitVec n) :=
  if v < 2 ^ n then some (BitVec.ofNat n v) else none

/-- The command of a line (30_encoding.md R93, R94). -/
def AsmLine.instr : AsmLine → Option Instr
  | .writeBit id lvl => do return .writeBit (← operand 8 id) lvl
  | .readBit id => do return .readBit (← operand 8 id)
  | .writeBits id count => do return .writeBits (← operand 8 id) (← operand 6 count)
  | .readBits id count => do return .readBits (← operand 8 id) (← operand 6 count)
  | .i2cWrite dev reg len => do
    return .i2cWrite (← operand 7 dev) (← operand 8 reg) (← operand 8 len)
  | .i2cRead dev reg len => do
    return .i2cRead (← operand 7 dev) (← operand 8 reg) (← operand 8 len)
  | .mdioRead phy reg => do return .mdioRead (← operand 5 phy) (← operand 5 reg)
  | .mdioWrite phy reg => do return .mdioWrite (← operand 5 phy) (← operand 5 reg)
  | .release id => do return .writeBit (← operand 8 id) .rel
  | .assert0 id => do return .writeBit (← operand 8 id) .a0

/-- "Each line assembles to the single word of rule R89" (30_encoding.md R93). -/
def assemble (l : AsmLine) : Option Word :=
  l.instr.map encode

/-- A line of a host program (30_encoding.md R94). -/
inductive HostLine where
  | wr (off v : Nat)
  | rd (off : Nat)
  | wait
  | setDelay (us : Nat)
  | setArg (v : Nat)
  | ldBuf (k v : Nat)
  | command (l : AsmLine)
deriving DecidableEq, Repr

/-- `wr <off>, <v>`: host `MemWrite(off, 4, v)`. -/
def hostWrite (p : Params) (off v : Nat) : Option HostReq :=
  (operand 32 v).map fun w => .write (p.base + off) 4 w

/-- The host request of a line (30_encoding.md R94). -/
def HostLine.request (p : Params) : HostLine → Option HostReq
  | .wr off v => hostWrite p off v
  | .rd off => some (.read (p.base + off) 4)
  | .wait => some .wait
  | .setDelay us => hostWrite p 0x08 us
  | .setArg v => hostWrite p 0x0C v
  | .ldBuf k v => hostWrite p (0x40 + 4 * k) v
  | .command l => do return .write p.base 4 (← assemble l)

/-- A host program: its requests in order, with no cycles between one and the next (a `wait` line
still waits for the running command). -/
def hostProgram (p : Params) (lines : List HostLine) : Option (List HostInput) :=
  lines.mapM fun l => (l.request p).map fun r => ⟨0, r⟩

/-- Boot step 3 for an I2C bus (70_reset_and_hazards.md R234): release SDA, then SCL. -/
def bootI2c (p : Params) : List HostLine :=
  [.command (.release p.sdaId), .wait, .command (.release p.sclId), .wait]

/-- Boot step 3 for an MDIO bus (70_reset_and_hazards.md R234): release MDIO, drive MDC low. -/
def bootMdio (p : Params) : List HostLine :=
  [.command (.release p.mdioId), .wait, .command (.assert0 p.mdcId), .wait]

end Sys2Proof.Machine
end

