-- ==== Sys2Proof/Safety.lean ====
section
/-! DEFINITION. What counts as a good state and a good trace, in the terms the claims use: the invariant of the block,
the environment's answers by position, and the traces of the bus conditions written out from the rules. -/

namespace Sys2Proof.Machine

/-! ## The environment's answers -/

/-- The environment's answer to the `k`-th `PinRead` from here on (00_scope.md R14): scripted, or
free. -/
def Env.answer (e : Env) (k : Nat) : Bool :=
  e.pins.getD k (Config.freeLevel (e.draws + (k - e.pins.length)))

/-- The surroundings after `n` answers and the events `es`, with no host request served. -/
def Env.after (e : Env) (n : Nat) (es : List PinEvent) : Env :=
  { e with pins := e.pins.drop n, draws := e.draws + (n - e.pins.length), trace := e.trace ++ es }

/-! ## Good states -/

/-- Idle, with no host request scheduled: the next command runs to its commit undisturbed. -/
abbrev State.quiet (s : State) : Prop :=
  s.x.busy = false ∧ s.env.host = []

/-- `s` with no host request scheduled: left alone. -/
def State.alone (s : State) : State :=
  { s with env := { s.env with host := [] } }

/-- `s` with the requests still to come replaced. -/
def State.withHost (l : List HostInput) (s : State) : State :=
  { s with env := { s.env with host := l } }

/-- The state after a command whose word is `w` committed (60_exceptions.md R201): the registers a
commit writes, CMD and `h.CUR` with the word, every other hidden item at its reset value, the
environment's answers taken and the backend events issued. Nothing else differs from `s`: not
UDELAY, not ARG, not WDROP, not the parameters. -/
def State.afterCommand (s : State) (w : Word) (res : Result) (adv : Bool) (rdata : Word)
    (buf : Memory) (answers : Nat) (es : List PinEvent) : State where
  params := s.params
  x := { s.x with
    cmd := w, busy := false, result := res, advisory := adv, rdata := rdata, buf := buf }
  h := { Hidden.reset with cur := w }
  env := s.env.after answers es

/-- An event that the pin-backend port may carry (60_exceptions.md R210): a known id and, on a write,
the mask of one of the two levels (40_bitbasher.md R100). -/
def PinEvent.legal (p : Params) : PinEvent → Prop
  | .pinWr id mask => id < p.numBits ∧ (mask = 2 ^ p.maskW - 1 ∨ mask = 0)
  | .pinRd id _ => id < p.numBits

/-! ## The position in a command -/

/-- The backend events that a running command has issued: the first `h.SEQ` (10_state.md R21) of those
that its acknowledgment samples let through. -/
def Command.issued (c : Command) (h : Hidden) : List PinOp :=
  (c.ops.filter (fun o => o.live h.acks)).take h.seq

/-- The event on the port is the one that the command orders. -/
def PinOp.shows (p : Params) : PinOp → PinEvent → Bool
  | .wb _ _ id lvl, .pinWr id' mask => decide (id' = id) && decide (mask = levelMask p lvl)
  | .rb _ _ id _, .pinRd id' _ => decide (id' = id)
  | _, _ => false

/-- The Protocol Session (10_state.md R34) after the events of a command: every level answered so far,
where its `PinRead` sends it. -/
def Hidden.replay : List PinOp → List PinEvent → Hidden → Hidden
  | .rb _ _ _ sink :: ops, .pinRd _ b :: evs, h => Hidden.replay ops evs (h.store sink b)
  | _ :: ops, _ :: evs, h => Hidden.replay ops evs h
  | _, _, h => h

/-- `h.FSM` by the position in the command (10_state.md R35): the state of the next event once the settle
delay before it is over, else that of the last event issued (notes/assumptions/9.md). -/
def Command.fsmAt (c : Command) (h : Hidden) : Fsm :=
  match c.remaining h, (c.issued h).getLast? with
  | o :: _, none => o.fsm
  | o :: _, some l => if h.settle = 0 then o.fsm else l.fsm
  | [], none => .idle
  | [], some l => l.fsm

/-- `s` is a state in the middle of the command `c`: `h.SEQ`, the acknowledgments and the staged data are
those of the events that the end of the trace shows, and `h.FSM` is that of this position. -/
structure State.Underway (c : Command) (s : State) : Prop where
  /-- `h.SEQ` is a position in the command. -/
  seq : s.h.seq ≤ (c.ops.filter (fun o => o.live s.h.acks)).length
  /-- No settle delay runs before the first event (R102: only a `PinWrite` loads the counter). -/
  start : s.h.seq = 0 → s.h.settle = 0
  /-- The last `h.SEQ` events of the trace are the ones the command orders up to there, and the
  acknowledgments (notes/assumptions/3.md), `h.RSTAGE` and `h.BSTAGE` are what they answered, each level
staged as it was sampled (notes/assumptions/8.md). -/
  events : ∃ before evs, s.env.trace = before ++ evs ∧
    List.Forall₂ (fun o e => o.shows s.params e = true) (c.issued s.h) evs ∧
    Hidden.replay (c.issued s.h) evs Hidden.reset =
      { Hidden.reset with rstage := s.h.rstage, bstage := s.h.bstage, acks := s.h.acks }
  /-- `h.FSM` is fixed by the position (10_state.md R35). -/
  fsm : s.h.fsm = c.fsmAt s.h

/-- What holds in every state that a run from reset reaches. -/
structure State.Inv (s : State) : Prop where
  /-- The parameters are in their ranges (00_scope.md R9). -/
  params : s.params.wf
  /-- BUF is in canonical form and has `BUF_BYTES` bytes (10_state.md R31). -/
  buf : s.x.buf.wf ∧ ∀ c ∈ s.x.buf, c.1 < s.params.bufBytes
  /-- So is `h.BSTAGE` (10_state.md R34). -/
  bstage : s.h.bstage.wf ∧ ∀ c ∈ s.h.bstage, c.1 < s.params.bufBytes
  /-- While BUSY is 0 every hidden item but `h.CUR` is at its reset value (10_state.md R21, R34, R35). -/
  idle : s.x.busy = false → s.h = { Hidden.reset with cur := s.h.cur }
  /-- `h.SETTLE` is at most `65535 * CLK_PER_US` (10_state.md R34). -/
  settle : s.h.settle ≤ 65535 * s.params.clkPerUs
  /-- A running command is a legal one, CMD still holds it (10_state.md R26, R29), and the hidden items
  stand where its events so far have brought them (R21, R34, R35). -/
  running : s.x.busy = true →
    s.x.cmd = s.h.cur ∧
      ∃ i, decode s.h.cur = .ok i ∧ i.wf s.params = true ∧ s.Underway (commandOf i s)
  /-- ADVISORY is 1 only with RESULT OK (60_exceptions.md R205). -/
  advisory : s.x.advisory = true → s.x.result = .ok
  /-- Every event so far was one the port may carry (60_exceptions.md R210). -/
  trace : ∀ e ∈ s.env.trace, e.legal s.params

/-- The framer states that a running command may show (10_state.md R35, 41_i2c.md R131, 42_mdio.md R171):
a core command IDLE only. -/
def framerStates : Instr → List Fsm
  | .writeBit _ _ | .readBit _ | .writeBits _ _ | .readBits _ _ => [.idle]
  | .i2cWrite _ _ _ => [.start, .address, .ack, .data, .stop]
  | .i2cRead _ _ _ => [.start, .address, .ack, .data, .restart, .rdata, .mack, .stop]
  | .mdioRead _ _ => [.preamble, .frame, .ta, .mrdata, .release]
  | .mdioWrite _ _ => [.preamble, .frame, .ta, .mwdata, .release]

/-! ## How a command comes to its end -/

/-- The next request, due now, is not the reset input. -/
abbrev State.notReset (s : State) : Prop :=
  ∀ rest, s.env.host ≠ ⟨0, .reset⟩ :: rest

/-- From `s` to `t` the command `i` commits: either it is given to an idle block and commits before the
next host request, or it is running in `s` and the step to `t` brings it to its commit. `before` is the
trace as it was when the command was accepted. That a command can commit in a later step than the one
that accepted it is the model's schedule (notes/assumptions/4.md). -/
def Commits (i : Instr) (s t : State) (before : List PinEvent) : Prop :=
  t.x.busy = false ∧
    ((s.x.busy = false ∧ i.wf s.params = true ∧ exec i s = .next t ∧ before = s.env.trace) ∨
     (s.x.busy = true ∧ s.Inv ∧ decode s.h.cur = .ok i ∧ s.notReset ∧ step s = .next t ∧
       before = s.env.trace.take (s.env.trace.length - s.h.seq)))

/-- `u` with the two things that host accesses during a command can change: WDROP and the replies. -/
def State.seenBy (u t : State) : State :=
  { u with
    x := { u.x with wdrop := t.x.wdrop }
    env := { u.env with replies := t.env.replies } }

/-! ## Traces, written out from the rules -/

/-- `W(id, l)` of 00_scope.md R16, `l` a bit. -/
def evW (p : Params) (id : Nat) (l : Bool) : PinEvent :=
  .pinWr id (if l then 2 ^ p.maskW - 1 else 0)

/-- `R(id)=b` of 00_scope.md R16. -/
def evR (id : Nat) (b : Bool) : PinEvent := .pinRd id b

/-- The trace of START (41_i2c.md R132). -/
def trStart (p : Params) : List PinEvent :=
  [evW p p.sdaId false, evW p p.sclId false]

/-- The trace of a repeated START (41_i2c.md R133). -/
def trRestart (p : Params) : List PinEvent :=
  [evW p p.sdaId true, evW p p.sclId true, evW p p.sdaId false, evW p p.sclId false]

/-- The trace of one bit sent on a data line with its clock (41_i2c.md R134, 42_mdio.md R173). -/
def trBit (p : Params) (clock data : Nat) (b : Bool) : List PinEvent :=
  [evW p data b, evW p clock true, evW p clock false]

/-- The trace of a field sent most significant bit first, the bits listed from `n-1` down to 0
(41_i2c.md R135, 42_mdio.md R174). -/
def trField (p : Params) (clock data : Nat) {n : Nat} (v : BitVec n) : List PinEvent :=
  (List.range n).flatMap fun k => trBit p clock data (v.getLsbD (n - 1 - k))

/-- The trace of an acknowledgment answered `a` (41_i2c.md R136). -/
def trAck (p : Params) (a : Bool) : List PinEvent :=
  [evW p p.sdaId true, evW p p.sclId true, evR p.sdaId a, evW p p.sclId false]

/-- The trace of STOP (41_i2c.md R137). -/
def trStop (p : Params) : List PinEvent :=
  [evW p p.sdaId false, evW p p.sclId true, evW p p.sdaId true]

/-- The trace of one sampled bit (41_i2c.md R138, 42_mdio.md R175). -/
def trSample (p : Params) (clock data : Nat) (b : Bool) : List PinEvent :=
  [evW p clock true, evR data b, evW p clock false]

/-- The trace of sending bytes with an acknowledgment after each, `ans` the answers: the first NACK
ends the command with STOP (41_i2c.md R140), otherwise `more` follows, from the answers after the
last acknowledgment on. -/
def trBytes (p : Params) (ans : Nat → Bool) (more : List PinEvent) : Nat → List Byte → List PinEvent
  | _, [] => more
  | k, v :: vs =>
    trField p p.sclId p.sdaId v ++ trAck p (ans k) ++
      if ans k then trStop p else trBytes p ans more (k + 1) vs

/-- The trace of receiving `n` bytes, the first answered from answer `k` on, byte `m` being the
last one for `m = n - 1` (41_i2c.md R138, R139). -/
def trReceive (p : Params) (ans : Nat → Bool) (k n : Nat) : List PinEvent :=
  (List.range n).flatMap fun m =>
    [evW p p.sdaId true]
      ++ (List.range 8).flatMap (fun j => trSample p p.sclId p.sdaId (ans (k + 8 * m + j)))
      ++ trBit p p.sclId p.sdaId (decide (m + 1 = n))

/-- A byte from eight answers, most significant bit first (41_i2c.md R138). -/
def byteOf (ans : Nat → Bool) (k : Nat) : Byte :=
  BitVec.ofFnLE fun j : Fin 8 => ans (k + (7 - j.val))

/-- A 16-bit value from sixteen answers, most significant bit first (42_mdio.md R180). -/
def valueOf (ans : Nat → Bool) : BitVec 16 :=
  BitVec.ofFnLE fun j : Fin 16 => ans (15 - j.val)

/-- The number of acknowledgments sampled when `n` bytes are sent: up to the first NACK. -/
def acksTaken (ans : Nat → Bool) : Nat → Nat → Nat
  | _, 0 => 0
  | k, n + 1 => if ans k then 1 else 1 + acksTaken ans (k + 1) n

/-- The `n` bits of a word from bit `lo` on, as a number (00_scope.md R11). -/
def fieldOf (w : Word) (lo n : Nat) : Nat := (w.extractLsb' lo n).toNat

/-- The illegal command words of 30_encoding.md R92, by its five checks: the opcode, the reserved bits of
each format, BIT_ID (15:8), COUNT (21:16) with BIT_ID, LEN (31:24). -/
def illegalWord (p : Params) (w : Word) : Bool :=
  let op := fieldOf w 0 4
  let id := fieldOf w 8 8
  let count := fieldOf w 16 6
  let len := fieldOf w 24 8
  decide (op = 0) || decide (9 ≤ op) ||
  (decide (op = 1) && decide (w &&& 0xFFFE00F0#32 ≠ 0#32)) ||
  (decide (op = 2) && decide (w &&& 0xFFFF00F0#32 ≠ 0#32)) ||
  (decide (op = 3 ∨ op = 4) && decide (w &&& 0xFFC000F0#32 ≠ 0#32)) ||
  (decide (op = 5 ∨ op = 6) && decide (w &&& 0x000080F0#32 ≠ 0#32)) ||
  (decide (op = 7 ∨ op = 8) && decide (w &&& 0xFFE0E0F0#32 ≠ 0#32)) ||
  (decide (op = 1 ∨ op = 2) && decide (p.numBits ≤ id)) ||
  (decide (op = 3 ∨ op = 4) &&
    decide (32 < count ∨ p.numBits ≤ id ∨ p.numBits < id + count)) ||
  (decide (op = 5 ∨ op = 6) && decide (p.bufBytes < len))

/-- `n` WRITE_BIT commands one after the other, the `k`-th on line `id + k` with level `arg[k]`. -/
def writeEach (id : Nat) (arg : Word) (s : State) : Nat → Host.Outcome State Fault Refusal
  | 0 => .next s
  | n + 1 =>
    match writeEach id arg s n with
    | .next t => exec (.writeBit (BitVec.ofNat 8 (id + n)) (.ofBit (arg.getLsbD n))) t
    | .fault f => .fault f
    | .refused r => .refused r

/-- How many `PinWrite` events a trace has. -/
def writeCount (tr : List PinEvent) : Nat :=
  tr.countP fun
    | .pinWr _ _ => true
    | .pinRd _ _ => false

/-- How many `PinRead` events a trace has. -/
def readCount (tr : List PinEvent) : Nat :=
  tr.countP fun
    | .pinWr _ _ => false
    | .pinRd _ _ => true

end Sys2Proof.Machine
end

