-- ==== Sys2Proof/Certificates/Slice0/Obligations.lean ====
section
/-! DEFINITION. The statements for the provers. A state is `quiet` when it is idle and no host request is scheduled;
`Env.answer k` is the environment's `k`-th answer from there on, scripted or free, so that a statement over it holds
for every answer. -/

open Sys2Proof Sys2Proof.Machine

/-! ### Encoding -/

/-- Decoding an encoded command gives it back, for every command and every operand value. -/
def Obligations.DecodeOfEncode : Prop :=
  ∀ i : Instr, decode (encode i) = .ok i

/-- A word that decodes is the encoding of what it decodes to: no bit of a legal word is ignored. -/
def Obligations.EncodeOfDecode : Prop :=
  ∀ (w : Word) (i : Instr), decode w = .ok i → encode i = w

/-- The example encodings of R90, both ways. -/
def Obligations.ExampleWordsDecode : Prop :=
  ∀ e ∈ ([(0x00010101#32, .writeBit 1#8 .rel), (0x00000001#32, .writeBit 0#8 .a0),
      (0x00000102#32, .readBit 1#8), (0x00080003#32, .writeBits 0#8 8#6),
      (0x00080004#32, .readBits 0#8 8#6), (0x02005005#32, .i2cWrite 0x50#7 0x00#8 2#8),
      (0x04105006#32, .i2cRead 0x50#7 0x10#8 4#8), (0x00020107#32, .mdioRead 1#5 2#5),
      (0x001F1F08#32, .mdioWrite 31#5 31#5)] : List (Word × Instr)),
    encode e.2 = e.1 ∧ decode e.1 = .ok e.2

/-- The eight rows of R89: a word selects a command exactly when `w & mask == match`, and its
operands are the fields of R85. -/
def Obligations.RowsSelectByMatchAndMask : Prop :=
  ∀ w : Word,
    (w &&& 0xFFFE00FF#32 = 0x1#32 ↔
      decode w = .ok (.writeBit (w.extractLsb' 8 8) (if w.getLsbD 16 then .rel else .a0))) ∧
    (w &&& 0xFFFF00FF#32 = 0x2#32 ↔ decode w = .ok (.readBit (w.extractLsb' 8 8))) ∧
    (w &&& 0xFFC000FF#32 = 0x3#32 ↔
      decode w = .ok (.writeBits (w.extractLsb' 8 8) (w.extractLsb' 16 6))) ∧
    (w &&& 0xFFC000FF#32 = 0x4#32 ↔
      decode w = .ok (.readBits (w.extractLsb' 8 8) (w.extractLsb' 16 6))) ∧
    (w &&& 0x000080FF#32 = 0x5#32 ↔
      decode w = .ok (.i2cWrite (w.extractLsb' 8 7) (w.extractLsb' 16 8) (w.extractLsb' 24 8))) ∧
    (w &&& 0x000080FF#32 = 0x6#32 ↔
      decode w = .ok (.i2cRead (w.extractLsb' 8 7) (w.extractLsb' 16 8) (w.extractLsb' 24 8))) ∧
    (w &&& 0xFFE0E0FF#32 = 0x7#32 ↔
      decode w = .ok (.mdioRead (w.extractLsb' 8 5) (w.extractLsb' 16 5))) ∧
    (w &&& 0xFFE0E0FF#32 = 0x8#32 ↔
      decode w = .ok (.mdioWrite (w.extractLsb' 8 5) (w.extractLsb' 16 5)))

/-- The MDIO frame word in numbers (R87). -/
def Obligations.MdioFrameInNumbers : Prop :=
  ∀ (opc ta : BitVec 2) (phy reg : BitVec 5) (data : BitVec 16),
    (mdioFrame opc phy reg ta data).toNat =
      1 * 2 ^ 30 + opc.toNat * 2 ^ 28 + phy.toNat * 2 ^ 23 + reg.toNat * 2 ^ 18
        + ta.toNat * 2 ^ 16 + data.toNat

/-- The command lines and pseudo-instructions of R93 and R94: a line assembles to the one word with its
operands in their fields, and an operand that does not fit its field is an error. -/
def Obligations.LinesAssemble : Prop :=
  ∀ (w : Word) (id count dev reg len phy : Nat),
    (assemble (.writeBit id .rel) = some w ↔ id < 2 ^ 8 ∧ w.toNat = 2 ^ 16 + id * 2 ^ 8 + 1) ∧
    (assemble (.writeBit id .a0) = some w ↔ id < 2 ^ 8 ∧ w.toNat = id * 2 ^ 8 + 1) ∧
    (assemble (.readBit id) = some w ↔ id < 2 ^ 8 ∧ w.toNat = id * 2 ^ 8 + 2) ∧
    (assemble (.writeBits id count) = some w ↔
      id < 2 ^ 8 ∧ count < 2 ^ 6 ∧ w.toNat = count * 2 ^ 16 + id * 2 ^ 8 + 3) ∧
    (assemble (.readBits id count) = some w ↔
      id < 2 ^ 8 ∧ count < 2 ^ 6 ∧ w.toNat = count * 2 ^ 16 + id * 2 ^ 8 + 4) ∧
    (assemble (.i2cWrite dev reg len) = some w ↔
      dev < 2 ^ 7 ∧ reg < 2 ^ 8 ∧ len < 2 ^ 8 ∧
        w.toNat = len * 2 ^ 24 + reg * 2 ^ 16 + dev * 2 ^ 8 + 5) ∧
    (assemble (.i2cRead dev reg len) = some w ↔
      dev < 2 ^ 7 ∧ reg < 2 ^ 8 ∧ len < 2 ^ 8 ∧
        w.toNat = len * 2 ^ 24 + reg * 2 ^ 16 + dev * 2 ^ 8 + 6) ∧
    (assemble (.mdioRead phy reg) = some w ↔
      phy < 2 ^ 5 ∧ reg < 2 ^ 5 ∧ w.toNat = reg * 2 ^ 16 + phy * 2 ^ 8 + 7) ∧
    (assemble (.mdioWrite phy reg) = some w ↔
      phy < 2 ^ 5 ∧ reg < 2 ^ 5 ∧ w.toNat = reg * 2 ^ 16 + phy * 2 ^ 8 + 8) ∧
    assemble (.release id) = assemble (.writeBit id .rel) ∧
    assemble (.assert0 id) = assemble (.writeBit id .a0)

/-! ### The step, accept and rejection -/

/-- A host write to CMD that reaches an idle block is the execution of the command its word decodes
to, in the state from which the host request has been taken. That the host's requests are a list in
the state is the model's choice (notes/assumptions/4.md). -/
def Obligations.StepRunsDecodedCommand : Prop :=
  ∀ (s : State) (w : Word) (i : Instr) (rest : List HostInput),
    s.env.host = ⟨0, .write s.params.base 4 w⟩ :: rest → s.x.busy = false → decode w = .ok i →
    step s = exec i (s.withHost rest)

/-- `withFetchWord` places a word so that the very next step runs its command (the model's choice,
notes/assumptions/1.md). -/
def Obligations.FetchWordRunsNext : Prop :=
  ∀ (s : State) (w : Word) (i : Instr), s.x.busy = false → decode w = .ok i →
    step (s.withFetchWord 32 w.toNat) = exec i s

/-- Rejection (R203): an illegal word written to CMD while BUSY is 0 leaves the word in CMD, RESULT
BAD_COMMAND and ADVISORY 0, and changes nothing else; CMD reads the word back, and the next CMD
write is decoded normally. -/
def Obligations.IllegalWordRejected : Prop :=
  ∀ (s : State) (w : Word) (rest : List HostInput),
    s.env.host = ⟨0, .write s.params.base 4 w⟩ :: rest → s.x.busy = false →
    illegalWord s.params w = true →
    ∃ t, step s = .next t ∧
      t = { s.withHost rest with
            x := { s.x with cmd := w, result := .badCommand, advisory := false } } ∧
      readReg t 0x00 = w ∧
      ∀ (v : Word) (i : Instr), decode v = .ok i →
        step (t.withHost (⟨0, .write s.params.base 4 v⟩ :: rest)) = exec i t

/-- Acceptance (R26, R92): a word that is not illegal, written to CMD while BUSY is 0, is latched in
CMD and `h.CUR`, and until its commit BUSY is 1. -/
def Obligations.LegalWordAccepted : Prop :=
  ∀ (s : State) (w : Word) (rest : List HostInput),
    s.env.host = ⟨0, .write s.params.base 4 w⟩ :: rest → s.x.busy = false →
    illegalWord s.params w = false →
    ∃ t, step s = .next t ∧ t.x.cmd = w ∧ t.h.cur = w ∧
      (t.x.busy = true → t.x = { s.x with cmd := w, busy := true }) ∧
      (t.x.busy = false → t.x.result ≠ .badCommand ∧
        t.h = { Hidden.reset with cur := w })

/-- The command of an ill-formed instruction is rejected with none of its events, whatever the
instruction. -/
def Obligations.IllFormedCommandRejected : Prop :=
  ∀ (s : State) (i : Instr), s.x.busy = false → i.wf s.params = false →
    exec i s = .next { s with
      x := { s.x with cmd := encode i, result := .badCommand, advisory := false } }

/-- A command given to a busy block is dropped with none of its effect, whatever the instruction
(R29). -/
def Obligations.CommandWhileBusyDropped : Prop :=
  ∀ (s : State) (i : Instr), s.x.busy = true →
    exec i s = .next { s with x := { s.x with wdrop := true } }

/-! ### The host port -/

/-- Writes and reads while BUSY is 1 (R29): a write to any offset changes no register and sets WDROP,
a read is served and has no side effect. -/
def Obligations.BusyHostAccess : Prop :=
  ∀ (s : State) (off : Nat) (v : Word) (rest : List HostInput),
    s.x.busy = true → off < 0x80 → off % 4 = 0 →
    (s.env.host = ⟨0, .write (s.params.base + off) 4 v⟩ :: rest →
      step s = .next { s.withHost rest with x := { s.x with wdrop := true } }) ∧
    (s.env.host = ⟨0, .read (s.params.base + off) 4⟩ :: rest →
      step s = .next { s with env := { s.env with
        host := rest, replies := s.env.replies ++ [(off, readReg s off)] } })

/-- A read of any offset, BUSY or not, only answers (R65). -/
def Obligations.HostReadHasNoSideEffect : Prop :=
  ∀ (s : State) (off : Nat) (rest : List HostInput), off < 0x80 → off % 4 = 0 →
    s.env.host = ⟨0, .read (s.params.base + off) 4⟩ :: rest →
    step s = .next { s with env := { s.env with
      host := rest, replies := s.env.replies ++ [(off, readReg s off)] } }

/-- What each register reads as: CMD, UDELAY with its reserved bits 0, ARG, RDATA, the bytes of a
word of BUF. -/
def Obligations.RegisterReads : Prop :=
  ∀ s : State,
    readReg s 0x00 = s.x.cmd ∧
    (readReg s 0x08).toNat = s.x.udelay.toNat ∧
    readReg s 0x0C = s.x.arg ∧
    readReg s 0x10 = s.x.rdata ∧
    ∀ k j : Nat, 4 * k < s.params.bufBytes → j < 4 →
      (readReg s (0x40 + 4 * k)).extractLsb' (8 * j) 8 = s.x.buf.read (4 * k + j)

/-- The fields of STATUS (R25): BUSY at bit 0, RESULT at 2:1 by the codes of R200, ADVISORY at 3,
WDROP at 4, the reserved bits 0. -/
def Obligations.StatusFields : Prop :=
  ∀ s : State,
    (readReg s 0x04).getLsbD 0 = s.x.busy ∧
    (readReg s 0x04).extractLsb' 1 2 =
      (match s.x.result with
       | .ok => 0#2 | .notPresent => 1#2 | .notAcknowledged => 2#2 | .badCommand => 3#2) ∧
    (readReg s 0x04).getLsbD 3 = s.x.advisory ∧
    (readReg s 0x04).getLsbD 4 = s.x.wdrop ∧
    ∀ j, 5 ≤ j → (readReg s 0x04).getLsbD j = false

/-- Reserved offsets (R32): they read 0, and a write to one changes nothing but sets WDROP if BUSY
is 1. -/
def Obligations.ReservedOffsets : Prop :=
  ∀ (s : State) (off : Nat) (v : Word) (rest : List HostInput), off % 4 = 0 →
    (0x14 ≤ off ∧ off ≤ 0x3F ∨ 0x40 + s.params.bufBytes ≤ off ∧ off ≤ 0x7F) →
    readReg s off = 0#32 ∧
    (s.env.host = ⟨0, .write (s.params.base + off) 4 v⟩ :: rest →
      step s = .next { s.withHost rest with x := { s.x with wdrop := s.x.wdrop || s.x.busy } })

/-- Host writes while BUSY is 0 to STATUS, UDELAY, ARG and RDATA: STATUS clears WDROP when bit 4 is 1
and ignores every other bit, UDELAY takes bits 15:0, ARG the word, RDATA nothing; no other register,
hidden item or event. -/
def Obligations.IdleRegisterWrites : Prop :=
  ∀ (s : State) (off : Nat) (v : Word) (rest : List HostInput), s.x.busy = false →
    s.env.host = ⟨0, .write (s.params.base + off) 4 v⟩ :: rest →
    (off = 0x04 → step s = .next { s.withHost rest with
      x := { s.x with wdrop := if v.getLsbD 4 then false else s.x.wdrop } }) ∧
    (off = 0x08 → step s = .next { s.withHost rest with
      x := { s.x with udelay := v.extractLsb' 0 16 } }) ∧
    (off = 0x0C → step s = .next { s.withHost rest with x := { s.x with arg := v } }) ∧
    (off = 0x10 → step s = .next (s.withHost rest))

/-- A host write to a word of BUF while BUSY is 0 (R31, R61): byte `4k + j` takes bits `8j+7 : 8j`,
every other byte of BUF reads as before, and nothing else changes. The premise on BUF is part of the
invariant (`Obligations.StepKeepsInvariant`). -/
def Obligations.BufferWrite : Prop :=
  ∀ (s : State) (k : Nat) (v : Word) (rest : List HostInput),
    s.params.wf → s.x.buf.wf → s.x.busy = false → 4 * k < s.params.bufBytes →
    s.env.host = ⟨0, .write (s.params.base + (0x40 + 4 * k)) 4 v⟩ :: rest →
    ∃ buf : Memory,
      step s = .next { s.withHost rest with x := { s.x with buf := buf } } ∧ buf.wf ∧
      (∀ j < 4, buf.read (4 * k + j) = v.extractLsb' (8 * j) 8) ∧
      ∀ a, (a < 4 * k ∨ 4 * k + 4 ≤ a) → buf.read a = s.x.buf.read a

/-- Host access errors (R62, R206): the run faults by name and the access has no effect. The names and
the order of the checks are the model's (notes/assumptions/13.md). -/
def Obligations.HostErrorFaults : Prop :=
  ∀ (s : State) (addr width : Nat) (v : Word) (rest : List HostInput) (r : HostReq),
    (r = .read addr width ∨ r = .write addr width v) → s.env.host = ⟨0, r⟩ :: rest →
    (width ≠ 4 → step s = .fault .hostWidth) ∧
    (width = 4 → (addr < s.params.base ∨ s.params.base + 0x80 ≤ addr) →
      step s = .fault .hostOutside) ∧
    (width = 4 → s.params.base ≤ addr → addr < s.params.base + 0x80 →
      (addr - s.params.base) % 4 ≠ 0 → step s = .fault .hostMisaligned)

/-- The host macro `wait` (R94): while BUSY is 1 it does not disturb the running command, which the step
brings to its commit, in the very state that it reaches with no host request scheduled at all; once
BUSY is 0 it answers the word that STATUS reads as, bit 0 of it 0, and ends. That only the last poll is
answered is the model's choice (notes/assumptions/11.md). -/
def Obligations.WaitPollsUntilIdle : Prop :=
  ∀ (s : State) (g : Nat) (rest : List HostInput),
    s.env.host = ⟨g, .wait⟩ :: rest →
    (s.x.busy = true → ∀ i, decode s.h.cur = .ok i → ∃ t, step s = .next t ∧ t.x.busy = false ∧
      step s.alone = .next t.alone ∧ ∃ g', t.env.host = ⟨g', .wait⟩ :: rest) ∧
    (s.x.busy = false → g = 0 → (readReg s 0x04).getLsbD 0 = false ∧
      step s = .next { s with env := { s.env with
        host := rest, replies := s.env.replies ++ [(0x04, readReg s 0x04)] } })

/-! ### Reset -/

/-- The reset input (R230, R231, R233): in any state, running command or not, every register and
hidden item takes its reset value, no event is issued and no commit happens. -/
def Obligations.ResetInput : Prop :=
  ∀ (s : State) (rest : List HostInput), s.env.host = ⟨0, .reset⟩ :: rest →
    step s = .next
      { params := s.params
        x := { cmd := 0#32, busy := false, result := .ok, advisory := false, wdrop := false
               udelay := s.params.udelayReset, arg := 0#32, rdata := 0#32, buf := [] }
        h := { cur := 0#32, seq := 0, settle := 0, fsm := .idle, rstage := 0#32, bstage := []
               acks := [] }
        env := { s.env with host := rest } }

/-- The values a host reads right after reset (R233), with the default parameters. -/
def Obligations.ResetReads : Prop :=
  readReg State.reset 0x00 = 0x00000000#32 ∧ readReg State.reset 0x04 = 0x00000000#32 ∧
  readReg State.reset 0x08 = 0x00000005#32 ∧ readReg State.reset 0x0C = 0x00000000#32 ∧
  readReg State.reset 0x10 = 0x00000000#32 ∧ ∀ k, State.reset.x.buf.read k = 0#8

/-! ### The commands, each from a quiet state to its commit -/

/-- WRITE_BIT (R105). -/
def Obligations.WriteBitResult : Prop :=
  ∀ (s : State) (id : BitVec 8) (lvl : Level), s.quiet → id.toNat < s.params.numBits →
    exec (.writeBit id lvl) s = .next (s.afterCommand (encode (.writeBit id lvl)) .ok false
      s.x.rdata s.x.buf 0 [.pinWr id.toNat (if lvl = .rel then 2 ^ s.params.maskW - 1 else 0)])

/-- READ_BIT (R106). -/
def Obligations.ReadBitResult : Prop :=
  ∀ (s : State) (id : BitVec 8), s.quiet → id.toNat < s.params.numBits →
    exec (.readBit id) s = .next (s.afterCommand (encode (.readBit id)) .ok false
      ((BitVec.ofBool (s.env.answer 0)).setWidth 32) s.x.buf 1 [evR id.toNat (s.env.answer 0)])

/-- WRITE_BITS (R107): element `i`, index 0 first, writes bit `i` of ARG to line `id + i`. -/
def Obligations.WriteBitsResult : Prop :=
  ∀ (s : State) (id : BitVec 8) (count : BitVec 6), s.quiet → count.toNat ≤ 32 →
    id.toNat < s.params.numBits → id.toNat + count.toNat ≤ s.params.numBits →
    exec (.writeBits id count) s = .next (s.afterCommand (encode (.writeBits id count)) .ok false
      s.x.rdata s.x.buf 0
      ((List.range count.toNat).map fun i => evW s.params (id.toNat + i) (s.x.arg.getLsbD i)))

/-- READ_BITS (R108): element `i`, index 0 first, samples line `id + i` into bit `i` of RDATA, the
bits above are 0. -/
def Obligations.ReadBitsResult : Prop :=
  ∀ (s : State) (id : BitVec 8) (count : BitVec 6), s.quiet → count.toNat ≤ 32 →
    id.toNat < s.params.numBits → id.toNat + count.toNat ≤ s.params.numBits →
    ∃ v : Word,
      exec (.readBits id count) s = .next (s.afterCommand (encode (.readBits id count)) .ok false
        v s.x.buf count.toNat
        ((List.range count.toNat).map fun i => evR (id.toNat + i) (s.env.answer i))) ∧
      ∀ i < 32, v.getLsbD i = (decide (i < count.toNat) && s.env.answer i)

/-- I2C_WRITE (R150, R140): START, the address byte `2 * DEV`, the register byte and the data bytes
of BUF, each acknowledged; the first NACK goes to STOP at once and gives NOT_PRESENT for the address
byte, NOT_ACKNOWLEDGED for a later one; otherwise STOP and OK. RDATA and BUF are unchanged. -/
def Obligations.I2cWriteResult : Prop :=
  ∀ (s : State) (dev : BitVec 7) (reg len : BitVec 8), s.quiet →
    len.toNat ≤ s.params.bufBytes →
    exec (.i2cWrite dev reg len) s = .next (s.afterCommand (encode (.i2cWrite dev reg len))
      (if s.env.answer 0 then .notPresent
       else if (List.range (len.toNat + 2)).any s.env.answer then .notAcknowledged else .ok)
      false s.x.rdata s.x.buf (acksTaken s.env.answer 0 (len.toNat + 2))
      (trStart s.params ++ trBytes s.params s.env.answer (trStop s.params) 0
        (BitVec.ofNat 8 (dev.toNat * 2) :: reg :: (List.range len.toNat).map s.x.buf.read)))

/-- I2C_READ of no byte (R155): the write phase and STOP, no repeated START, BUF unchanged. -/
def Obligations.I2cReadNothingResult : Prop :=
  ∀ (s : State) (dev : BitVec 7) (reg : BitVec 8), s.quiet →
    exec (.i2cRead dev reg 0#8) s = .next (s.afterCommand (encode (.i2cRead dev reg 0#8))
      (if s.env.answer 0 then .notPresent
       else if s.env.answer 1 then .notAcknowledged else .ok)
      false s.x.rdata s.x.buf (acksTaken s.env.answer 0 2)
      (trStart s.params ++ trBytes s.params s.env.answer (trStop s.params) 0
        [BitVec.ofNat 8 (dev.toNat * 2), reg]))

/-- I2C_READ of at least one byte (R155): the write phase, a repeated START, the address byte with
the read bit, the bytes received, each acknowledged by the framer but the last, STOP. On OK byte `k`
of BUF is the `k`-th byte received for `k < LEN`; every other byte, and all of BUF on a failure, is
unchanged. The premise on BUF is part of the invariant. -/
def Obligations.I2cReadResult : Prop :=
  ∀ (s : State) (dev : BitVec 7) (reg len : BitVec 8), s.quiet → s.x.buf.wf →
    0 < len.toNat → len.toNat ≤ s.params.bufBytes →
    let ans := s.env.answer
    let res : Result :=
      if ans 0 then .notPresent else if ans 1 then .notAcknowledged
      else if ans 2 then .notPresent else .ok
    ∃ buf : Memory,
      exec (.i2cRead dev reg len) s = .next (s.afterCommand (encode (.i2cRead dev reg len))
        res false s.x.rdata buf
        (if ans 0 then 1 else if ans 1 then 2 else if ans 2 then 3 else 3 + 8 * len.toNat)
        (trStart s.params ++ trBytes s.params ans
          (trRestart s.params ++ trBytes s.params ans
            (trReceive s.params ans 3 len.toNat ++ trStop s.params) 2
            [BitVec.ofNat 8 (dev.toNat * 2 + 1)]) 0
          [BitVec.ofNat 8 (dev.toNat * 2), reg])) ∧
      (res = .ok → ∀ k < len.toNat, buf.read k = byteOf ans (3 + 8 * k)) ∧
      (∀ k, len.toNat ≤ k → buf.read k = s.x.buf.read k) ∧
      (res ≠ .ok → buf = s.x.buf)

/-- MDIO_READ (R180): preamble, ST 01, OPC 10, PHY, REG, two released turnaround periods, sixteen
samples, final release; RDATA is the value, ADVISORY says it is 0xFFFF. -/
def Obligations.MdioReadResult : Prop :=
  ∀ (s : State) (phy reg : BitVec 5), s.quiet →
    let p := s.params
    let v := valueOf s.env.answer
    exec (.mdioRead phy reg) s = .next (s.afterCommand (encode (.mdioRead phy reg)) .ok
      (decide (v = 0xFFFF#16)) (v.setWidth 32) s.x.buf 16
      ((List.replicate p.preambleBits true).flatMap (trBit p p.mdcId p.mdioId)
        ++ trField p p.mdcId p.mdioId 0b01#2 ++ trField p p.mdcId p.mdioId 0b10#2
        ++ trField p p.mdcId p.mdioId phy ++ trField p p.mdcId p.mdioId reg
        ++ trBit p p.mdcId p.mdioId true ++ trBit p p.mdcId p.mdioId true
        ++ (List.range 16).flatMap (fun k => trSample p p.mdcId p.mdioId (s.env.answer k))
        ++ [evW p p.mdioId true]))

/-- MDIO_WRITE (R184): preamble, the 32 bits of the frame word of R87 with OPC 01, TA 10 and
`ARG[15:0]`, most significant first, final release; RDATA is unchanged. -/
def Obligations.MdioWriteResult : Prop :=
  ∀ (s : State) (phy reg : BitVec 5), s.quiet →
    let p := s.params
    exec (.mdioWrite phy reg) s = .next (s.afterCommand (encode (.mdioWrite phy reg)) .ok false
      s.x.rdata s.x.buf 0
      ((List.replicate p.preambleBits true).flatMap (trBit p p.mdcId p.mdioId)
        ++ trField p p.mdcId p.mdioId (BitVec.ofNat 32 (2 ^ 30 + 2 ^ 28 + phy.toNat * 2 ^ 23
            + reg.toNat * 2 ^ 18 + 2 * 2 ^ 16 + s.x.arg.toNat % 2 ^ 16))
        ++ [evW p p.mdioId true]))

/-! ### Event counts -/

/-- The event counts of I2C_WRITE (R151). -/
def Obligations.I2cWriteEventCounts : Prop :=
  ∀ (s : State) (dev : BitVec 7) (reg len : BitVec 8), s.quiet → s.env.trace = [] →
    len.toNat ≤ s.params.bufBytes →
    let ans := s.env.answer
    ∃ t, exec (.i2cWrite dev reg len) s = .next t ∧
      (ans 0 = true → writeCount t.env.trace = 32 ∧ readCount t.env.trace = 1) ∧
      (ans 0 = false → ans 1 = true →
        writeCount t.env.trace = 59 ∧ readCount t.env.trace = 2) ∧
      (∀ j < len.toNat, (∀ k < 2 + j, ans k = false) → ans (2 + j) = true →
        writeCount t.env.trace = 86 + 27 * j ∧ readCount t.env.trace = 3 + j) ∧
      ((∀ k < 2 + len.toNat, ans k = false) →
        writeCount t.env.trace = 59 + 27 * len.toNat ∧
        readCount t.env.trace = 2 + len.toNat)

/-- The event counts of I2C_READ (R156). -/
def Obligations.I2cReadEventCounts : Prop :=
  ∀ (s : State) (dev : BitVec 7) (reg len : BitVec 8), s.quiet → s.env.trace = [] →
    len.toNat ≤ s.params.bufBytes →
    let ans := s.env.answer
    let n := len.toNat
    ∃ t, exec (.i2cRead dev reg len) s = .next t ∧
      (1 ≤ n → ans 0 = false → ans 1 = false → ans 2 = false →
        writeCount t.env.trace = 90 + 20 * n ∧ readCount t.env.trace = 3 + 8 * n) ∧
      (n = 0 → ans 0 = false → ans 1 = false →
        writeCount t.env.trace = 59 ∧ readCount t.env.trace = 2) ∧
      (ans 0 = true → writeCount t.env.trace = 32 ∧ readCount t.env.trace = 1) ∧
      (ans 0 = false → ans 1 = true →
        writeCount t.env.trace = 59 ∧ readCount t.env.trace = 2) ∧
      (1 ≤ n → ans 0 = false → ans 1 = false → ans 2 = true →
        writeCount t.env.trace = 90 ∧ readCount t.env.trace = 3)

/-- The event counts of MDIO_READ and MDIO_WRITE (R182, R185). -/
def Obligations.MdioEventCounts : Prop :=
  ∀ (s : State) (phy reg : BitVec 5), s.quiet → s.env.trace = [] →
    let n := s.params.preambleBits
    (∃ t, exec (.mdioRead phy reg) s = .next t ∧
      writeCount t.env.trace = 3 * n + 81 ∧ readCount t.env.trace = 16) ∧
    (∃ t, exec (.mdioWrite phy reg) s = .next t ∧
      writeCount t.env.trace = 3 * n + 97 ∧ readCount t.env.trace = 0)

/-! ### Rules about more than one command -/

/-- Advisory no-response (R181): an MDIO_READ all of whose sixteen samples are 1, and no other,
commits ADVISORY 1, with RESULT OK and RDATA 0x0000FFFF. -/
def Obligations.AdvisoryIffAllOnes : Prop :=
  ∀ (s : State) (phy reg : BitVec 5), s.quiet →
    ∃ t, exec (.mdioRead phy reg) s = .next t ∧ t.x.result = .ok ∧
      (t.x.advisory = true ↔ ∀ k < 16, s.env.answer k = true) ∧
      (t.x.advisory = true ↔ t.x.rdata = 0x0000FFFF#32)

/-- "The trace is identical to `n` WRITE_BIT commands on `id, id+1, ...`" (R107). -/
def Obligations.WriteBitsIsRepeatedWriteBit : Prop :=
  ∀ (s : State) (id : BitVec 8) (count : BitVec 6), s.params.wf → s.quiet → count.toNat ≤ 32 →
    id.toNat < s.params.numBits → id.toNat + count.toNat ≤ s.params.numBits →
    ∃ t u, exec (.writeBits id count) s = .next t ∧
      writeEach id.toNat s.x.arg s count.toNat = .next u ∧
      t.env.trace = u.env.trace

/-- Every I2C command that reaches its commit, successful or failed, ends with the three writes of STOP
(R137, R141), the clock release and the data release last, whatever else the host has scheduled and
however often the command has paused for it. -/
def Obligations.I2cEndsWithStop : Prop :=
  ∀ (s t : State) (i : Instr) (before : List PinEvent),
    (∃ dev reg len, i = .i2cWrite dev reg len ∨ i = .i2cRead dev reg len) →
    Commits i s t before →
    ∃ es, t.env.trace =
      before ++ es ++ [evW s.params s.params.sdaId false, evW s.params s.params.sclId true,
        evW s.params s.params.sdaId true]

/-- Every MDIO command that reaches its commit ends with the clock low and the release of MDIO (R178),
whatever else the host has scheduled and however often the command has paused for it. -/
def Obligations.MdioEndsReleased : Prop :=
  ∀ (s t : State) (i : Instr) (before : List PinEvent),
    (∃ phy reg, i = .mdioRead phy reg ∨ i = .mdioWrite phy reg) →
    Commits i s t before →
    ∃ es, t.env.trace =
      before ++ es ++ [evW s.params s.params.mdcId false, evW s.params s.params.mdioId true]

/-- Only I2C commands report NOT_PRESENT or NOT_ACKNOWLEDGED (R204): an accepted core or MDIO command
that commits, commits OK, whatever else the host has scheduled and however often it has paused. -/
def Obligations.OnlyI2cReportsFailure : Prop :=
  ∀ (s t : State) (i : Instr) (before : List PinEvent),
    (∀ dev reg len, i ≠ .i2cWrite dev reg len ∧ i ≠ .i2cRead dev reg len) →
    Commits i s t before → t.x.result = .ok

/-- While a command runs, the operands and the previous command's results stay (R25, R70, R241): in
any step that leaves BUSY at 1, only CMD, BUSY and WDROP of the registers can have changed. -/
def Obligations.RegistersHoldWhileBusy : Prop :=
  ∀ s t : State, step s = .next t → t.x.busy = true →
    t.x = { s.x with cmd := t.x.cmd, busy := true, wdrop := t.x.wdrop }

/-- The framer states (R35, R131, R171): in every state with the invariant, and after every step and every
accept from one, a running command shows the states of its own protocol only, a core command IDLE. -/
def Obligations.FramerStates : Prop :=
  ∀ (s : State) (i : Instr), s.Inv →
    (s.x.busy = true → decode s.h.cur = .ok i → s.h.fsm ∈ framerStates i) ∧
    (∀ t, step s = .next t → t.x.busy = true → decode t.h.cur = .ok i →
      t.h.fsm ∈ framerStates i) ∧
    (∀ t, s.x.busy = false → exec i s = .next t → t.x.busy = true → t.h.fsm ∈ framerStates i)

/-- The settle gate (R102): a running command whose settle counter is not below the cycles before the
next host request issues no event and does not commit; the counter runs down by those cycles. The
cycles between two host requests are the model's schedule (notes/assumptions/4.md). -/
def Obligations.SettleHoldsEventsBack : Prop :=
  ∀ (s : State) (i : Instr) (g : Nat) (r : HostReq) (rest : List HostInput),
    s.x.busy = true → decode s.h.cur = .ok i → s.env.host = ⟨g, r⟩ :: rest → r ≠ .wait →
    0 < g → g ≤ s.h.settle →
    ∃ t, step s = .next t ∧ t.x = s.x ∧ t.env = { s.env with host := ⟨0, r⟩ :: rest } ∧
      t.h.settle = s.h.settle - g ∧ t.h.seq = s.h.seq ∧ t.h.acks = s.h.acks

/-- A `PinWrite` loads the settle counter with `DELAY * CLK_PER_US` and a `PinRead` does not load it
(R102): seen one cycle after the accept of a WRITE_BIT and of a READ_BIT, in which the command's one
event has been issued or is still to come (R240 leaves that open). -/
def Obligations.WriteLoadsSettle : Prop :=
  ∀ (s : State) (id : BitVec 8) (lvl : Level) (r : HostReq) (rest : List HostInput),
    s.x.busy = false → s.h.settle = 0 → id.toNat < s.params.numBits →
    s.env.host = ⟨1, r⟩ :: rest → r ≠ .wait →
    (∃ t, exec (.writeBit id lvl) s = .next t ∧ t.x.busy = true ∧
      (t.h.seq = 0 ∧ t.h.settle = 0 ∧ t.env.trace = s.env.trace ∨
       t.h.seq = 1 ∧ t.h.settle = s.x.udelay.toNat * s.params.clkPerUs ∧
         t.env.trace = s.env.trace ++ [evW s.params id.toNat lvl.toBit])) ∧
    (∃ t, exec (.readBit id) s = .next t ∧ t.x.busy = true ∧ t.h.settle = 0 ∧
      (t.h.seq = 0 ∧ t.env.trace = s.env.trace ∨
       t.h.seq = 1 ∧ t.env.trace = s.env.trace ++ [evR id.toNat (s.env.answer 0)]))

/-- Minimum duration (R240, R252), for every stretch of a command: from its accept or from a host request
served while it runs, up to its commit or the next host request `g` cycles on. For the events `es` of the
stretch it takes at least the settle delay still to run at its start, that of each `PinWrite` of it
(less what is still to run at a pause, which the next stretch counts), one cycle for each event and
one for the commit. The host's schedule is the model's (notes/assumptions/4.md). -/
def Obligations.MinimumDuration : Prop :=
  ∀ (s t : State) (i : Instr) (g : Nat) (r : HostReq) (rest : List HostInput),
    s.env.host = ⟨g, r⟩ :: rest → r ≠ .wait →
    (s.x.busy = false ∧ i.wf s.params = true ∧ exec i s = .next t ∨
      s.x.busy = true ∧ decode s.h.cur = .ok i ∧ 0 < g ∧ step s = .next t) →
    ∃ es, t.env.trace = s.env.trace ++ es ∧
      let least := s.h.settle + writeCount es * (s.x.udelay.toNat * s.params.clkPerUs) + es.length
      (t.x.busy = true → t.env.host = ⟨0, r⟩ :: rest ∧ least ≤ g + t.h.settle) ∧
      (t.x.busy = false → ∃ g', t.env.host = ⟨g', r⟩ :: rest ∧ g' + least + 1 ≤ g)

/-- No step changes a parameter, takes back a backend event or takes back an answer to the host
(R66, R67). -/
def Obligations.OutputsOnlyGrow : Prop :=
  ∀ s t : State, step s = .next t →
    t.params = s.params ∧ (∃ es, t.env.trace = s.env.trace ++ es) ∧
    (∃ rs, t.env.replies = s.env.replies ++ rs)

/-- With BUSY 0 the block issues no event and changes no register until the host does something
(R216): a step with no host request due only lets time pass. -/
def Obligations.IdleBlockWaits : Prop :=
  ∀ s : State, s.x.busy = false → s.due = false →
    ∃ t, step s = .next t ∧ t.params = s.params ∧ t.x = s.x ∧ t.env.trace = s.env.trace ∧
      t.env.pins = s.env.pins ∧ t.env.replies = s.env.replies ∧
      (s.env.host = [] → t.env.host = []) ∧
      (∀ g r rest, s.env.host = ⟨g, r⟩ :: rest → t.env.host = ⟨0, r⟩ :: rest)

/-- A command given to an idle block does not depend on the host requests scheduled after it (R68, R70). If it
commits before the next one, it does so in the state it reaches with no host request scheduled at all; if
it pauses for one and is then left alone, it ends in exactly that state. What a running command does
after that is `Obligations.RunningCommandGoesOn`. The pause is how the model interleaves the two
(notes/assumptions/4.md). -/
def Obligations.PauseDoesNotDisturb : Prop :=
  ∀ (s t : State) (i : Instr), exec i s = .next t →
    (t.x.busy = false → exec i s.alone = .next t.alone) ∧
    (s.x.busy = false → t.x.busy = true →
      ∃ u, exec i s.alone = .next u ∧ step t.alone = .next u)

/-- The end of a running command is kept by every step but a reset (R68, R69, R70): left alone, a command
running in a state with the invariant commits, in a state `u`. A step of the block with its host
requests either commits in `u` too, or leaves the command running, having paused again, answered a read
or dropped a write, and then, left alone, it still ends in `u`, but for WDROP and the replies
that the host's accesses have changed. -/
def Obligations.RunningCommandGoesOn : Prop :=
  ∀ s : State, s.Inv → s.x.busy = true →
    ∃ u, step s.alone = .next u ∧ u.x.busy = false ∧
      ∀ t, step s = .next t → s.notReset →
        (t.x.busy = false → t.alone = u) ∧
        (t.x.busy = true → step t.alone = .next (u.seenBy t))

/-! ### The invariant -/

/-- The invariant holds right after reset. -/
def Obligations.ResetHasInvariant : Prop :=
  State.reset.Inv

/-- Every step keeps the invariant, from every state that has it. For a running command the invariant speaks of
h.acks, of when a sample is staged and of when h.FSM changes, which are the model's
(notes/assumptions/3.md, 8.md, 9.md). -/
def Obligations.StepKeepsInvariant : Prop :=
  ∀ s t : State, s.Inv → step s = .next t → t.Inv
end

