-- ==== Sys2Proof/Laws/State.lean ====
section
/-! SUPPORT. One lemma per field per update of State, true by rfl, and what each shared update leaves alone, so that
no later proof unfolds a record update. -/

namespace Sys2Proof.Machine

/-! ### Cycles pass -/

@[simp] theorem elapse_params (n : Nat) (s : State) : (s.elapse n).params = s.params := rfl
@[simp] theorem elapse_x (n : Nat) (s : State) : (s.elapse n).x = s.x := rfl
@[simp] theorem elapse_cur (n : Nat) (s : State) : (s.elapse n).h.cur = s.h.cur := rfl
@[simp] theorem elapse_seq (n : Nat) (s : State) : (s.elapse n).h.seq = s.h.seq := rfl
@[simp] theorem elapse_settle (n : Nat) (s : State) :
    (s.elapse n).h.settle = s.h.settle - n := rfl
@[simp] theorem elapse_fsm (n : Nat) (s : State) : (s.elapse n).h.fsm = s.h.fsm := rfl
@[simp] theorem elapse_rstage (n : Nat) (s : State) : (s.elapse n).h.rstage = s.h.rstage := rfl
@[simp] theorem elapse_bstage (n : Nat) (s : State) : (s.elapse n).h.bstage = s.h.bstage := rfl
@[simp] theorem elapse_acks (n : Nat) (s : State) : (s.elapse n).h.acks = s.h.acks := rfl
@[simp] theorem elapse_pins (n : Nat) (s : State) : (s.elapse n).env.pins = s.env.pins := rfl
@[simp] theorem elapse_draws (n : Nat) (s : State) : (s.elapse n).env.draws = s.env.draws := rfl
@[simp] theorem elapse_trace (n : Nat) (s : State) : (s.elapse n).env.trace = s.env.trace := rfl
@[simp] theorem elapse_replies (n : Nat) (s : State) :
    (s.elapse n).env.replies = s.env.replies := rfl

/-- No cycle, no change. -/
@[simp] theorem elapse_zero (s : State) : s.elapse 0 = s := by
  obtain ⟨p, x, h, e⟩ := s
  obtain ⟨host, pins, draws, trace, replies⟩ := e
  cases host <;> rfl

/-- The settle wait is some number of cycles passing. -/
theorem settleDown_eq_elapse (s : State) : ∃ n, s.settleDown = s.elapse n := by
  unfold State.settleDown
  split
  · exact ⟨_, rfl⟩
  · split <;> exact ⟨_, rfl⟩

@[simp] theorem settleDown_params (s : State) : s.settleDown.params = s.params := by
  obtain ⟨n, h⟩ := settleDown_eq_elapse s
  rw [h, elapse_params]

@[simp] theorem settleDown_x (s : State) : s.settleDown.x = s.x := by
  obtain ⟨n, h⟩ := settleDown_eq_elapse s
  rw [h, elapse_x]

@[simp] theorem settleDown_cur (s : State) : s.settleDown.h.cur = s.h.cur := by
  obtain ⟨n, h⟩ := settleDown_eq_elapse s
  rw [h, elapse_cur]

@[simp] theorem settleDown_seq (s : State) : s.settleDown.h.seq = s.h.seq := by
  obtain ⟨n, h⟩ := settleDown_eq_elapse s
  rw [h, elapse_seq]

@[simp] theorem settleDown_rstage (s : State) : s.settleDown.h.rstage = s.h.rstage := by
  obtain ⟨n, h⟩ := settleDown_eq_elapse s
  rw [h, elapse_rstage]

@[simp] theorem settleDown_bstage (s : State) : s.settleDown.h.bstage = s.h.bstage := by
  obtain ⟨n, h⟩ := settleDown_eq_elapse s
  rw [h, elapse_bstage]

@[simp] theorem settleDown_acks (s : State) : s.settleDown.h.acks = s.h.acks := by
  obtain ⟨n, h⟩ := settleDown_eq_elapse s
  rw [h, elapse_acks]

@[simp] theorem settleDown_pins (s : State) : s.settleDown.env.pins = s.env.pins := by
  obtain ⟨n, h⟩ := settleDown_eq_elapse s
  rw [h, elapse_pins]

@[simp] theorem settleDown_draws (s : State) : s.settleDown.env.draws = s.env.draws := by
  obtain ⟨n, h⟩ := settleDown_eq_elapse s
  rw [h, elapse_draws]

@[simp] theorem settleDown_trace (s : State) : s.settleDown.env.trace = s.env.trace := by
  obtain ⟨n, h⟩ := settleDown_eq_elapse s
  rw [h, elapse_trace]

@[simp] theorem settleDown_replies (s : State) : s.settleDown.env.replies = s.env.replies := by
  obtain ⟨n, h⟩ := settleDown_eq_elapse s
  rw [h, elapse_replies]

theorem settleDown_settle_le (s : State) : s.settleDown.h.settle ≤ s.h.settle := by
  obtain ⟨n, h⟩ := settleDown_eq_elapse s
  rw [h, elapse_settle]
  omega

/-! ### The framer state -/

theorem enter_eq (f : Fsm) (s : State) :
    s.enter f = { s with h := { s.h with fsm := if s.h.settle = 0 then f else s.h.fsm } } := by
  unfold State.enter
  split <;> rfl

@[simp] theorem enter_params (f : Fsm) (s : State) : (s.enter f).params = s.params := by
  rw [enter_eq]

@[simp] theorem enter_x (f : Fsm) (s : State) : (s.enter f).x = s.x := by
  rw [enter_eq]

@[simp] theorem enter_cur (f : Fsm) (s : State) : (s.enter f).h.cur = s.h.cur := by
  rw [enter_eq]

@[simp] theorem enter_seq (f : Fsm) (s : State) : (s.enter f).h.seq = s.h.seq := by
  rw [enter_eq]

@[simp] theorem enter_settle (f : Fsm) (s : State) : (s.enter f).h.settle = s.h.settle := by
  rw [enter_eq]

@[simp] theorem enter_rstage (f : Fsm) (s : State) : (s.enter f).h.rstage = s.h.rstage := by
  rw [enter_eq]

@[simp] theorem enter_bstage (f : Fsm) (s : State) : (s.enter f).h.bstage = s.h.bstage := by
  rw [enter_eq]

@[simp] theorem enter_acks (f : Fsm) (s : State) : (s.enter f).h.acks = s.h.acks := by
  rw [enter_eq]

@[simp] theorem enter_env (f : Fsm) (s : State) : (s.enter f).env = s.env := by
  rw [enter_eq]

@[simp] theorem enter_budget (f : Fsm) (s : State) : (s.enter f).budget = s.budget := by
  simp [State.budget]

@[simp] theorem enter_due (f : Fsm) (s : State) : (s.enter f).due = s.due := by
  simp [State.due]

/-! ### The pin-backend port -/

@[simp] theorem pinWrite_params (id : Nat) (l : Level) (s : State) :
    (s.pinWrite id l).params = s.params := rfl
@[simp] theorem pinWrite_x (id : Nat) (l : Level) (s : State) : (s.pinWrite id l).x = s.x := rfl
@[simp] theorem pinWrite_cur (id : Nat) (l : Level) (s : State) :
    (s.pinWrite id l).h.cur = s.h.cur := rfl
@[simp] theorem pinWrite_seq (id : Nat) (l : Level) (s : State) :
    (s.pinWrite id l).h.seq = s.h.seq + 1 := rfl
@[simp] theorem pinWrite_settle (id : Nat) (l : Level) (s : State) :
    (s.pinWrite id l).h.settle = s.x.udelay.toNat * s.params.clkPerUs := rfl
@[simp] theorem pinWrite_fsm (id : Nat) (l : Level) (s : State) :
    (s.pinWrite id l).h.fsm = s.h.fsm := rfl
@[simp] theorem pinWrite_rstage (id : Nat) (l : Level) (s : State) :
    (s.pinWrite id l).h.rstage = s.h.rstage := rfl
@[simp] theorem pinWrite_bstage (id : Nat) (l : Level) (s : State) :
    (s.pinWrite id l).h.bstage = s.h.bstage := rfl
@[simp] theorem pinWrite_acks (id : Nat) (l : Level) (s : State) :
    (s.pinWrite id l).h.acks = s.h.acks := rfl
@[simp] theorem pinWrite_pins (id : Nat) (l : Level) (s : State) :
    (s.pinWrite id l).env.pins = s.env.pins := rfl
@[simp] theorem pinWrite_draws (id : Nat) (l : Level) (s : State) :
    (s.pinWrite id l).env.draws = s.env.draws := rfl
@[simp] theorem pinWrite_trace (id : Nat) (l : Level) (s : State) :
    (s.pinWrite id l).env.trace = s.env.trace ++ [.pinWr id (levelMask s.params l)] := rfl
@[simp] theorem pinWrite_replies (id : Nat) (l : Level) (s : State) :
    (s.pinWrite id l).env.replies = s.env.replies := rfl

@[simp] theorem store_cur (k : Sink) (b : Bool) (h : Hidden) : (h.store k b).cur = h.cur := by
  cases k <;> rfl
@[simp] theorem store_seq (k : Sink) (b : Bool) (h : Hidden) : (h.store k b).seq = h.seq := by
  cases k <;> rfl
@[simp] theorem store_settle (k : Sink) (b : Bool) (h : Hidden) :
    (h.store k b).settle = h.settle := by
  cases k <;> rfl
@[simp] theorem store_fsm (k : Sink) (b : Bool) (h : Hidden) : (h.store k b).fsm = h.fsm := by
  cases k <;> rfl

@[simp] theorem drawn_host (e : Env) : e.drawn.host = e.host := by
  unfold Env.drawn
  split <;> rfl
@[simp] theorem drawn_trace (e : Env) : e.drawn.trace = e.trace := by
  unfold Env.drawn
  split <;> rfl
@[simp] theorem drawn_replies (e : Env) : e.drawn.replies = e.replies := by
  unfold Env.drawn
  split <;> rfl

@[simp] theorem pinRead_params (id : Nat) (k : Sink) (s : State) :
    (s.pinRead id k).params = s.params := rfl
@[simp] theorem pinRead_x (id : Nat) (k : Sink) (s : State) : (s.pinRead id k).x = s.x := rfl
@[simp] theorem pinRead_cur (id : Nat) (k : Sink) (s : State) :
    (s.pinRead id k).h.cur = s.h.cur := by
  simp [State.pinRead]
@[simp] theorem pinRead_seq (id : Nat) (k : Sink) (s : State) :
    (s.pinRead id k).h.seq = s.h.seq + 1 := by
  simp [State.pinRead]
@[simp] theorem pinRead_settle (id : Nat) (k : Sink) (s : State) :
    (s.pinRead id k).h.settle = s.h.settle - 1 := by
  simp [State.pinRead]
@[simp] theorem pinRead_fsm (id : Nat) (k : Sink) (s : State) :
    (s.pinRead id k).h.fsm = s.h.fsm := by
  simp [State.pinRead]
@[simp] theorem pinRead_trace (id : Nat) (k : Sink) (s : State) :
    (s.pinRead id k).env.trace = s.env.trace ++ [.pinRd id s.nextLevel] := rfl
@[simp] theorem pinRead_replies (id : Nat) (k : Sink) (s : State) :
    (s.pinRead id k).env.replies = s.env.replies := by
  simp [State.pinRead]

@[simp] theorem perform_params (o : PinOp) (s : State) : (s.perform o).params = s.params := by
  cases o <;> rfl
@[simp] theorem perform_x (o : PinOp) (s : State) : (s.perform o).x = s.x := by
  cases o <;> rfl
@[simp] theorem perform_cur (o : PinOp) (s : State) : (s.perform o).h.cur = s.h.cur := by
  cases o <;> simp [State.perform]
@[simp] theorem perform_seq (o : PinOp) (s : State) : (s.perform o).h.seq = s.h.seq + 1 := by
  cases o <;> simp [State.perform]
@[simp] theorem perform_fsm (o : PinOp) (s : State) : (s.perform o).h.fsm = s.h.fsm := by
  cases o <;> simp [State.perform]
@[simp] theorem perform_replies (o : PinOp) (s : State) :
    (s.perform o).env.replies = s.env.replies := by
  cases o <;> simp [State.perform]

/-! ### Accept, reject, drop -/

@[simp] theorem accept_params (w : Word) (s : State) : (s.accept w).params = s.params := rfl
@[simp] theorem accept_x (w : Word) (s : State) :
    (s.accept w).x = { s.x with cmd := w, busy := true } := rfl
@[simp] theorem accept_cur (w : Word) (s : State) : (s.accept w).h.cur = w := rfl
@[simp] theorem accept_seq (w : Word) (s : State) : (s.accept w).h.seq = 0 := rfl
@[simp] theorem accept_settle (w : Word) (s : State) :
    (s.accept w).h.settle = s.h.settle := rfl
@[simp] theorem accept_fsm (w : Word) (s : State) : (s.accept w).h.fsm = s.h.fsm := rfl
@[simp] theorem accept_rstage (w : Word) (s : State) : (s.accept w).h.rstage = 0#32 := rfl
@[simp] theorem accept_bstage (w : Word) (s : State) : (s.accept w).h.bstage = [] := rfl
@[simp] theorem accept_acks (w : Word) (s : State) : (s.accept w).h.acks = [] := rfl
@[simp] theorem accept_env (w : Word) (s : State) : (s.accept w).env = s.env := rfl

@[simp] theorem reject_params (w : Word) (s : State) : (s.reject w).params = s.params := rfl
@[simp] theorem reject_x (w : Word) (s : State) :
    (s.reject w).x = { s.x with cmd := w, result := .badCommand, advisory := false } := rfl
@[simp] theorem reject_h (w : Word) (s : State) : (s.reject w).h = s.h := rfl
@[simp] theorem reject_env (w : Word) (s : State) : (s.reject w).env = s.env := rfl

@[simp] theorem dropWrite_params (s : State) : s.dropWrite.params = s.params := rfl
@[simp] theorem dropWrite_x (s : State) : s.dropWrite.x = { s.x with wdrop := true } := rfl
@[simp] theorem dropWrite_h (s : State) : s.dropWrite.h = s.h := rfl
@[simp] theorem dropWrite_env (s : State) : s.dropWrite.env = s.env := rfl

/-! ### Commit -/

@[simp] theorem finish_params (d : Deliver) (r : Result) (s : State) :
    (s.finish d r).params = s.params := rfl
@[simp] theorem finish_cmd (d : Deliver) (r : Result) (s : State) :
    (s.finish d r).x.cmd = s.x.cmd := rfl
@[simp] theorem finish_busy (d : Deliver) (r : Result) (s : State) :
    (s.finish d r).x.busy = false := rfl
@[simp] theorem finish_result (d : Deliver) (r : Result) (s : State) :
    (s.finish d r).x.result = r := rfl
@[simp] theorem finish_advisory (d : Deliver) (r : Result) (s : State) :
    (s.finish d r).x.advisory = d.advisory r s.h.rstage := rfl
@[simp] theorem finish_wdrop (d : Deliver) (r : Result) (s : State) :
    (s.finish d r).x.wdrop = s.x.wdrop := rfl
@[simp] theorem finish_udelay (d : Deliver) (r : Result) (s : State) :
    (s.finish d r).x.udelay = s.x.udelay := rfl
@[simp] theorem finish_arg (d : Deliver) (r : Result) (s : State) :
    (s.finish d r).x.arg = s.x.arg := rfl
@[simp] theorem finish_rdata (d : Deliver) (r : Result) (s : State) :
    (s.finish d r).x.rdata = d.rdata s.x.rdata s.h.rstage := rfl
@[simp] theorem finish_buf (d : Deliver) (r : Result) (s : State) :
    (s.finish d r).x.buf = d.buf r s.x.buf s.h.bstage := rfl
@[simp] theorem finish_h (d : Deliver) (r : Result) (s : State) :
    (s.finish d r).h = { Hidden.reset with cur := s.h.cur, settle := s.h.settle - 1 } := rfl
@[simp] theorem finish_env (d : Deliver) (r : Result) (s : State) :
    (s.finish d r).env = (s.elapse 1).env := rfl

/-! ### The host port -/

@[simp] theorem reply_params (off : Nat) (s : State) : (s.reply off).params = s.params := rfl
@[simp] theorem reply_x (off : Nat) (s : State) : (s.reply off).x = s.x := rfl
@[simp] theorem reply_h (off : Nat) (s : State) : (s.reply off).h = s.h := rfl
@[simp] theorem reply_host (off : Nat) (s : State) : (s.reply off).env.host = s.env.host := rfl
@[simp] theorem reply_pins (off : Nat) (s : State) : (s.reply off).env.pins = s.env.pins := rfl
@[simp] theorem reply_draws (off : Nat) (s : State) : (s.reply off).env.draws = s.env.draws := rfl
@[simp] theorem reply_trace (off : Nat) (s : State) : (s.reply off).env.trace = s.env.trace := rfl
@[simp] theorem reply_replies (off : Nat) (s : State) :
    (s.reply off).env.replies = s.env.replies ++ [(off, readReg s off)] := rfl

@[simp] theorem hardReset_params (s : State) : s.hardReset.params = s.params := rfl
@[simp] theorem hardReset_x (s : State) : s.hardReset.x = Regs.reset s.params := rfl
@[simp] theorem hardReset_h (s : State) : s.hardReset.h = Hidden.reset := rfl
@[simp] theorem hardReset_env (s : State) : s.hardReset.env = s.env := rfl

@[simp] theorem withCmdWrite_params (w : Word) (s : State) :
    (s.withCmdWrite w).params = s.params := rfl
@[simp] theorem withCmdWrite_x (w : Word) (s : State) :
    (s.withCmdWrite w).x = { s.x with busy := false } := rfl
@[simp] theorem withCmdWrite_h (w : Word) (s : State) : (s.withCmdWrite w).h = s.h := rfl
@[simp] theorem withCmdWrite_host (w : Word) (s : State) :
    (s.withCmdWrite w).env.host = ⟨0, .write s.params.base 4 w⟩ :: s.env.host := rfl

/-- A register write changes no parameter, no hidden item and nothing outside. -/
theorem writeReg_frame (off : Nat) (v : Word) (s : State) :
    (writeReg off v s).params = s.params ∧ (writeReg off v s).h = s.h ∧
      (writeReg off v s).env = s.env := by
  unfold writeReg
  repeat' split
  all_goals exact ⟨rfl, rfl, rfl⟩

@[simp] theorem writeReg_params (off : Nat) (v : Word) (s : State) :
    (writeReg off v s).params = s.params := (writeReg_frame off v s).1
@[simp] theorem writeReg_h (off : Nat) (v : Word) (s : State) :
    (writeReg off v s).h = s.h := (writeReg_frame off v s).2.1
@[simp] theorem writeReg_env (off : Nat) (v : Word) (s : State) :
    (writeReg off v s).env = s.env := (writeReg_frame off v s).2.2

end Sys2Proof.Machine
end

