-- ==== Sys2Proof/Laws/HostPort.lean ====
section
/-! SUPPORT. What one step can do at the host port, said once: which request is served, what a legal offset is, and
what a host write does. -/

namespace Sys2Proof.Machine

/-! ### Replacing the requests still to come -/

@[simp] theorem withHost_params (l : List HostInput) (s : State) :
    (s.withHost l).params = s.params := rfl
@[simp] theorem withHost_x (l : List HostInput) (s : State) : (s.withHost l).x = s.x := rfl
@[simp] theorem withHost_h (l : List HostInput) (s : State) : (s.withHost l).h = s.h := rfl
@[simp] theorem withHost_host (l : List HostInput) (s : State) : (s.withHost l).env.host = l := rfl
@[simp] theorem withHost_pins (l : List HostInput) (s : State) :
    (s.withHost l).env.pins = s.env.pins := rfl
@[simp] theorem withHost_draws (l : List HostInput) (s : State) :
    (s.withHost l).env.draws = s.env.draws := rfl
@[simp] theorem withHost_trace (l : List HostInput) (s : State) :
    (s.withHost l).env.trace = s.env.trace := rfl
@[simp] theorem withHost_replies (l : List HostInput) (s : State) :
    (s.withHost l).env.replies = s.env.replies := rfl

/-! ### Offsets -/

/-- A 4-byte access at a multiple of 4 inside the window is legal. -/
theorem hostOffset_ok (p : Params) {off : Nat} (h : off < 0x80) (h4 : off % 4 = 0) :
    hostOffset p (p.base + off) 4 = .ok off := by
  simp [hostOffset, h, h4]

/-- Every legal access is a multiple of 4 below 0x80. -/
theorem hostOffset_bound {p : Params} {addr width off : Nat}
    (h : hostOffset p addr width = .ok off) : off < 0x80 ∧ off % 4 = 0 := by
  unfold hostOffset at h
  split at h
  · cases h
  · split at h
    · cases h
    · split at h
      · cases h
      · cases h
        omega

/-- Which offsets lie in BUF. -/
theorem inBuf_iff {p : Params} {off : Nat} :
    inBuf p off = true ↔ 0x40 ≤ off ∧ off < 0x40 + p.bufBytes := by
  unfold inBuf bufOffset
  rw [Bool.and_eq_true, decide_eq_true_iff, decide_eq_true_iff]

/-! ### Which request a step serves -/

/-- A request with no cycles left before it is due, but for a `wait` while a command runs. -/
theorem due_of_gap_zero {s : State} {r : HostReq} {rest : List HostInput}
    (h : s.env.host = ⟨0, r⟩ :: rest) (hr : r ≠ .wait ∨ s.x.busy = false) : s.due = true := by
  unfold State.due State.budget
  rw [h]
  cases r <;> simp_all

/-- A step with a request due serves it. -/
theorem step_due {s : State} {r : HostReq} {rest : List HostInput}
    (h : s.env.host = ⟨0, r⟩ :: rest) (hr : r ≠ .wait ∨ s.x.busy = false) :
    step s = serve r (s.withHost rest) := by
  have hd := due_of_gap_zero h hr
  unfold step advance
  rw [h]
  simp [hd, State.withHost]

/-- A host write at a legal offset: dropped while BUSY is 1, a command at CMD, else a register. -/
theorem step_write {s : State} {off : Nat} {v : Word} {rest : List HostInput}
    (h : s.env.host = ⟨0, .write (s.params.base + off) 4 v⟩ :: rest) (ho : off < 0x80)
    (h4 : off % 4 = 0) :
    step s =
      if s.x.busy then .next (s.withHost rest).dropWrite
      else if off = 0 then writeCmd v (s.withHost rest)
      else .next (writeReg off v (s.withHost rest)) := by
  rw [step_due h (by simp)]
  simp only [serve]
  rw [withHost_params, hostOffset_ok _ ho h4]
  rfl

/-- A host read at a legal offset only answers. -/
theorem step_read {s : State} {off : Nat} {rest : List HostInput}
    (h : s.env.host = ⟨0, .read (s.params.base + off) 4⟩ :: rest) (ho : off < 0x80)
    (h4 : off % 4 = 0) : step s = .next ((s.withHost rest).reply off) := by
  rw [step_due h (by simp)]
  simp only [serve]
  rw [withHost_params, hostOffset_ok _ ho h4]

/-- The three things a step can do: serve the request that is due, go on with the running command,
or wait. -/
theorem step_cases (s : State) :
    (∃ g r rest, s.env.host = ⟨g, r⟩ :: rest ∧ s.due = true ∧ step s = serve r (s.withHost rest)) ∨
    (s.due = false ∧ s.x.busy = true ∧ step s = resume s) ∨
    (s.due = false ∧ s.x.busy = false ∧ step s = .next s.idleWait) := by
  unfold step advance
  cases h : s.env.host with
  | nil =>
    have hd : s.due = false := by simp [State.due, State.budget, h]
    cases hb : s.x.busy <;> simp [hd]
  | cons r rest =>
    obtain ⟨g, r⟩ := r
    cases hd : s.due <;> cases hb : s.x.busy <;> simp [State.withHost]

end Sys2Proof.Machine
end

