-- ==== Sys2Proof/Laws/Env.lean ====
section
/-! SUPPORT. The environment's answers by position: what `Env.after` leaves of them, and what one `PinRead` takes. -/

namespace Sys2Proof.Machine

/-- Answers are counted on from where they were taken. -/
theorem answer_after (e : Env) (n : Nat) (es : List PinEvent) (k : Nat) :
    (e.after n es).answer k = e.answer (n + k) := by
  unfold Env.answer Env.after
  simp only [List.getD_eq_getElem?_getD, List.getElem?_drop, List.length_drop]
  by_cases h : n + k < e.pins.length
  · simp [h]
  · have h' : e.pins.length ≤ n + k := by omega
    simp only [List.getElem?_eq_none h', Option.getD_none]
    congr 1
    omega

theorem after_after (e : Env) (n m : Nat) (es fs : List PinEvent) :
    (e.after n es).after m fs = e.after (n + m) (es ++ fs) := by
  unfold Env.after
  simp
  omega

theorem after_zero (e : Env) : e.after 0 [] = e := by
  simp [Env.after]

/-- A `PinRead` takes answer 0. -/
theorem nextLevel_eq (s : State) : s.nextLevel = s.env.answer 0 := by
  unfold State.nextLevel Env.answer
  cases s.env.pins <;> simp

/-- The surroundings after one `PinRead`. -/
theorem after_read (e : Env) (ev : PinEvent) :
    { e.drawn with trace := e.trace ++ [ev] } = e.after 1 [ev] := by
  unfold Env.drawn Env.after
  cases h : e.pins <;> simp

/-- The surroundings after one `PinWrite`. -/
theorem after_write (e : Env) (ev : PinEvent) :
    { e with trace := e.trace ++ [ev] } = e.after 0 [ev] := by
  simp [Env.after]

end Sys2Proof.Machine
end

