-- ==== Sys2Proof/Laws/Run.lean ====
section
/-! SUPPORT. What the sequencer can do, said once: `run` with no host request to serve is the plain playing of a
command's events followed by the commit (`run_quiet`), and any run keeps what no event writes (`run_frame`). -/

namespace Sys2Proof.Machine

/-! ### Time -/

theorem budget_of_no_host {s : State} (h : s.env.host = []) : s.budget = none := by
  simp [State.budget, h]

theorem due_of_no_host {s : State} (h : s.env.host = []) : s.due = false := by
  simp [State.due, budget_of_no_host h]

@[simp] theorem elapse_host_nil {n : Nat} {s : State} (h : s.env.host = []) :
    (s.elapse n).env.host = [] := by
  simp [State.elapse, h]

theorem elapse_env_of_no_host {n : Nat} {s : State} (h : s.env.host = []) :
    (s.elapse n).env = s.env := by
  obtain ⟨p, x, hh, e⟩ := s
  obtain ⟨host, pins, draws, trace, replies⟩ := e
  simp only at h
  subst h
  rfl

theorem settleDown_of_no_host {s : State} (h : s.env.host = []) :
    s.settleDown = s.elapse s.h.settle := by
  simp [State.settleDown, budget_of_no_host h]

/-- A host request that comes after the wait does not cut it short. -/
theorem settleDown_of_later {s : State} {g : Nat} {r : HostReq} {rest : List HostInput}
    (hh : s.env.host = ⟨g, r⟩ :: rest) (hr : r ≠ .wait) (hg : s.h.settle + s.slack ≤ g) :
    s.settleDown = s.elapse (s.h.settle + s.slack) := by
  have hb : s.budget = some g := by
    unfold State.budget
    rw [hh]
    cases r <;> simp_all
  simp only [State.settleDown, hb]
  split
  · rw [show g = s.h.settle + s.slack by omega]
  · rw [Nat.min_eq_left hg]

/-- A host request with cycles left before it is not due. -/
theorem due_of_later {s : State} {g : Nat} {r : HostReq} {rest : List HostInput}
    (hh : s.env.host = ⟨g, r⟩ :: rest) (hg : 0 < g) : s.due = false := by
  unfold State.due State.budget
  rw [hh]
  have : g ≠ 0 := by omega
  cases r <;> cases s.x.busy <;> simp [this]

/-- Unless a host request is due, the settle delay is over when the wait ends. -/
theorem settle_zero_of_not_due {s : State} (h : s.settleDown.due = false) :
    s.settleDown.h.settle = 0 := by
  unfold State.settleDown at *
  cases hb : s.budget with
  | none => simp
  | some g =>
    simp only [hb] at h ⊢
    have hdue (hg : (s.elapse g).due = false) : False := by
      have : (s.elapse g).budget = some 0 := by
        unfold State.budget at hb ⊢
        simp only [State.elapse]
        split at hb <;> simp_all
      simp [State.due, this] at hg
    split at h
    · exact (hdue h).elim
    · rw [if_neg ‹_›, elapse_settle]
      omega

/-! ### One event, with time left out -/

/-- `s` with the items that only time and position determine at their reset values. -/
def State.timeless (s : State) : State :=
  { s with h := { s.h with seq := 0, settle := 0, fsm := .idle } }

/-- The effect of one backend event on everything but time and position. -/
def State.play (o : PinOp) (s : State) : State :=
  match o with
  | .wb _ _ id lvl =>
    { s with env := { s.env with trace := s.env.trace ++ [.pinWr id (levelMask s.params lvl)] } }
  | .rb _ _ id sink =>
    { s with
      h := s.h.store sink s.nextLevel
      env := { s.env.drawn with trace := s.env.trace ++ [.pinRd id s.nextLevel] } }

/-- The effects of a list of events, each issued only while the acknowledgments it needs are there. -/
def playAll : List PinOp → State → State
  | [], s => s
  | o :: rest, s => playAll rest (if o.live s.h.acks then s.play o else s)

theorem playAll_append (l m : List PinOp) (s : State) :
    playAll (l ++ m) s = playAll m (playAll l s) := by
  induction l generalizing s with
  | nil => rfl
  | cons o l ih => exact ih _

/-- What a `PinWrite` does, with time left out: one event. -/
theorem play_write (f : Fsm) (n id : Nat) (lvl : Level) (s : State) :
    s.play (.wb f n id lvl) =
      { s with env := s.env.after 0 [.pinWr id (levelMask s.params lvl)] } := by
  simp [State.play, Env.after]

/-- What a `PinRead` does, with time left out: one event, and answer 0 goes to its sink. -/
theorem play_read (f : Fsm) (n id : Nat) (sink : Sink) (s : State) :
    s.play (.rb f n id sink) =
      { s with
        h := s.h.store sink (s.env.answer 0)
        env := s.env.after 1 [.pinRd id (s.env.answer 0)] } := by
  simp only [State.play, nextLevel_eq, after_read]

/-- Events that need an acknowledgment the command did not get are not issued. -/
theorem playAll_dead {l : List PinOp} {s : State} (h : ∀ o ∈ l, o.live s.h.acks = false) :
    playAll l s = s := by
  induction l with
  | nil => rfl
  | cons o l ih =>
    simp only [playAll, h o (by simp), Bool.false_eq_true, if_false]
    exact ih fun p hp => h p (List.mem_cons_of_mem _ hp)

/-- The commit of a command whose events have been played. -/
def State.committed (c : Command) (s : State) : State :=
  { s with
    x := { s.x with
      result := c.resultOf s.h.acks
      advisory := c.deliver.advisory (c.resultOf s.h.acks) s.h.rstage
      rdata := c.deliver.rdata s.x.rdata s.h.rstage
      buf := c.deliver.buf (c.resultOf s.h.acks) s.x.buf s.h.bstage
      busy := false }
    h := { Hidden.reset with cur := s.h.cur } }

theorem timeless_perform {o : PinOp} {s : State} (h : s.env.host = []) :
    (s.perform o).timeless = s.timeless.play o := by
  cases o with
  | wb f n id lvl =>
    simp [State.perform, State.timeless, State.play, State.pinWrite, elapse_env_of_no_host h]
  | rb f n id sink =>
    cases sink <;>
      simp [State.perform, State.timeless, State.play, State.pinRead, Hidden.store,
        elapse_env_of_no_host h, State.nextLevel]

@[simp] theorem timeless_elapse {n : Nat} {s : State} (h : s.env.host = []) :
    (s.elapse n).timeless = s.timeless := by
  simp [State.timeless, elapse_env_of_no_host h]

@[simp] theorem timeless_enter (f : Fsm) (s : State) : (s.enter f).timeless = s.timeless := by
  simp [State.timeless]

theorem perform_host {o : PinOp} {s : State} (h : s.env.host = []) :
    (s.perform o).env.host = [] := by
  cases o with
  | wb f n id lvl => simp [State.perform, State.pinWrite, elapse_host_nil h]
  | rb f n id sink => simp [State.perform, State.pinRead, elapse_host_nil h]

/-- With no host request scheduled, running a command is playing its events and committing. -/
theorem run_quiet (c : Command) (ops : List PinOp) {s : State} (h : s.env.host = []) :
    run c ops s = (playAll ops s.timeless).committed c := by
  induction ops generalizing s with
  | nil =>
    have h' : s.settleDown.env.host = [] := by
      rw [settleDown_of_no_host h]
      exact elapse_host_nil h
    simp only [run, due_of_no_host h', playAll]
    simp [State.committed, State.timeless, State.finish, settleDown_of_no_host h,
      elapse_env_of_no_host h, elapse_env_of_no_host (elapse_host_nil h), Hidden.reset]
  | cons o rest ih =>
    have h' : (s.settleDown.enter o.fsm).env.host = [] := by
      rw [settleDown_of_no_host h, enter_env]
      exact elapse_host_nil h
    simp only [run, playAll]
    have hacks : s.timeless.h.acks = s.h.acks := rfl
    rw [hacks]
    split
    · rw [due_of_no_host h', if_neg (by simp), ih (perform_host h'), timeless_perform h',
        timeless_enter, settleDown_of_no_host h, timeless_elapse h]
    · exact ih h

/-- A command executed in a quiet state, its word legal: it runs to its commit. -/
theorem issue_quiet {i : Instr} {s : State} (c : Command) (hq : s.quiet)
    (hwf : i.wf s.params = true) :
    issue i c s = .next ((playAll c.ops (s.accept (encode i)).timeless).committed c) := by
  simp only [issue, hq.1, hwf]
  rw [run_quiet c c.ops (s := s.accept (encode i)) hq.2]
  rfl

/-! ### What every run keeps -/

/-- What no event and no commit writes. -/
theorem run_frame (c : Command) (ops : List PinOp) (s : State) :
    (run c ops s).params = s.params ∧ (run c ops s).x.cmd = s.x.cmd ∧
    (run c ops s).x.arg = s.x.arg ∧ (run c ops s).x.udelay = s.x.udelay ∧
    (run c ops s).x.wdrop = s.x.wdrop ∧ (run c ops s).h.cur = s.h.cur := by
  induction ops generalizing s with
  | nil =>
    simp only [run]
    split <;> simp
  | cons o rest ih =>
    simp only [run]
    split
    · split
      · simp
      · have h := ih ((s.settleDown.enter o.fsm).perform o)
        simpa using h
    · exact ih s

/-- How a run ends: it pauses with every register as it was, or it commits. -/
theorem run_cases (c : Command) (ops : List PinOp) (s : State) :
    ((run c ops s).x = s.x ∧ (run c ops s).due = true) ∨
    ∃ t : State, t.x = s.x ∧ t.h.settle = 0 ∧ t.due = false ∧
      run c ops s = t.finish c.deliver (c.resultOf t.h.acks) := by
  induction ops generalizing s with
  | nil =>
    simp only [run]
    split
    · rename_i hd
      exact .inl ⟨by simp, hd⟩
    · rename_i hd
      have hd' : s.settleDown.due = false := by simpa using hd
      exact .inr ⟨s.settleDown, by simp, settle_zero_of_not_due hd', hd', rfl⟩
  | cons o rest ih =>
    simp only [run]
    split
    · split
      · rename_i hd
        exact .inl ⟨by simp, hd⟩
      · have h := ih ((s.settleDown.enter o.fsm).perform o)
        simpa using h
    · exact ih s

/-- The three things a CMD write of a decoded word can do (10_state.md R26, R29). -/
theorem issue_cases (i : Instr) (c : Command) (s : State) :
    (s.x.busy = true ∧ issue i c s = .next s.dropWrite) ∨
    (s.x.busy = false ∧ i.wf s.params = true ∧
      issue i c s = .next (run c c.ops (s.accept (encode i)))) ∨
    (s.x.busy = false ∧ i.wf s.params = false ∧ issue i c s = .next (s.reject (encode i))) := by
  unfold issue
  cases s.x.busy <;> cases i.wf s.params <;> simp

/-- Every arm of `exec` is `issue` over the command that `commandOf` gives. -/
theorem exec_eq_issue (i : Instr) (s : State) : exec i s = issue i (commandOf i s) s := by
  cases i <;> rfl

end Sys2Proof.Machine
end

