-- ==== Sys2Proof/Laws/Alone.lean ====
section
/-! SUPPORT. A command and the host requests scheduled beside it: what a state left alone is, which events of a command
are still issued after a NACK, and that a run which commits has played its events in any schedule
(`run_commit_alone`). -/

namespace Sys2Proof.Machine

/-! ### A state left alone, and the part of it that the host sees -/

@[simp] theorem alone_params (s : State) : s.alone.params = s.params := rfl
@[simp] theorem alone_x (s : State) : s.alone.x = s.x := rfl
@[simp] theorem alone_h (s : State) : s.alone.h = s.h := rfl
@[simp] theorem alone_host (s : State) : s.alone.env.host = [] := rfl
@[simp] theorem alone_pins (s : State) : s.alone.env.pins = s.env.pins := rfl
@[simp] theorem alone_draws (s : State) : s.alone.env.draws = s.env.draws := rfl
@[simp] theorem alone_trace (s : State) : s.alone.env.trace = s.env.trace := rfl
@[simp] theorem alone_replies (s : State) : s.alone.env.replies = s.env.replies := rfl
@[simp] theorem alone_alone (s : State) : s.alone.alone = s.alone := rfl
@[simp] theorem alone_withHost (l : List HostInput) (s : State) : (s.withHost l).alone = s.alone := rfl

@[simp] theorem seenBy_params (u t : State) : (u.seenBy t).params = u.params := rfl
@[simp] theorem seenBy_h (u t : State) : (u.seenBy t).h = u.h := rfl
@[simp] theorem seenBy_wdrop (u t : State) : (u.seenBy t).x.wdrop = t.x.wdrop := rfl
@[simp] theorem seenBy_busy (u t : State) : (u.seenBy t).x.busy = u.x.busy := rfl
@[simp] theorem seenBy_replies (u t : State) : (u.seenBy t).env.replies = t.env.replies := rfl
@[simp] theorem seenBy_host (u t : State) : (u.seenBy t).env.host = u.env.host := rfl
@[simp] theorem seenBy_trace (u t : State) : (u.seenBy t).env.trace = u.env.trace := rfl

/-- The command of an instruction depends on the parameters, ARG and BUF only. -/
theorem commandOf_congr {i : Instr} {s t : State} (hp : t.params = s.params)
    (ha : t.x.arg = s.x.arg) (hb : t.x.buf = s.x.buf) : commandOf i t = commandOf i s := by
  cases i <;> simp [commandOf, hp, ha, hb]

/-! ### The schedule and the events -/

theorem alone_elapse (n : Nat) (s : State) : (s.elapse n).alone.timeless = s.alone.timeless := by
  simp [State.alone, State.timeless, State.elapse]

theorem alone_settleDown (s : State) : s.settleDown.alone.timeless = s.alone.timeless := by
  obtain ⟨n, hn⟩ := settleDown_eq_elapse s
  rw [hn, alone_elapse]

theorem alone_enter (f : Fsm) (s : State) : (s.enter f).alone.timeless = s.alone.timeless := by
  unfold State.enter
  split <;> rfl

/-- One event does the same to everything but time and position, whatever is scheduled. -/
theorem alone_perform (o : PinOp) (s : State) :
    (s.perform o).alone.timeless = s.alone.timeless.play o := by
  cases o with
  | wb f n id lvl =>
    simp [State.perform, State.pinWrite, State.alone, State.timeless, State.play, State.elapse]
  | rb f n id sink =>
    cases hp : s.env.pins <;> cases sink <;>
      simp [State.perform, State.pinRead, State.alone, State.timeless, State.play, State.elapse,
        State.nextLevel, Env.drawn, hp, Hidden.store]

/-- A run that commits has played its events, whatever the host had scheduled (20_memory.md R70). -/
theorem run_commit_alone (c : Command) (ops : List PinOp) (s : State) (hb : s.x.busy = true)
    (ht : (run c ops s).x.busy = false) :
    (run c ops s).alone = (playAll ops s.alone.timeless).committed c := by
  induction ops generalizing s with
  | nil =>
    simp only [run] at ht ⊢
    split at ht
    · simp [hb] at ht
    · rename_i hd
      have h0 := settle_zero_of_not_due (by simpa using hd)
      simp only [hd, playAll]
      rw [← alone_settleDown s]
      simp [State.alone, State.committed, State.timeless, State.finish, Hidden.reset, State.elapse,
        h0]
  | cons o ops ih =>
    simp only [run] at ht ⊢
    split at ht
    · rename_i hl
      split at ht
      · simp [hb] at ht
      · rename_i hd
        simp only [hl, hd, Bool.false_eq_true, if_false, if_true]
        rw [ih _ (by simpa using hb) ht, alone_perform, alone_enter, alone_settleDown]
        simp only [playAll]
        rw [show s.alone.timeless.h.acks = s.h.acks from rfl, if_pos hl]
    · rename_i hl
      rw [if_neg hl, ih s hb ht]
      simp only [playAll]
      rw [show s.alone.timeless.h.acks = s.h.acks from rfl, if_neg hl]

/-- A running command left alone plays the events still to come and commits. -/
theorem step_alone {i : Instr} {s : State} (hb : s.x.busy = true)
    (hd : decode s.h.cur = .ok i) :
    step s.alone =
      .next ((playAll ((commandOf i s).remaining s.h) s.alone.timeless).committed
        (commandOf i s)) := by
  have hr : step s.alone = resume s.alone := by
    unfold step advance
    simp [hb]
  simp only [hr, resume, alone_h, hd, commandOf_congr (s := s) (t := s.alone) rfl rfl rfl]
  rw [run_quiet _ _ rfl]

/-! ### Acknowledgments and the events still to come -/

/-- An event that a NACK has cut off stays cut off. -/
theorem dead_append {o : PinOp} {acks : List Bool} (b : Bool) (h : o.live acks = false) :
    o.live (acks ++ [b]) = false := by
  unfold PinOp.live at *
  simp at h ⊢
  rw [List.take_append]
  simp [h]

/-- An event adds at most one acknowledgment. -/
theorem perform_acks (o : PinOp) (s : State) :
    (s.perform o).h.acks = s.h.acks ∨ ∃ b, (s.perform o).h.acks = s.h.acks ++ [b] := by
  cases o with
  | wb f n id lvl => exact .inl (by simp [State.perform])
  | rb f n id sink => cases sink <;> simp [State.perform, State.pinRead, Hidden.store]

/-- Leaving out the events that are cut off already does not change a run. -/
theorem run_filter (c : Command) (ops : List PinOp) (s : State) (acks : List Bool)
    (ha : ∀ o : PinOp, o.live acks = false → o.live s.h.acks = false) :
    run c (ops.filter fun o => o.live acks) s = run c ops s := by
  induction ops generalizing s with
  | nil => rfl
  | cons o ops ih =>
    by_cases h : o.live acks = true
    · rw [List.filter_cons_of_pos (by simpa using h)]
      simp only [run]
      split
      · split
        · rfl
        · refine ih _ fun p hp => ?_
          have hs : p.live (s.settleDown.enter o.fsm).h.acks = false := by simpa using ha p hp
          rcases perform_acks o (s.settleDown.enter o.fsm) with h1 | ⟨b, h1⟩ <;> rw [h1]
          · exact hs
          · exact dead_append b hs
      · exact ih _ ha
    · rw [List.filter_cons_of_neg (by simpa using h), ih s ha]
      simp [run, ha o (by simpa using h)]

/-! ### The position in a command -/

/-- The events issued and the events still to come are the command's, in order. -/
theorem issued_append_remaining (c : Command) (h : Hidden) :
    c.issued h ++ c.remaining h = c.ops.filter fun o => o.live h.acks :=
  List.take_append_drop _ _

/-- In the middle of a command h.SEQ counts the events issued. -/
theorem State.Underway.issued_length {c : Command} {s : State} (h : s.Underway c) :
    (c.issued s.h).length = s.h.seq := by
  unfold Command.issued
  rw [List.length_take, Nat.min_eq_left h.seq]

/-- The samples of a list of events followed by those of another. -/
theorem replay_append {l : List PinOp} {e : List PinEvent} (hl : l.length = e.length)
    (m : List PinOp) (f : List PinEvent) (h : Hidden) :
    Hidden.replay (l ++ m) (e ++ f) h = Hidden.replay m f (Hidden.replay l e h) := by
  induction l generalizing e h with
  | nil =>
    cases e with
    | nil => rfl
    | cons a e => simp at hl
  | cons o l ih =>
    cases e with
    | nil => simp at hl
    | cons a e =>
      have hl' : l.length = e.length := by simpa using hl
      cases o <;> cases a <;> simp [Hidden.replay, ih hl']

end Sys2Proof.Machine
end

