-- ==== Sys2Proof/Laws/Encoding.lean ====
section
/-! SUPPORT. The bits of a placed field: with them the formats, the STATUS word, a word of BUF and the MDIO frame are
compared bit by bit. -/

namespace Sys2Proof

/-- Bit `i` of a placed field. -/
@[simp] theorem getLsbD_place {n : Nat} (lo : Nat) (v : BitVec n) (i : Nat) :
    (place lo v).getLsbD i = (decide (i < 32) && decide (lo ≤ i) && v.getLsbD (i - lo)) := by
  unfold place
  rw [BitVec.getLsbD_shiftLeft, BitVec.getLsbD_setWidth]
  by_cases h : i < 32
  · by_cases h' : lo ≤ i
    · simp [h, h', show i - lo < 32 by omega, show ¬i < lo by omega]
    · simp [h, h', show i < lo by omega]
  · simp [h]

@[simp] theorem getElem_place {n : Nat} (lo : Nat) (v : BitVec n) (i : Nat) (h : i < 32) :
    (place lo v)[i] = (decide (lo ≤ i) && v.getLsbD (i - lo)) := by
  rw [← BitVec.getLsbD_eq_getElem, getLsbD_place]
  simp [h]

/-- A masked word equals a pattern when they agree bit by bit. -/
theorem masked_eq_iff {w mask v : Word} :
    w &&& mask = v ↔ ∀ i < 32, (w.getLsbD i && mask.getLsbD i) = v.getLsbD i := by
  constructor
  · rintro rfl i _
    simp
  · intro h
    refine BitVec.eq_of_getLsbD_eq fun i hi => ?_
    simpa using h i hi

end Sys2Proof
end

