-- ==== Sys2Proof/Laws/Memory.lean ====
section
/-! SUPPORT. The laws of byte storage: a read after a write, the canonical form, and the bounds of its indices. -/

namespace Sys2Proof.Machine

@[simp] theorem Memory.read_nil (a : Nat) : Memory.read [] a = 0#8 := rfl

theorem Memory.read_entry (k : Nat) (v : Byte) (m : Memory) (a : Nat) :
    Memory.read ((k, v) :: m) a = if k = a then v else m.read a := rfl

theorem Memory.read_of_unlisted {m : Memory} {a : Nat} (h : ∀ c ∈ m, c.1 ≠ a) :
    m.read a = 0#8 := by
  induction m with
  | nil => rfl
  | cons c m ih =>
    obtain ⟨k, v⟩ := c
    rw [Memory.read_entry, if_neg (h (k, v) (by simp))]
    exact ih fun d hd => h d (List.mem_cons_of_mem _ hd)

theorem Memory.mem_cons {c : Host.Cell} {a : Nat} {v : Byte} {m : Memory} :
    c ∈ Memory.cons a v m → c = (a, v) ∨ c ∈ m := by
  unfold Memory.cons
  split
  · exact .inr
  · simp

/-- Where the entries of a written memory come from. -/
theorem Memory.mem_write {m : Memory} {a : Nat} {v : Byte} {c : Host.Cell} :
    c ∈ m.write a v → c = (a, v) ∨ c ∈ m := by
  induction m with
  | nil => exact Memory.mem_cons
  | cons d m ih =>
    obtain ⟨k, x⟩ := d
    unfold Memory.write
    intro h
    split at h
    · exact Memory.mem_cons h
    · split at h
      · exact (Memory.mem_cons h).imp id (List.mem_cons_of_mem _)
      · rcases List.mem_cons.1 h with h | h
        · exact .inr (by simp [h])
        · exact (ih h).imp id (List.mem_cons_of_mem _)

theorem Memory.wf_tail {c : Host.Cell} {m : Memory} (h : Memory.wf (c :: m)) : Memory.wf m :=
  ⟨(List.pairwise_cons.1 h.1).2, fun d hd => h.2 d (List.mem_cons_of_mem _ hd)⟩

theorem Memory.wf_head {c : Host.Cell} {m : Memory} (h : Memory.wf (c :: m)) :
    ∀ d ∈ m, c.1 < d.1 :=
  (List.pairwise_cons.1 h.1).1

theorem Memory.cons_wf {a : Nat} {v : Byte} {m : Memory} (h : m.wf) (ha : ∀ d ∈ m, a < d.1) :
    (Memory.cons a v m).wf := by
  unfold Memory.cons
  split
  · exact h
  · rename_i hv
    refine ⟨List.pairwise_cons.2 ⟨ha, h.1⟩, fun c hc => ?_⟩
    rcases List.mem_cons.1 hc with rfl | hc
    · exact hv
    · exact h.2 c hc

/-- A write keeps the canonical form. -/
theorem Memory.write_wf {m : Memory} (h : m.wf) (a : Nat) (v : Byte) : (m.write a v).wf := by
  induction m with
  | nil => exact Memory.cons_wf h (by simp)
  | cons c m ih =>
    obtain ⟨k, x⟩ := c
    have hk := Memory.wf_head h
    have ht := Memory.wf_tail h
    unfold Memory.write
    split
    · rename_i hlt
      refine Memory.cons_wf h fun d hd => ?_
      rcases List.mem_cons.1 hd with rfl | hd
      · exact hlt
      · exact Nat.lt_trans hlt (hk d hd)
    · split
      · rename_i heq
        subst heq
        exact Memory.cons_wf ht hk
      · refine ⟨List.pairwise_cons.2 ⟨fun d hd => ?_, (ih ht).1⟩, fun d hd => ?_⟩
        · rcases Memory.mem_write hd with rfl | hd
          · show k < a
            omega
          · exact hk d hd
        · rcases List.mem_cons.1 hd with rfl | hd
          · exact h.2 _ (by simp)
          · exact (ih ht).2 d hd

theorem Memory.read_cons {m : Memory} {a : Nat} (v : Byte) (ha : ∀ d ∈ m, a < d.1) (b : Nat) :
    (Memory.cons a v m).read b = if b = a then v else m.read b := by
  unfold Memory.cons
  split
  · rename_i hv
    split
    · rename_i hb
      subst hb
      rw [Memory.read_of_unlisted fun c hc => Nat.ne_of_gt (ha c hc), hv]
      rfl
    · rfl
  · rw [Memory.read_entry]
    simp only [eq_comm]

/-- A read after a write: the written index gives the value, every other index what it gave. -/
theorem Memory.read_write {m : Memory} (h : m.wf) (a : Nat) (v : Byte) (b : Nat) :
    (m.write a v).read b = if b = a then v else m.read b := by
  induction m with
  | nil => exact Memory.read_cons v (by simp) b
  | cons c m ih =>
    obtain ⟨k, x⟩ := c
    have hk := Memory.wf_head h
    have ht := Memory.wf_tail h
    unfold Memory.write
    split
    · rename_i hlt
      refine Memory.read_cons v (fun d hd => ?_) b
      rcases List.mem_cons.1 hd with rfl | hd
      · exact hlt
      · exact Nat.lt_trans hlt (hk d hd)
    · split
      · rename_i heq
        subst heq
        rw [Memory.read_cons v hk b, Memory.read_entry]
        split
        · rfl
        · rw [if_neg (by omega)]
      · rename_i hne
        rw [Memory.read_entry, Memory.read_entry, ih ht]
        by_cases hb : b = a
        · subst hb
          simp [show ¬k = b by omega]
        · simp [hb]

/-- Copying keeps the canonical form. -/
theorem Memory.copy_wf {dst : Memory} (h : dst.wf) (n : Nat) (src : Memory) :
    (Memory.copy n src dst).wf := by
  unfold Memory.copy
  generalize List.range n = l
  induction l generalizing dst with
  | nil => exact h
  | cons k l ih => exact ih (Memory.write_wf h k _)

theorem Memory.copy_succ (n : Nat) (src dst : Memory) :
    Memory.copy (n + 1) src dst = (Memory.copy n src dst).write n (src.read n) := by
  simp [Memory.copy, List.range_succ]

/-- What copying leaves: the first `n` bytes are the source's, the others are unchanged. -/
theorem Memory.read_copy {dst : Memory} (h : dst.wf) (n : Nat) (src : Memory) (b : Nat) :
    (Memory.copy n src dst).read b = if b < n then src.read b else dst.read b := by
  induction n with
  | zero => simp [Memory.copy]
  | succ n ih =>
    rw [Memory.copy_succ, Memory.read_write (Memory.copy_wf h n src), ih]
    by_cases hb : b = n
    · subst hb
      simp
    · have : (b < n + 1) = (b < n) := by simp; omega
      simp [this, hb]

theorem Memory.writeWord_wf {m : Memory} (h : m.wf) (k : Nat) (v : Word) : (m.writeWord k v).wf :=
  Memory.write_wf (Memory.write_wf (Memory.write_wf (Memory.write_wf h _ _) _ _) _ _) _ _

/-- A word store writes its four bytes, little-endian, and no other. -/
theorem Memory.read_writeWord {m : Memory} (h : m.wf) (k : Nat) (v : Word) (b : Nat) :
    (m.writeWord k v).read b =
      if k ≤ b ∧ b < k + 4 then v.extractLsb' (8 * (b - k)) 8 else m.read b := by
  have h1 := Memory.write_wf h k (v.extractLsb' 0 8)
  have h2 := Memory.write_wf h1 (k + 1) (v.extractLsb' 8 8)
  have h3 := Memory.write_wf h2 (k + 2) (v.extractLsb' 16 8)
  unfold Memory.writeWord
  rw [Memory.read_write h3, Memory.read_write h2, Memory.read_write h1, Memory.read_write h]
  by_cases hb : k ≤ b ∧ b < k + 4
  · obtain ⟨d, rfl⟩ : ∃ d, b = k + d := ⟨b - k, by omega⟩
    have hd : d < 4 := by omega
    rw [if_pos hb]
    interval_cases d <;> simp
  · rw [if_neg hb, if_neg (by omega), if_neg (by omega), if_neg (by omega), if_neg (by omega)]

/-- The indices of a memory stay below a bound that the written index is below. -/
theorem Memory.write_below {m : Memory} {n a : Nat} (h : ∀ c ∈ m, c.1 < n) (ha : a < n) (v : Byte) :
    ∀ c ∈ m.write a v, c.1 < n := fun c hc => by
  rcases Memory.mem_write hc with rfl | hc
  · exact ha
  · exact h c hc

theorem Memory.copy_below {dst : Memory} {n k : Nat} (h : ∀ c ∈ dst, c.1 < n) (hk : k ≤ n)
    (src : Memory) : ∀ c ∈ Memory.copy k src dst, c.1 < n := by
  induction k with
  | zero => exact h
  | succ k ih =>
    rw [Memory.copy_succ]
    exact Memory.write_below (ih (by omega)) (by omega) _

theorem Memory.writeWord_below {m : Memory} {n k : Nat} (h : ∀ c ∈ m, c.1 < n) (hk : k + 3 < n)
    (v : Word) : ∀ c ∈ m.writeWord k v, c.1 < n :=
  Memory.write_below (Memory.write_below (Memory.write_below (Memory.write_below h
    (by omega) _) (by omega) _) (by omega) _) (by omega) _

/-- Reset's memories are in canonical form. -/
theorem reset_memory_wf : State.reset.x.buf.wf ∧ State.reset.h.bstage.wf := by
  decide

end Sys2Proof.Machine
end

