-- ==== Sys2Proof/Laws/Operands.lean ====
section
/-! SUPPORT. What the operand functions compute, said once: a stored bit, the wire order of a field, the I2C address
byte in numbers, the level masks as the trace shows them. -/

namespace Sys2Proof.Machine

/-- A stored bit: the written position holds the bit, every other what it held. -/
theorem getLsbD_setBit {n : Nat} (v : BitVec n) (j : Nat) (b : Bool) {i : Nat} (hi : i < n) :
    (setBit v j b).getLsbD i = if i = j then b else v.getLsbD i := by
  have e : (1#n <<< j).getLsbD i = decide (i = j) := by
    rw [BitVec.getLsbD_shiftLeft, BitVec.getLsbD_one]
    by_cases h : i = j
    · subst h
      simp [hi]
      omega
    · simp only [hi, h, decide_true, decide_false, Bool.true_and, Bool.and_eq_false_imp]
      intro h1
      have : j ≤ i := by simpa using h1
      simp
      omega
  cases b
  · simp only [setBit, Bool.false_eq_true, if_false]
    rw [BitVec.getLsbD_and, BitVec.getLsbD_not, e]
    by_cases h : i = j <;> simp [h, hi]
  · simp only [setBit, if_true]
    rw [BitVec.getLsbD_or, e]
    by_cases h : i = j <;> simp [h, hi]

/-- Wire order: position `n - 1` first. -/
theorem msbFirst_eq {n : Nat} (v : BitVec n) :
    msbFirst v = (List.range n).map fun k => v.getLsbD (n - 1 - k) := by
  apply List.ext_getElem
  · simp [msbFirst]
  · intro i h1 h2
    simp [msbFirst]

/-- The trace of a field is the trace of its bits in wire order. -/
theorem trField_eq (p : Params) (clock data : Nat) {n : Nat} (v : BitVec n) :
    trField p clock data v = (msbFirst v).flatMap (trBit p clock data) := by
  rw [msbFirst_eq, List.flatMap_map]
  rfl

/-- The address byte of a write is `2 * DEV` (30_encoding.md R86). -/
theorem addressByte_write : ∀ dev : BitVec 7,
    addressByte dev 0#1 = BitVec.ofNat 8 (dev.toNat * 2) := by
  decide

/-- The address byte of a read is `2 * DEV + 1` (30_encoding.md R86). -/
theorem addressByte_read : ∀ dev : BitVec 7,
    addressByte dev 1#1 = BitVec.ofNat 8 (dev.toNat * 2 + 1) := by
  decide

/-- A `PinWrite` of a bit, as the trace shows it. -/
theorem pinWr_ofBit (p : Params) (id : Nat) (b : Bool) :
    PinEvent.pinWr id (levelMask p (.ofBit b)) = evW p id b := by
  cases b <;> rfl

theorem pinWr_rel (p : Params) (id : Nat) :
    PinEvent.pinWr id (levelMask p .rel) = evW p id true := rfl

theorem pinWr_a0 (p : Params) (id : Nat) :
    PinEvent.pinWr id (levelMask p .a0) = evW p id false := rfl

end Sys2Proof.Machine
end

