-- ==== Sys2Proof/Laws/PerInstr.lean ====
section
/-! SUPPORT. Statements about every command, one lemma per constructor. `Pattern`: the encoder's word matches the row of
30_encoding.md R89 of the command. -/

namespace Sys2Proof.Laws.Pattern

/-- The match value of the command's row (30_encoding.md R89). -/
def rowMatch : Instr → Word
  | .writeBit _ _ => 0x00000001#32
  | .readBit _ => 0x00000002#32
  | .writeBits _ _ => 0x00000003#32
  | .readBits _ _ => 0x00000004#32
  | .i2cWrite _ _ _ => 0x00000005#32
  | .i2cRead _ _ _ => 0x00000006#32
  | .mdioRead _ _ => 0x00000007#32
  | .mdioWrite _ _ => 0x00000008#32

/-- The mask of the command's row (30_encoding.md R89). -/
def rowMask : Instr → Word
  | .writeBit _ _ => 0xFFFE00FF#32
  | .readBit _ => 0xFFFF00FF#32
  | .writeBits _ _ => 0xFFC000FF#32
  | .readBits _ _ => 0xFFC000FF#32
  | .i2cWrite _ _ _ => 0x000080FF#32
  | .i2cRead _ _ _ => 0x000080FF#32
  | .mdioRead _ _ => 0xFFE0E0FF#32
  | .mdioWrite _ _ => 0xFFE0E0FF#32

/-- The command's word selects the command's row: its opcode, and 0 in every reserved bit. -/
def Statement (i : Instr) : Prop :=
  encode i &&& rowMask i = rowMatch i

theorem writeBit (id : BitVec 8) (lvl : Level) : Statement (.writeBit id lvl) := by
  unfold Statement
  rw [masked_eq_iff]
  intro i hi
  interval_cases i <;> simp [encode, formatB1, rowMask, rowMatch]

theorem readBit (id : BitVec 8) : Statement (.readBit id) := by
  unfold Statement
  rw [masked_eq_iff]
  intro i hi
  interval_cases i <;> simp [encode, formatB1, rowMask, rowMatch]

theorem writeBits (id : BitVec 8) (count : BitVec 6) : Statement (.writeBits id count) := by
  unfold Statement
  rw [masked_eq_iff]
  intro i hi
  interval_cases i <;> simp [encode, formatBM, rowMask, rowMatch]

theorem readBits (id : BitVec 8) (count : BitVec 6) : Statement (.readBits id count) := by
  unfold Statement
  rw [masked_eq_iff]
  intro i hi
  interval_cases i <;> simp [encode, formatBM, rowMask, rowMatch]

theorem i2cWrite (dev : BitVec 7) (reg len : BitVec 8) : Statement (.i2cWrite dev reg len) := by
  unfold Statement
  rw [masked_eq_iff]
  intro i hi
  interval_cases i <;> simp [encode, formatI2, rowMask, rowMatch]

theorem i2cRead (dev : BitVec 7) (reg len : BitVec 8) : Statement (.i2cRead dev reg len) := by
  unfold Statement
  rw [masked_eq_iff]
  intro i hi
  interval_cases i <;> simp [encode, formatI2, rowMask, rowMatch]

theorem mdioRead (phy reg : BitVec 5) : Statement (.mdioRead phy reg) := by
  unfold Statement
  rw [masked_eq_iff]
  intro i hi
  interval_cases i <;> simp [encode, formatMD, rowMask, rowMatch]

theorem mdioWrite (phy reg : BitVec 5) : Statement (.mdioWrite phy reg) := by
  unfold Statement
  rw [masked_eq_iff]
  intro i hi
  interval_cases i <;> simp [encode, formatMD, rowMask, rowMatch]

end Sys2Proof.Laws.Pattern
end

