-- ==== Sys2Proof/Tests/Slice0.lean ====
section
/-! SUPPORT. Tests on small states: words written out from the encoding tables, one ill-formed term for each check, at
most two steps per command with the expected values of spec/95_test_vectors.md, and for every statement with
hypotheses a state and operands that meet them. -/

namespace Sys2Proof.Tests

open Sys2Proof.Machine

/-! ### Small states -/

/-- The next state, if there is one. -/
def after : Host.Outcome State Fault Refusal → Option State
  | .next t => some t
  | _ => none

/-- Reset, with the environment's answers `pins` and the host's requests `host`. -/
def idle (pins : List Bool) (host : List HostInput) : State :=
  { State.reset with env := { Env.empty with pins := pins, host := host } }

/-- `idle` with ARG, RDATA and BUF. -/
def loaded (arg rdata : Word) (buf : Memory) (pins : List Bool) : State :=
  { idle pins [] with x := { Regs.reset Params.default with arg := arg, rdata := rdata, buf := buf } }

/-- A block that has accepted the word `w` and not yet issued its first event, in framer state `f`. -/
def accepted (w : Word) (f : Fsm) (pins : List Bool) (host : List HostInput) : State :=
  { idle pins host with
    x := { Regs.reset Params.default with cmd := w, busy := true }
    h := { Hidden.reset with cur := w, fsm := f } }

/-- A block that runs `READ_BIT 1`, accepted and not yet started. -/
def running (host : List HostInput) : State :=
  accepted 0x00000102#32 .idle [true] host

/-- A host write to CMD, due now. -/
def cmdWrite (w : Word) : HostInput := ⟨0, .write 0 4 w⟩

/-- `W(id,l)` with the default parameters (00_scope.md R16). -/
def W (id : Nat) (l : Bool) : PinEvent := evW Params.default id l

/-- The data levels at the clock releases of a trace: the bits on the wire. -/
def bitsOut (clock data : Nat) : List PinEvent → List Bool
  | .pinWr d m :: .pinWr c k :: rest =>
    if d = data ∧ c = clock ∧ k ≠ 0 then decide (m ≠ 0) :: bitsOut clock data rest
    else bitsOut clock data (.pinWr c k :: rest)
  | _ :: rest => bitsOut clock data rest
  | [] => []

/-! ### Decoding: words written out bit by bit from 30_encoding.md R81 to R89 -/

/-- R89 row WRITE_BIT, `000000000000000Liiiiiiii00000001`, L = 1, BIT_ID = 0x81. -/
theorem test_decode_write_bit :
    decode 0b00000000000000011000000100000001#32 = .ok (.writeBit 0x81#8 .rel) := by decide

theorem test_decode_write_bit_low :
    decode 0b00000000000000000000010100000001#32 = .ok (.writeBit 5#8 .a0) := by decide

/-- R89 row READ_BIT, BIT_ID = 0x81. -/
theorem test_decode_read_bit :
    decode 0b00000000000000001000000100000010#32 = .ok (.readBit 0x81#8) := by decide

/-- R89 row WRITE_BITS, COUNT = 0b100001, BIT_ID = 2. -/
theorem test_decode_write_bits :
    decode 0b00000000001000010000001000000011#32 = .ok (.writeBits 2#8 33#6) := by decide

/-- R89 row READ_BITS, COUNT = 0b000111, BIT_ID = 0x40. -/
theorem test_decode_read_bits :
    decode 0b00000000000001110100000000000100#32 = .ok (.readBits 0x40#8 7#6) := by decide

/-- R89 row I2C_WRITE, LEN = 0x81, REG = 0x12, DEV = 0x43. -/
theorem test_decode_i2c_write :
    decode 0b10000001000100100100001100000101#32 = .ok (.i2cWrite 0x43#7 0x12#8 0x81#8) := by
  decide

/-- R89 row I2C_READ, LEN = 0x01, REG = 0x80, DEV = 0x61. -/
theorem test_decode_i2c_read :
    decode 0b00000001100000000110000100000110#32 = .ok (.i2cRead 0x61#7 0x80#8 0x01#8) := by
  decide

/-- R89 row MDIO_READ, REG = 0b10010, PHY = 0b00101. -/
theorem test_decode_mdio_read :
    decode 0b00000000000100100000010100000111#32 = .ok (.mdioRead 5#5 18#5) := by decide

/-- R89 row MDIO_WRITE, REG = 0b00011, PHY = 0b11000. -/
theorem test_decode_mdio_write :
    decode 0b00000000000000110001100000001000#32 = .ok (.mdioWrite 24#5 3#5) := by decide

/-- R92 checks 1 and 2: DEC-1 to DEC-5 and DEC-17 to DEC-19 of 95_test_vectors.md. -/
theorem test_decode_refuses :
    decode 0x00000000#32 = .error .reservedOpcode ∧ decode 0x00000009#32 = .error .reservedOpcode ∧
    decode 0x0000000F#32 = .error .reservedOpcode ∧ decode 0x00000011#32 = .error .reservedBits ∧
    decode 0x00020001#32 = .error .reservedBits ∧ decode 0x00010102#32 = .error .reservedBits ∧
    decode 0x00400003#32 = .error .reservedBits ∧ decode 0x00008005#32 = .error .reservedBits ∧
    decode 0x00002007#32 = .error .reservedBits ∧ decode 0x00200007#32 = .error .reservedBits := by
  decide

/-- The host's view of the decoder: the table's numbering is the word's. -/
theorem test_decodeTableWord :
    decodeTableWord 32 0x00020107 = some (.mdioRead 1#5 2#5) ∧ decodeTableWord 32 0 = none := by
  decide

/-! ### One ill-formed term for each check of R92 -/

/-- Check 3, format B1: `BIT_ID = NUM_BITS` (DEC-6), and the largest id (DEC-7). -/
theorem test_wf_bit_id :
    (Instr.writeBit 8#8 .a0).wf Params.default = false ∧
    (Instr.readBit 8#8).wf Params.default = false ∧
    (Instr.writeBit 7#8 .a0).wf Params.default = true := by decide

/-- Check 4, `COUNT > 32` (DEC-8), with ids enough for it. -/
theorem test_wf_count :
    (Instr.writeBits 0#8 33#6).wf { Params.default with numBits := 64 } = false ∧
    (Instr.readBits 0#8 33#6).wf { Params.default with numBits := 64 } = false ∧
    (Instr.writeBits 0#8 32#6).wf { Params.default with numBits := 64 } = true := by decide

/-- Check 4, `BIT_ID >= NUM_BITS` even with COUNT 0 (DEC-13, DEC-14). -/
theorem test_wf_range_base :
    (Instr.writeBits 8#8 0#6).wf Params.default = false ∧
    (Instr.readBits 8#8 0#6).wf Params.default = false ∧
    (Instr.writeBits 7#8 0#6).wf Params.default = true := by decide

/-- Check 4, `BIT_ID + COUNT > NUM_BITS` (DEC-9, DEC-11, DEC-12). -/
theorem test_wf_range_end :
    (Instr.writeBits 0#8 32#6).wf Params.default = false ∧
    (Instr.readBits 7#8 2#6).wf Params.default = false ∧
    (Instr.writeBits 7#8 1#6).wf Params.default = true := by decide

/-- Check 5, `LEN > BUF_BYTES` (DEC-15, DEC-16). -/
theorem test_wf_length :
    (Instr.i2cWrite 0#7 0#8 17#8).wf Params.default = false ∧
    (Instr.i2cRead 0#7 0#8 17#8).wf Params.default = false ∧
    (Instr.i2cWrite 0#7 0#8 16#8).wf Params.default = true := by decide

/-- The canonical form of memory: an entry out of order and an entry of the unlisted value are refused. -/
theorem test_memory_wf :
    Memory.wf [(1, 5#8), (3, 6#8)] ∧ ¬ Memory.wf [(3, 5#8), (1, 6#8)] ∧ ¬ Memory.wf [(1, 0#8)] := by
  decide

/-- The default parameters are in the ranges of 00_scope.md R9. -/
theorem test_params_wf : Params.default.wf := by decide

/-! ### Operands -/

/-- The address bytes of the I2C vectors, and the frame words of MD-5 and MD-8. -/
theorem test_operand_words :
    addressByte 0x50#7 0#1 = 0xA0#8 ∧ addressByte 0x50#7 1#1 = 0xA1#8 ∧
    mdioFrame mdioOpWrite 1#5 0#5 mdioTurnaround 0x1234#16 = 0x50821234#32 ∧
    mdioFrame mdioOpWrite 31#5 31#5 mdioTurnaround 0xFFFF#16 = 0x5FFEFFFF#32 := by decide

/-! ### The commands, with the vectors of 95_test_vectors.md sections 1 and 3 to 5 -/

/-- CORE-1: `W(0,1)`, STATUS 0. -/
theorem test_write_bit :
    (after (exec (.writeBit 0#8 .rel) (idle [] []))).map (fun t => (t.env.trace, readReg t 4)) =
      some ([W 0 true], 0#32) := by decide

/-- CORE-2: `W(0,0)`. -/
theorem test_write_bit_low :
    (after (exec (.writeBit 0#8 .a0) (idle [] []))).map (fun t => t.env.trace) =
      some [W 0 false] := by decide

/-- CORE-5: RDATA is 1, its upper bits cleared. -/
theorem test_read_bit :
    (after (exec (.readBit 4#8) (loaded 0#32 0xFFFFFFFF#32 [] [true]))).map
      (fun t => (t.env.trace, t.x.rdata)) = some ([evR 4 true], 1#32) := by decide

/-- CORE-6. -/
theorem test_write_bits :
    (after (exec (.writeBits 0#8 8#6) (loaded 0xA5#32 0#32 [] []))).map (fun t => t.env.trace) =
      some [W 0 true, W 1 false, W 2 true, W 3 false, W 4 false, W 5 true, W 6 false, W 7 true] := by
  decide

/-- CORE-8. -/
theorem test_read_bits :
    (after (exec (.readBits 0#8 4#6) (idle [true, true, false, true] []))).map
      (fun t => t.x.rdata) = some 0x0000000B#32 := by decide

/-- CORE-9: COUNT 0 issues no event and sets RDATA to 0. -/
theorem test_read_bits_none :
    (after (exec (.readBits 3#8 0#6) (loaded 0#32 0x12345678#32 [] []))).map
      (fun t => (t.env.trace, t.x.rdata)) = some ([], 0#32) := by decide

/-- L1-4 (I2C-2): the address byte is not acknowledged; the trace is the vector's expansion. -/
theorem test_i2c_write_no_device :
    (after (exec (.i2cWrite 0x50#7 0#8 2#8) (loaded 0#32 0#32 [(0, 0x10#8), (1, 0x20#8)] [true]))).map
      (fun t => (t.env.trace, readReg t 4)) =
    some ([W 1 false, W 0 false, W 1 true, W 0 true, W 0 false, W 1 false, W 0 true, W 0 false,
      W 1 true, W 0 true, W 0 false, W 1 false, W 0 true, W 0 false, W 1 false, W 0 true, W 0 false,
      W 1 false, W 0 true, W 0 false, W 1 false, W 0 true, W 0 false, W 1 false, W 0 true, W 0 false,
      W 1 true, W 0 true, evR 1 true, W 0 false, W 1 false, W 0 true, W 1 true], 2#32) := by
  decide +kernel

/-- I2C-5: the first data byte is not acknowledged, and the second is never sent. -/
theorem test_i2c_write_nack :
    (after (exec (.i2cWrite 0x50#7 0#8 2#8)
      (loaded 0#32 0#32 [(0, 0x10#8), (1, 0x20#8)] [false, false, true]))).map
      (fun t => (writeCount t.env.trace, readCount t.env.trace, readReg t 4)) =
    some (86, 3, 4#32) := by decide +kernel

/-- I2C-8: two bytes received into BUF. -/
theorem test_i2c_read :
    (after (exec (.i2cRead 0x50#7 0x10#8 2#8) (idle [false, false, false,
      false, false, false, true, false, false, true, false,
      false, false, true, true, false, true, false, false] []))).map
      (fun t => (writeCount t.env.trace, readCount t.env.trace, t.x.buf, readReg t 4)) =
    some (130, 19, [(0, 0x12#8), (1, 0x34#8)], 0#32) := by decide +kernel

/-- I2C-11: the register byte is not acknowledged; BUF is unchanged. -/
theorem test_i2c_read_nack :
    (after (exec (.i2cRead 0x50#7 0x10#8 2#8) (loaded 0#32 0#32 [(0, 7#8)] [false, true]))).map
      (fun t => (writeCount t.env.trace, readCount t.env.trace, t.x.buf, readReg t 4)) =
    some (59, 2, [(0, 7#8)], 4#32) := by decide +kernel

/-- MD-1: RDATA 0xABCD, ADVISORY 0, and the bits at the clock releases before sampling. -/
theorem test_mdio_read :
    (after (exec (.mdioRead 1#5 2#5) (idle [true, false, true, false, true, false, true, true,
      true, true, false, false, true, true, false, true] []))).map
      (fun t => (t.x.rdata, readReg t 4, bitsOut 0 1 t.env.trace)) =
    some (0x0000ABCD#32, 0#32, [false, true, true, false, false, false, false, false, true,
      false, false, false, true, false, true, true]) := by decide +kernel

/-- MD-2: sixteen samples of 1 give RDATA 0xFFFF and ADVISORY. -/
theorem test_mdio_read_all_ones :
    (after (exec (.mdioRead 31#5 31#5) (idle (List.replicate 16 true) []))).map
      (fun t => (t.x.rdata, readReg t 4)) = some (0x0000FFFF#32, 8#32) := by decide +kernel

/-- MD-5: the 32 bits `01010000100000100001001000110100`. -/
theorem test_mdio_write :
    (after (exec (.mdioWrite 1#5 0#5) (loaded 0x1234#32 0#32 [] []))).map
      (fun t => bitsOut 0 1 t.env.trace) =
    some [false, true, false, true, false, false, false, false, true, false, false, false, false,
      false, true, false, false, false, false, true, false, false, true, false, false, false, true,
      true, false, true, false, false] := by decide +kernel

/-! ### The host port, with the vectors of section 2 -/

/-- DEC-6 and DEC-21: rejected with RESULT 3, the word in CMD, no event. -/
theorem test_reject :
    (after (step (idle [] [cmdWrite 0x00000801#32]))).map
      (fun t => (readReg t 4, readReg t 0, t.env.trace)) = some (6#32, 0x00000801#32, []) := by
  decide

/-- REG-7: BUF is little-endian. -/
theorem test_buf_write :
    (after (step (idle [] [⟨0, .write 0x44 4 0xDDCCBBAA#32⟩]))).map
      (fun t => (t.x.buf.read 4, t.x.buf.read 7, readReg t 0x44)) =
    some (0xAA#8, 0xDD#8, 0xDDCCBBAA#32) := by decide

/-- REG-9: a CMD write while a command runs is dropped. -/
theorem test_busy_write :
    (after (step (running [cmdWrite 0x00010001#32]))).map
      (fun t => (t.x.cmd, t.x.busy, t.x.wdrop)) = some (0x00000102#32, true, true) := by decide

/-- `WRITE_BIT 3, REL` (L1-1) runs as the first command after reset. -/
theorem test_withFetchWord :
    (after (step (State.reset.withFetchWord 32 0x00010301))).map (fun t => t.env.trace) =
      some [W 3 true] := by decide

/-- The word of a line, and an operand that does not fit (30_encoding.md R90, R93). -/
theorem test_assemble :
    assemble (.i2cWrite 0x50 0 2) = some 0x02005005#32 ∧ assemble (.release 1) = some 0x00010101#32 ∧
    assemble (.mdioRead 32 0) = none := by decide

/-- Boot step 3 for an I2C bus (70_reset_and_hazards.md R234): SDA released, then SCL. -/
theorem test_boot :
    (hostProgram Params.default (bootI2c Params.default)).map (fun l => l.map (·.req)) =
      some [.write 0 4 0x00010101#32, .wait, .write 0 4 0x00010001#32, .wait] := by decide

/-! ### States and operands that meet the hypotheses of each statement

Each is named after the statement; where a statement has several clauses there is one for each, at the ends of its
range. -/

theorem witness_EncodeOfDecode : decode 0x001F1F08#32 = .ok (.mdioWrite 31#5 31#5) := by decide

theorem witness_StepRunsDecodedCommand :
    (idle [] [cmdWrite 0x00010301#32]).env.host =
      ⟨0, .write (idle [] []).params.base 4 0x00010301#32⟩ :: [] ∧
    (idle [] [cmdWrite 0x00010301#32]).x.busy = false ∧
    decode 0x00010301#32 = .ok (.writeBit 3#8 .rel) := by decide

theorem witness_FetchWordRunsNext :
    State.reset.x.busy = false ∧ decode 0x00010301#32 = .ok (.writeBit 3#8 .rel) := by decide

/-- Checks 1 and 2 of R92: the opcodes at both ends of the reserved range, and each reserved field. -/
theorem witness_IllegalWordRejected_decode :
    (idle [] [cmdWrite 0#32]).x.busy = false ∧ illegalWord Params.default 0x00000000#32 = true ∧
    illegalWord Params.default 0x00000009#32 = true ∧ illegalWord Params.default 0x000000FF#32 = true ∧
    illegalWord Params.default 0x00020001#32 = true ∧ illegalWord Params.default 0x00010102#32 = true ∧
    illegalWord Params.default 0x00400003#32 = true ∧ illegalWord Params.default 0x00400004#32 = true ∧
    illegalWord Params.default 0x00008005#32 = true ∧ illegalWord Params.default 0x00008006#32 = true ∧
    illegalWord Params.default 0x00002007#32 = true ∧
    illegalWord Params.default 0x00200008#32 = true := by
  refine ⟨rfl, ?_, ?_, ?_, ?_, ?_, ?_, ?_, ?_, ?_, ?_, ?_⟩ <;> rfl

/-- Checks 3 to 5 of R92 at their boundaries. -/
theorem witness_IllegalWordRejected_operands :
    illegalWord Params.default 0x00000801#32 = true ∧ illegalWord Params.default 0x00000802#32 = true ∧
    illegalWord Params.default 0x00000803#32 = true ∧ illegalWord Params.default 0x00020704#32 = true ∧
    illegalWord Params.default 0x11000005#32 = true ∧ illegalWord Params.default 0x11000006#32 = true ∧
    illegalWord { Params.default with numBits := 64 } 0x00210003#32 = true := by
  refine ⟨?_, ?_, ?_, ?_, ?_, ?_, ?_⟩ <;> rfl

/-- A legal word at each boundary: id 7, COUNT 8 from id 0, COUNT 0 at id 7, LEN 16. -/
theorem witness_LegalWordAccepted :
    (idle [] [cmdWrite 0x00000701#32]).x.busy = false ∧
    illegalWord Params.default 0x00000701#32 = false ∧ illegalWord Params.default 0x00080003#32 = false ∧
    illegalWord Params.default 0x00000704#32 = false ∧ illegalWord Params.default 0x10000005#32 = false ∧
    illegalWord Params.default 0x001F1F07#32 = false := by
  refine ⟨rfl, ?_, ?_, ?_, ?_, ?_⟩ <;> rfl

/-- Both ways an accepted command can stand after the step: paused and committed. -/
theorem witness_LegalWordAccepted_ends :
    (after (step (idle [] [cmdWrite 0x00010301#32, ⟨0, .read 4 4⟩]))).map (·.x.busy) = some true ∧
    (after (step (idle [] [cmdWrite 0x00010301#32]))).map (·.x.busy) = some false := by decide

theorem witness_IllFormedCommandRejected :
    (idle [] []).x.busy = false ∧ (Instr.i2cRead 0#7 0#8 17#8).wf (idle [] []).params = false := by
  decide

theorem witness_CommandWhileBusyDropped : (running []).x.busy = true := by decide

/-- The first and the last word of the window. -/
theorem witness_BusyHostAccess :
    (running [⟨0, .write 0x00 4 1#32⟩]).x.busy = true ∧
    (running [⟨0, .write 0x7C 4 1#32⟩]).env.host =
      ⟨0, .write ((running []).params.base + 0x7C) 4 1#32⟩ :: [] ∧
    (running [⟨0, .read 0x00 4⟩]).env.host = ⟨0, .read ((running []).params.base + 0x00) 4⟩ :: [] ∧
    (running [⟨0, .read 0x7C 4⟩]).env.host =
      ⟨0, .read ((running []).params.base + 0x7C) 4⟩ :: [] := by decide

theorem witness_HostReadHasNoSideEffect :
    (0x7C : Nat) < 0x80 ∧ 0x7C % 4 = 0 ∧
    (idle [] [⟨0, .read 0x7C 4⟩]).env.host = ⟨0, .read ((idle [] []).params.base + 0x7C) 4⟩ :: [] := by
  decide

/-- The last word and byte of BUF. -/
theorem witness_RegisterReads : 4 * 3 < State.reset.params.bufBytes ∧ 3 < 4 := by decide

/-- The ends of both reserved ranges (REG-2), with a write to each, BUSY 0 and 1. -/
theorem witness_ReservedOffsets :
    ∀ off ∈ [0x14, 0x3C, 0x50, 0x7C],
      off % 4 = 0 ∧
      (0x14 ≤ off ∧ off ≤ 0x3F ∨ 0x40 + State.reset.params.bufBytes ≤ off ∧ off ≤ 0x7F) ∧
      (idle [] [⟨0, .write off 4 1#32⟩]).env.host =
        ⟨0, .write ((idle [] []).params.base + off) 4 1#32⟩ :: [] ∧
      (running [⟨0, .write off 4 1#32⟩]).env.host =
        ⟨0, .write ((running []).params.base + off) 4 1#32⟩ :: [] := by decide

theorem witness_IdleRegisterWrites :
    ∀ off ∈ [0x04, 0x08, 0x0C, 0x10],
      (idle [] [⟨0, .write off 4 0xFFFF1234#32⟩]).x.busy = false ∧
      (idle [] [⟨0, .write off 4 0xFFFF1234#32⟩]).env.host =
        ⟨0, .write ((idle [] []).params.base + off) 4 0xFFFF1234#32⟩ :: [] := by decide

/-- The first and the last word of BUF. -/
theorem witness_BufferWrite :
    ∀ k ∈ [0, 3],
      (idle [] [⟨0, .write (0x40 + 4 * k) 4 1#32⟩]).params.wf ∧
      (idle [] [⟨0, .write (0x40 + 4 * k) 4 1#32⟩]).x.buf.wf ∧
      (idle [] [⟨0, .write (0x40 + 4 * k) 4 1#32⟩]).x.busy = false ∧
      4 * k < (idle [] [⟨0, .write (0x40 + 4 * k) 4 1#32⟩]).params.bufBytes ∧
      (idle [] [⟨0, .write (0x40 + 4 * k) 4 1#32⟩]).env.host =
        ⟨0, .write ((idle [] []).params.base + (0x40 + 4 * k)) 4 1#32⟩ :: [] := by decide

/-- An instance at base 0x1000, for the addresses below its window. -/
def based (r : HostReq) : State :=
  { idle [] [⟨0, r⟩] with params := { Params.default with base := 0x1000 } }

/-- A width below and above 4; the addresses next to both ends of the window; the offsets next to a word. -/
theorem witness_HostErrorFaults :
    (∀ width ∈ [1, 2, 3, 8], (based (.read 0x1000 width)).env.host = ⟨0, .read 0x1000 width⟩ :: [] ∧
      width ≠ 4) ∧
    (∀ addr ∈ [0xFFC, 0xFFF, 0x1080], (based (.write addr 4 0#32)).env.host =
      ⟨0, .write addr 4 0#32⟩ :: [] ∧ (addr < 0x1000 ∨ 0x1000 + 0x80 ≤ addr)) ∧
    (∀ addr ∈ [0x1001, 0x1002, 0x107F], (based (.read addr 4)).env.host = ⟨0, .read addr 4⟩ :: [] ∧
      0x1000 ≤ addr ∧ addr < 0x1000 + 0x80 ∧ (addr - 0x1000) % 4 ≠ 0) := by decide

theorem witness_WaitPollsUntilIdle :
    (running [⟨0, .wait⟩]).x.busy = true ∧
    decode (running [⟨0, .wait⟩]).h.cur = .ok (.readBit 1#8) ∧
    (running [⟨0, .wait⟩]).env.host = ⟨0, .wait⟩ :: [] ∧
    (idle [] [⟨0, .wait⟩]).x.busy = false ∧ (idle [] [⟨0, .wait⟩]).env.host = ⟨0, .wait⟩ :: [] := by
  decide

theorem witness_ResetInput : (running [⟨0, .reset⟩]).env.host = ⟨0, .reset⟩ :: [] := by decide

theorem witness_WriteBitResult :
    (idle [] []).quiet ∧ (7#8).toNat < (idle [] []).params.numBits := by decide

theorem witness_ReadBitResult :
    (idle [true] []).quiet ∧ (7#8).toNat < (idle [true] []).params.numBits := by decide

/-- COUNT 0 and COUNT 1 at the last id, COUNT to the last id, and COUNT 32 on a wider instance. -/
theorem witness_WriteBitsResult :
    (idle [] []).quiet ∧ (7#8).toNat + (0#6).toNat ≤ (idle [] []).params.numBits ∧
    (7#8).toNat + (1#6).toNat ≤ (idle [] []).params.numBits ∧
    (0#8).toNat + (8#6).toNat ≤ (idle [] []).params.numBits ∧
    (7#8).toNat < (idle [] []).params.numBits ∧ (8#6).toNat ≤ 32 ∧ (32#6).toNat ≤ 32 ∧
    (0#8).toNat + (32#6).toNat ≤ ({ Params.default with numBits := 32 } : Params).numBits := by decide

theorem witness_ReadBitsResult :
    (idle [true] []).quiet ∧ (7#8).toNat + (0#6).toNat ≤ (idle [true] []).params.numBits ∧
    (7#8).toNat + (1#6).toNat ≤ (idle [true] []).params.numBits ∧
    (0#8).toNat + (8#6).toNat ≤ (idle [true] []).params.numBits ∧
    (7#8).toNat < (idle [true] []).params.numBits ∧ (8#6).toNat ≤ 32 := by decide

/-- LEN 0 and LEN 16. -/
theorem witness_I2cWriteResult :
    (idle [] []).quiet ∧ (0#8).toNat ≤ (idle [] []).params.bufBytes ∧
    (16#8).toNat ≤ (idle [] []).params.bufBytes := by decide

theorem witness_I2cReadNothingResult : (idle [] []).quiet := by decide

/-- LEN 1 and LEN 16, on a BUF that holds a byte, with answers for each of the four results. -/
theorem witness_I2cReadResult :
    (∀ len ∈ [1#8, 16#8], (loaded 0#32 0#32 [(0, 7#8)] []).quiet ∧
      (loaded 0#32 0#32 [(0, 7#8)] []).x.buf.wf ∧ 0 < len.toNat ∧
      len.toNat ≤ (loaded 0#32 0#32 [(0, 7#8)] []).params.bufBytes) ∧
    (idle [true] []).env.answer 0 = true ∧ (idle [false, true] []).env.answer 1 = true ∧
    (idle [false, false, true] []).env.answer 2 = true ∧
    (idle [false, false, false] []).env.answer 2 = false := by decide

theorem witness_MdioReadResult : (idle (List.replicate 16 true) []).quiet := by decide

theorem witness_MdioWriteResult : (loaded 0xABCD1234#32 0#32 [] []).quiet := by decide

/-- Each clause: a NACK of the address byte, of the register byte, of the first and of the last of two
data bytes, and none. -/
theorem witness_I2cWriteEventCounts :
    (∀ pins ∈ [[true], [false, true], [false, false, true], [false, false, false, true],
      [false, false, false, false]], (idle pins []).quiet ∧ (idle pins []).env.trace = []) ∧
    (2#8).toNat ≤ (idle [] []).params.bufBytes ∧
    (idle [true] []).env.answer 0 = true ∧
    ((idle [false, true] []).env.answer 0 = false ∧ (idle [false, true] []).env.answer 1 = true) ∧
    (∀ j < 2, (∀ k < 2 + j, (idle (List.replicate (2 + j) false ++ [true]) []).env.answer k = false) ∧
      (idle (List.replicate (2 + j) false ++ [true]) []).env.answer (2 + j) = true) ∧
    (∀ k < 2 + 2, (idle (List.replicate 4 false) []).env.answer k = false) := by decide

/-- Each clause, for LEN 0, 1 and 16. -/
theorem witness_I2cReadEventCounts :
    (∀ pins ∈ [[true], [false, true], [false, false, true], [false, false, false]],
      (idle pins []).quiet ∧ (idle pins []).env.trace = []) ∧
    (0#8).toNat = 0 ∧ 1 ≤ (1#8).toNat ∧ (16#8).toNat ≤ (idle [] []).params.bufBytes ∧
    (∀ k < 3, (idle [false, false, false] []).env.answer k = false) ∧
    (idle [true] []).env.answer 0 = true ∧
    ((idle [false, true] []).env.answer 0 = false ∧ (idle [false, true] []).env.answer 1 = true) ∧
    (idle [false, false, true] []).env.answer 2 = true := by decide

theorem witness_MdioEventCounts :
    (idle (List.replicate 16 true) []).quiet ∧ (idle (List.replicate 16 true) []).env.trace = [] := by
  decide

theorem witness_AdvisoryIffAllOnes :
    (idle (List.replicate 16 true) []).quiet ∧
    ∀ k < 16, (idle (List.replicate 16 true) []).env.answer k = true := by decide

theorem witness_WriteBitsIsRepeatedWriteBit :
    (loaded 0xA5#32 0#32 [] []).params.wf ∧ (loaded 0xA5#32 0#32 [] []).quiet ∧ (8#6).toNat ≤ 32 ∧
    (0#8).toNat + (8#6).toNat ≤ (loaded 0xA5#32 0#32 [] []).params.numBits := by decide

/-- What the invariant says of reset and of an idle state with a host schedule. -/
theorem witness_inv_idle (pins : List Bool) (host : List HostInput) : (idle pins host).Inv where
  params := test_params_wf
  buf := ⟨(by decide : Memory.wf []), by simp [idle, State.reset, Regs.reset]⟩
  bstage := ⟨(by decide : Memory.wf []), by simp [idle, State.reset, Hidden.reset]⟩
  idle := fun _ => rfl
  settle := Nat.zero_le _
  running := by simp [idle, State.reset, Regs.reset]
  advisory := by simp [idle, State.reset, Regs.reset]
  trace := by simp [idle, Env.empty]

/-- What it says of a state with a command accepted and not yet started: the framer state is that of the
command's first event. -/
theorem witness_inv_accepted {w : Word} {i : Instr} {f : Fsm} {pins : List Bool}
    {host : List HostInput} (hd : decode w = .ok i) (hwf : i.wf Params.default = true)
    (hf : f = (commandOf i (accepted w f pins host)).fsmAt (accepted w f pins host).h) :
    (accepted w f pins host).Inv where
  params := test_params_wf
  buf := ⟨(by decide : Memory.wf []), by simp [accepted, Regs.reset]⟩
  bstage := ⟨(by decide : Memory.wf []), by simp [accepted, Hidden.reset]⟩
  idle := by simp [accepted]
  settle := Nat.zero_le _
  running := fun _ => ⟨rfl, i, hd, hwf, Nat.zero_le _, fun _ => rfl, ⟨[], [], rfl, .nil, rfl⟩, hf⟩
  advisory := by simp [accepted, Regs.reset]
  trace := by simp [accepted, idle, Env.empty]

/-- The invariant of a state with a command running. -/
theorem witness_inv_running (host : List HostInput) : (running host).Inv :=
  witness_inv_accepted (i := .readBit 1#8) (by decide) (by decide) rfl

/-- The block of a WRITE_BIT 3 in the middle of its command: after `seq` events, with `settle` cycles of
settle delay left, and a host request `gap` cycles away. -/
def laterAt (seq settle gap : Nat) (trace : List PinEvent) : State where
  params := Params.default
  x := { Regs.reset Params.default with cmd := 0x00010301#32, busy := true }
  h := { Hidden.reset with cur := 0x00010301#32, seq := seq, settle := settle }
  env := { Env.empty with host := [⟨gap, .read 4 4⟩], trace := trace }

/-- The invariant after its one event. -/
theorem witness_inv_laterAt (gap : Nat) : (laterAt 1 5 gap [W 3 true]).Inv where
  params := test_params_wf
  buf := ⟨(by decide : Memory.wf []), by simp [laterAt, Regs.reset]⟩
  bstage := ⟨(by decide : Memory.wf []), by simp [laterAt, Hidden.reset]⟩
  idle := by simp [laterAt]
  settle := by simp [laterAt, Params.default]
  running := fun _ => ⟨rfl, .writeBit 3#8 .rel, (by decide : decode 0x00010301#32 = _), rfl,
    Nat.le_refl 1, by simp [laterAt], ⟨[], [W 3 true], rfl, .cons rfl .nil, rfl⟩, rfl⟩
  advisory := by simp [laterAt, Regs.reset]
  trace := by simp [laterAt, W, evW, PinEvent.legal, Params.default]

/-- A running command that the step brings to its commit. -/
theorem commits_of_running {i : Instr} {s : State} (hI : s.Inv) (hb : s.x.busy = true)
    (hd : decode s.h.cur = .ok i) (hr : s.notReset)
    (ht : (after (step s)).map (·.x.busy) = some false) :
    ∃ t, Commits i s t (s.env.trace.take (s.env.trace.length - s.h.seq)) := by
  cases hs : step s with
  | next t =>
    rw [hs] at ht
    exact ⟨t, by simpa [after] using ht, .inr ⟨hb, hI, hd, hr, hs, rfl⟩⟩
  | fault f => simp [hs, after] at ht
  | refused r => simp [hs, after] at ht

/-- A command that commits, failed and successful. -/
theorem witness_I2cEndsWithStop :
    ∀ pins ∈ [[true], [false, false]],
      (idle pins []).x.busy = false ∧
      (Instr.i2cWrite 0x50#7 0#8 0#8).wf (idle pins []).params = true ∧
      (after (exec (.i2cWrite 0x50#7 0#8 0#8) (idle pins []))).map (·.x.busy) = some false := by
  decide +kernel

/-- And one accepted earlier, that a later step brings to its commit. -/
theorem witness_I2cEndsWithStop_resumed :
    ∃ t, Commits (.i2cWrite 0x50#7 0#8 2#8) (accepted 0x02005005#32 .start [true] []) t [] :=
  commits_of_running
    (witness_inv_accepted (i := .i2cWrite 0x50#7 0#8 2#8) (by decide) (by decide) rfl) rfl
    (by decide) (fun _ h => nomatch h) (by decide +kernel)

theorem witness_MdioEndsReleased :
    (idle [] []).x.busy = false ∧
    (after (exec (.mdioWrite 1#5 0#5) (idle [] []))).map (·.x.busy) = some false := by
  decide +kernel

theorem witness_MdioEndsReleased_resumed :
    ∃ t, Commits (.mdioWrite 31#5 31#5) (accepted 0x001F1F08#32 .frame [] []) t [] :=
  commits_of_running
    (witness_inv_accepted (i := .mdioWrite 31#5 31#5) (by decide) (by decide) rfl)
    rfl (by decide) (fun _ h => nomatch h) (by decide +kernel)

theorem witness_OnlyI2cReportsFailure :
    (idle [true] []).x.busy = false ∧ (Instr.readBit 1#8).wf (idle [true] []).params = true ∧
    (after (exec (.readBit 1#8) (idle [true] []))).map (·.x.busy) = some false := by decide

theorem witness_OnlyI2cReportsFailure_resumed : ∃ t, Commits (.readBit 1#8) (running []) t [] :=
  commits_of_running (witness_inv_running []) rfl (by decide) (fun _ h => nomatch h)
    (by decide)

/-- A step that leaves BUSY at 1, from BUSY 0 and from BUSY 1. -/
theorem witness_RegistersHoldWhileBusy :
    (after (step (idle [] [cmdWrite 0x00010301#32, ⟨0, .read 4 4⟩]))).map (·.x.busy) = some true ∧
    (after (step (running [cmdWrite 0x00010301#32]))).map (·.x.busy) = some true := by decide

/-- One command of each protocol paused at its accept (with `witness_inv_idle`). -/
theorem witness_FramerStates :
    ∀ i ∈ [Instr.writeBit 1#8 .rel, .i2cWrite 0x50#7 0#8 2#8, .i2cRead 0x50#7 0#8 2#8,
      .mdioRead 1#5 2#5, .mdioWrite 1#5 2#5],
      (after (exec i (idle [] [⟨0, .read 4 4⟩]))).map (·.x.busy) = some true := by decide +kernel

/-- A running command of each protocol, and a step from one (with `witness_inv_accepted` and
`witness_inv_running`). -/
theorem witness_FramerStates_running :
    (accepted 0x02005005#32 .start [] []).x.busy = true ∧
    decode (accepted 0x02005005#32 .start [] []).h.cur = .ok (.i2cWrite 0x50#7 0#8 2#8) ∧
    decode (accepted 0x001F1F08#32 .frame [] []).h.cur = .ok (.mdioWrite 31#5 31#5) ∧
    (after (step (running [⟨0, .read 4 4⟩]))).map (fun t => (t.x.busy, t.h.cur)) =
      some (true, 0x00000102#32) := by decide

/-- `running` with 3 cycles of a settle delay left. -/
def settling (g : Nat) : State :=
  { running [⟨g, .read 4 4⟩] with h := { Hidden.reset with cur := 0x00000102#32, settle := 3 } }

/-- A request at the first and at the last of the settle cycles. -/
theorem witness_SettleHoldsEventsBack :
    ∀ g ∈ [1, 3], (settling g).x.busy = true ∧ decode (settling g).h.cur = .ok (.readBit 1#8) ∧
      (settling g).env.host = ⟨g, .read 4 4⟩ :: [] ∧ HostReq.read 4 4 ≠ .wait ∧ 0 < g ∧
      g ≤ (settling g).h.settle := by decide

theorem witness_WriteLoadsSettle :
    (idle [true] [⟨1, .read 4 4⟩]).x.busy = false ∧ (idle [true] [⟨1, .read 4 4⟩]).h.settle = 0 ∧
    (7#8).toNat < (idle [] []).params.numBits ∧
    (idle [true] [⟨1, .read 4 4⟩]).env.host = ⟨1, .read 4 4⟩ :: [] ∧ HostReq.read 4 4 ≠ .wait := by
  decide

/-- A host request that comes `1 + g` cycles after the commit of a WRITE_BIT accepted at once, whatever the
two free waits of the command are: one cycle for the event, its five of settle delay, one for the commit. -/
def later (g : Nat) : State :=
  idle [] [⟨Config.freeGap 0 1 + (1 + (5 + Config.freeGap 1 1 + (1 + (1 + g)))), .read 4 4⟩]

theorem test_later_settles (seq settle gap : Nat) (trace : List PinEvent) :
    (laterAt seq settle (settle + Config.freeGap trace.length 1 + (1 + gap)) trace).settleDown =
      laterAt seq 0 (1 + gap) trace := by
  rw [settleDown_of_later (r := .read 4 4) (rest := []) rfl (by simp) (by
    show settle + Config.freeGap trace.length 1 ≤ _
    omega)]
  simp only [State.elapse, laterAt, State.slack]
  simp

theorem test_later_commits (g : Nat) :
    exec (.writeBit 3#8 .rel) (later g) =
      .next ((laterAt 1 0 (1 + (1 + g)) [W 3 true]).finish .nothing .ok) := by
  have hx : exec (.writeBit 3#8 .rel) (later g) =
      .next (run (writeBitCommand 3#8 .rel) [coreWrite 3 .rel] (laterAt 0 0
        (Config.freeGap 0 1 + (1 + (5 + Config.freeGap 1 1 + (1 + (1 + g))))) [])) := rfl
  have h1 := test_later_settles 0 0 (5 + Config.freeGap 1 1 + (1 + (1 + g))) []
  have h2 := test_later_settles 1 5 (1 + g) [W 3 true]
  have h3 : ((laterAt 0 0 (1 + (5 + Config.freeGap 1 1 + (1 + (1 + g)))) []).enter .idle).perform
      (coreWrite 3 .rel) = laterAt 1 5 (5 + Config.freeGap 1 1 + (1 + (1 + g))) [W 3 true] := by
    simp only [State.perform, coreWrite, State.pinWrite, State.elapse, laterAt, State.enter]
    simp
    exact ⟨⟨rfl, rfl⟩, rfl⟩
  have d1 : ((laterAt 0 0 (1 + (5 + Config.freeGap 1 1 + (1 + (1 + g)))) []).enter .idle).due =
      false := due_of_later (r := .read 4 4) (rest := []) rfl (by omega)
  have d2 : (laterAt 1 0 (1 + (1 + g)) [W 3 true]).due = false :=
    due_of_later (r := .read 4 4) (rest := []) rfl (by omega)
  simp only [Nat.zero_add, List.length_nil, List.length_singleton] at h1 h2
  rw [hx]
  simp only [run]
  rw [h1, if_pos (by rfl)]
  simp only [show (coreWrite 3 Level.rel).fsm = Fsm.idle from rfl, d1, h3, h2, d2,
    Bool.false_eq_true, if_false]
  rfl

theorem witness_MinimumDuration (g : Nat) :
    (later g).x.busy = false ∧ (Instr.writeBit 3#8 .rel).wf (later g).params = true ∧
    (after (exec (.writeBit 3#8 .rel) (later g))).map (fun t => (t.x.busy, t.env.host)) =
      some (false, [⟨1 + g, .read 4 4⟩]) := by
  rw [test_later_commits]
  refine ⟨rfl, rfl, ?_⟩
  simp [after, State.finish, State.elapse, laterAt]

/-- The same command accepted earlier: the step to its commit, and one that pauses in its settle delay. -/
theorem test_laterAt_commits (g : Nat) :
    step (laterAt 1 5 (5 + Config.freeGap 1 1 + (1 + (1 + g))) [W 3 true]) =
      .next ((laterAt 1 0 (1 + (1 + g)) [W 3 true]).finish .nothing .ok) := by
  have h := test_later_settles 1 5 (1 + g) [W 3 true]
  have hd : (laterAt 1 0 (1 + (1 + g)) [W 3 true]).due = false :=
    due_of_later (r := .read 4 4) (rest := []) rfl (by omega)
  have hs : (laterAt 1 5 (5 + Config.freeGap 1 1 + (1 + (1 + g))) [W 3 true]).due = false :=
    due_of_later (r := .read 4 4) (rest := []) rfl (by omega)
  simp only [List.length_singleton] at h
  have hr : step (laterAt 1 5 (5 + Config.freeGap 1 1 + (1 + (1 + g))) [W 3 true]) =
      .next (run (writeBitCommand 3#8 .rel) []
        (laterAt 1 5 (5 + Config.freeGap 1 1 + (1 + (1 + g))) [W 3 true])) := by
    unfold step advance
    rw [hs]
    show resume _ = _
    unfold resume
    rw [show decode (laterAt 1 5 _ [W 3 true]).h.cur = .ok (.writeBit 3#8 .rel) from
      (by decide : decode 0x00010301#32 = _)]
    rfl
  rw [hr]
  simp only [run]
  rw [h, hd]
  rfl

theorem test_laterAt_pauses :
    step (laterAt 1 5 3 [W 3 true]) = .next (laterAt 1 2 0 [W 3 true]) := by rfl

/-- A stretch from a served request to the next one, and one to the commit. -/
theorem witness_MinimumDuration_running (g : Nat) :
    (laterAt 1 5 3 [W 3 true]).x.busy = true ∧
    decode (laterAt 1 5 3 [W 3 true]).h.cur = .ok (.writeBit 3#8 .rel) ∧
    (laterAt 1 5 3 [W 3 true]).env.host = ⟨3, .read 4 4⟩ :: [] ∧ HostReq.read 4 4 ≠ .wait ∧
    (after (step (laterAt 1 5 3 [W 3 true]))).map (·.x.busy) = some true ∧
    (after (step (laterAt 1 5 (5 + Config.freeGap 1 1 + (1 + (1 + g))) [W 3 true]))).map
      (·.x.busy) = some false := by
  rw [test_laterAt_pauses, test_laterAt_commits]
  exact ⟨rfl, (by decide : decode 0x00010301#32 = _), rfl, by decide, rfl, rfl⟩

theorem witness_OutputsOnlyGrow :
    (after (step (running [⟨0, .read 4 4⟩]))).map (·.env.replies) = some [(4, 1#32)] := by decide

/-- With nothing scheduled, and with a request two cycles away. -/
theorem witness_IdleBlockWaits :
    (idle [] []).x.busy = false ∧ (idle [] []).due = false ∧
    (idle [] [⟨2, .read 4 4⟩]).x.busy = false ∧ (idle [] [⟨2, .read 4 4⟩]).due = false := by decide

/-- A command that pauses for a host request, for each family. -/
theorem witness_PauseDoesNotDisturb :
    ∀ i ∈ [Instr.writeBits 0#8 8#6, .i2cWrite 0x50#7 0#8 2#8, .mdioRead 1#5 2#5],
      (idle [] [⟨0, .read 4 4⟩]).x.busy = false ∧ i.wf (idle [] []).params = true ∧
      (after (exec i (idle [] [⟨0, .read 4 4⟩]))).map (·.x.busy) = some true := by decide +kernel

/-- And one that pauses between its event and its commit, whatever the free wait before the event is. -/
theorem witness_PauseDoesNotDisturb_event :
    exec (.writeBit 3#8 .rel) (idle [] [⟨Config.freeGap 0 1 + (1 + 0), .read 4 4⟩]) =
      .next (laterAt 1 5 0 [W 3 true]) := by
  have hx : exec (.writeBit 3#8 .rel) (idle [] [⟨Config.freeGap 0 1 + (1 + 0), .read 4 4⟩]) =
      .next (run (writeBitCommand 3#8 .rel) [coreWrite 3 .rel]
        (laterAt 0 0 (Config.freeGap 0 1 + (1 + 0)) [])) := rfl
  have h1 := test_later_settles 0 0 0 []
  simp only [Nat.zero_add, List.length_nil] at h1
  rw [hx]
  simp only [run]
  rw [h1, if_pos (by rfl)]
  rfl

/-- And one that commits although a request is scheduled later. -/
theorem witness_PauseDoesNotDisturb_commit (g : Nat) :
    (after (exec (.writeBit 3#8 .rel) (later g))).map (·.x.busy) = some false := by
  rw [test_later_commits]
  rfl

/-- A running command that serves a read, drops a write, or pauses again, and one that commits, with a request
still to come and with none (with `witness_inv_running` and `witness_inv_laterAt`). -/
theorem witness_RunningCommandGoesOn (g : Nat) :
    (running [⟨0, .read 4 4⟩]).x.busy = true ∧ (running [⟨0, .read 4 4⟩]).notReset ∧
    (running [cmdWrite 1#32]).notReset ∧
    (after (step (running [⟨0, .read 4 4⟩]))).map (·.x.busy) = some true ∧
    (after (step (running [cmdWrite 1#32]))).map (fun t => (t.x.busy, t.x.wdrop)) =
      some (true, true) ∧
    (after (step (laterAt 1 5 3 [W 3 true]))).map (·.x.busy) = some true ∧
    (after (step (laterAt 1 5 (5 + Config.freeGap 1 1 + (1 + (1 + g))) [W 3 true]))).map
      (·.x.busy) = some false ∧
    (after (step (running []))).map (·.x.busy) = some false := by
  rw [test_laterAt_pauses, test_laterAt_commits]
  refine ⟨rfl, ?_, ?_, by decide, by decide, rfl, rfl, by decide⟩ <;> intro rest h <;> cases h

/-- A step from a state with the invariant, idle and with a command running (with
`witness_inv_idle` and `witness_inv_running`). -/
theorem witness_StepKeepsInvariant :
    (after (step (idle [] [cmdWrite 0x00010301#32]))).isSome = true ∧
    (after (step (running []))).isSome = true := by decide

end Sys2Proof.Tests
end

section
/-! What one step of the machine can do, said once: `Served` lists what serving a host request can lead to and `Moved`
what a step can lead to, each tied to the model by an inversion lemma. The statements about every step are then one
case per constructor. -/

namespace Sys2Proof.Machine

/-! ### The event that a performed operation puts on the port -/

/-- The event that performing `o` in `s` puts on the pin-backend port (60_exceptions.md R210). -/
def State.eventOf (o : PinOp) (s : State) : PinEvent :=
  match o with
  | .wb _ _ id lvl => .pinWr id (levelMask s.params lvl)
  | .rb _ _ id _ => .pinRd id s.nextLevel

theorem perform_trace (o : PinOp) (s : State) :
    (s.perform o).env.trace = s.env.trace ++ [s.eventOf o] := by
  cases o <;> rfl

theorem idleWait_eq_elapse (s : State) : ∃ n, s.idleWait = s.elapse n := by
  unfold State.idleWait
  split <;> exact ⟨_, rfl⟩

/-! ### Serving a host request -/

/-- The states that serving one host request in `s` can lead to. -/
inductive Served (s : State) : State → Prop
  /-- A read, or the last poll of a `wait`, is answered (20_memory.md R65). -/
  | reply (off : Nat) : Served s (s.reply off)
  /-- A write while BUSY is 1 is dropped (10_state.md R29). -/
  | drop (hb : s.x.busy = true) : Served s s.dropWrite
  /-- An illegal word written to CMD is rejected (60_exceptions.md R203). -/
  | reject (w : Word) (hb : s.x.busy = false) : Served s (s.reject w)
  /-- A legal command written to CMD is accepted and runs (10_state.md R26). -/
  | accept (i : Instr) (hb : s.x.busy = false) (hwf : i.wf s.params = true) :
      Served s (run (commandOf i s) (commandOf i s).ops (s.accept (encode i)))
  /-- A write to a register other than CMD (20_memory.md R65). -/
  | store (off : Nat) (v : Word) (hb : s.x.busy = false) (h4 : off % 4 = 0) :
      Served s (writeReg off v s)
  /-- The reset input (70_reset_and_hazards.md R230). -/
  | reset : Served s s.hardReset

theorem served_of_exec {i : Instr} {s t : State} (h : exec i s = .next t) : Served s t := by
  rw [exec_eq_issue] at h
  obtain ⟨hb, hi⟩ | ⟨hb, hwf, hi⟩ | ⟨hb, -, hi⟩ := issue_cases i (commandOf i s) s <;>
    rw [hi] at h <;> cases h
  · exact .drop hb
  · exact .accept i hb hwf
  · exact .reject _ hb

theorem served_of_writeCmd {w : Word} {s t : State} (hb : s.x.busy = false)
    (h : writeCmd w s = .next t) : Served s t := by
  unfold writeCmd at h
  split at h
  · exact served_of_exec h
  · cases h
    exact .reject w hb

theorem served_of_serve {r : HostReq} {s t : State} (h : serve r s = .next t) : Served s t := by
  cases r with
  | read addr width =>
    simp only [serve] at h
    split at h <;> cases h
    exact .reply _
  | write addr width v =>
    simp only [serve] at h
    split at h
    · cases h
    · rename_i off ho
      split at h
      · cases h
        exact .drop ‹_›
      · rename_i hb
        have hb : s.x.busy = false := by simpa using hb
        split at h
        · exact served_of_writeCmd hb h
        · cases h
          exact .store off v hb (hostOffset_bound ho).2
  | wait =>
    cases h
    exact .reply _
  | reset =>
    cases h
    exact .reset

/-! ### One step -/

/-- The states that one step from `s` can lead to. -/
inductive Moved (s : State) : State → Prop
  /-- The host request that is due is served. -/
  | serve {t : State} (rest : List HostInput) (h : Served (s.withHost rest) t) : Moved s t
  /-- The running command goes on. -/
  | resume (i : Instr) (hb : s.x.busy = true) (hd : decode s.h.cur = .ok i) :
      Moved s (run (commandOf i s) ((commandOf i s).remaining s.h) s)
  /-- An idle block lets `n` cycles pass (60_exceptions.md R216). -/
  | wait (n : Nat) (hb : s.x.busy = false) : Moved s (s.elapse n)

theorem moved_of_step {s t : State} (h : step s = .next t) : Moved s t := by
  obtain ⟨g, r, rest, -, -, hs⟩ | ⟨-, hb, hs⟩ | ⟨-, hb, hs⟩ := step_cases s <;> rw [hs] at h
  · exact .serve rest (served_of_serve h)
  · unfold resume at h
    split at h <;> cases h
    exact .resume _ hb ‹_›
  · cases h
    obtain ⟨n, hn⟩ := idleWait_eq_elapse s
    rw [hn]
    exact .wait n hb

end Sys2Proof.Machine
end

section
/-! The outputs of the block only grow (20_memory.md R66, R67): every operation of the machine keeps the parameters and
adds to the trace and to the replies at their ends only. -/

namespace Sys2Proof.Machine

/-- From `s` to `t` the parameters stay, and what the block has put out is only added to. -/
structure State.GrowsTo (s t : State) : Prop where
  params : t.params = s.params
  trace : s.env.trace <+: t.env.trace
  replies : s.env.replies <+: t.env.replies

theorem State.GrowsTo.trans {s t u : State} (h : s.GrowsTo t) (h' : t.GrowsTo u) : s.GrowsTo u :=
  ⟨h'.params.trans h.params, h.trace.trans h'.trace, h.replies.trans h'.replies⟩

/-- An operation that puts nothing out. -/
theorem State.GrowsTo.of_silent {s t : State} (hp : t.params = s.params)
    (ht : t.env.trace = s.env.trace) (hr : t.env.replies = s.env.replies) : s.GrowsTo t :=
  ⟨hp, ht ▸ List.prefix_rfl, hr ▸ List.prefix_rfl⟩

/-- The wait before an event puts nothing out. -/
theorem growsTo_gate (f : Fsm) (s : State) : s.GrowsTo (s.settleDown.enter f) :=
  .of_silent (by simp) (by simp) (by simp)

theorem growsTo_perform (o : PinOp) (s : State) : s.GrowsTo (s.perform o) where
  params := perform_params o s
  trace := perform_trace o s ▸ List.prefix_append _ _
  replies := perform_replies o s ▸ List.prefix_rfl

theorem growsTo_run (c : Command) (ops : List PinOp) (s : State) : s.GrowsTo (run c ops s) := by
  induction ops generalizing s with
  | nil =>
    simp only [run]
    split <;> exact .of_silent (by simp) (by simp) (by simp)
  | cons o rest ih =>
    simp only [run]
    split
    · split
      · exact growsTo_gate o.fsm s
      · exact ((growsTo_gate o.fsm s).trans (growsTo_perform o _)).trans (ih _)
    · exact ih s

theorem Served.growsTo {s t : State} (h : Served s t) : s.GrowsTo t := by
  cases h with
  | reply off => exact ⟨rfl, List.prefix_rfl, List.prefix_append _ _⟩
  | drop => exact .of_silent rfl rfl rfl
  | reject w => exact .of_silent rfl rfl rfl
  | accept i =>
    have hacc : s.GrowsTo (s.accept (encode i)) := .of_silent rfl rfl rfl
    exact hacc.trans (growsTo_run _ _ _)
  | store off v => exact .of_silent (by simp) (by simp) (by simp)
  | reset => exact .of_silent rfl rfl rfl

theorem Moved.growsTo {s t : State} (h : Moved s t) : s.GrowsTo t := by
  cases h with
  | serve rest h =>
    have hw : s.GrowsTo (s.withHost rest) := .of_silent rfl rfl rfl
    exact hw.trans h.growsTo
  | resume i => exact growsTo_run _ _ s
  | wait n => exact .of_silent rfl rfl rfl

/-- Settles O46: every step is one of the moves, and every move only adds to the outputs. -/
theorem outputsOnlyGrow : Obligations.OutputsOnlyGrow := by
  intro s t h
  obtain ⟨hp, ⟨es, htr⟩, ⟨rs, hre⟩⟩ := (moved_of_step h).growsTo
  exact ⟨hp, ⟨es, htr.symm⟩, ⟨rs, hre.symm⟩⟩

end Sys2Proof.Machine
end

section
/-! Decoding an encoded command: a field of a word put together from placed fields is the field placed there, and a row
of 30_encoding.md R89 accepts its own words. -/

namespace Sys2Proof

/-- The bits where a field is placed are the field. -/
theorem extract_place_same {n lo : Nat} (v : BitVec n) (h : lo + n ≤ 32) :
    (place lo v).extractLsb' lo n = v := by
  refine BitVec.eq_of_getLsbD_eq fun i hi => ?_
  simp [hi, show lo + i < 32 by omega]

/-- The bits below and above a placed field are zero. -/
theorem extract_place_apart {m n lo lo' : Nat} (v : BitVec m) (h : lo + n ≤ lo' ∨ lo' + m ≤ lo) :
    (place lo' v).extractLsb' lo n = 0#n := by
  refine BitVec.eq_of_getLsbD_eq fun i hi => ?_
  simp only [BitVec.getLsbD_extractLsb', getLsbD_place, BitVec.getLsbD_zero]
  rcases h with h | h
  · simp [show ¬lo' ≤ lo + i by omega]
  · simp [BitVec.getLsbD_of_ge v (lo + i - lo') (by omega)]

/-- A word that has the match value of its row is accepted by the row. -/
theorem checkReserved_ok {w mask pattern : Word} (i : Instr) (h : w &&& mask = pattern) :
    checkReserved w mask pattern i = .ok i :=
  if_pos h

@[simp] theorem Level.ofBit_toBit (l : Level) : Level.ofBit l.toBit = l := by
  cases l <;> rfl

/-! ### The fields of each format (30_encoding.md R81 to R84) -/

theorem formatB1_fields (op : BitVec 4) (level : Bool) (id : BitVec 8) :
    (formatB1 op level id).extractLsb' 0 4 = op ∧ (formatB1 op level id).extractLsb' 8 8 = id ∧
    (formatB1 op level id).getLsbD 16 = level := by
  simp [formatB1, BitVec.extractLsb'_or, extract_place_same, extract_place_apart]

theorem formatBM_fields (op : BitVec 4) (id : BitVec 8) (count : BitVec 6) :
    (formatBM op id count).extractLsb' 0 4 = op ∧ (formatBM op id count).extractLsb' 8 8 = id ∧
    (formatBM op id count).extractLsb' 16 6 = count := by
  simp [formatBM, BitVec.extractLsb'_or, extract_place_same, extract_place_apart]

theorem formatI2_fields (op : BitVec 4) (dev : BitVec 7) (reg len : BitVec 8) :
    (formatI2 op dev reg len).extractLsb' 0 4 = op ∧
    (formatI2 op dev reg len).extractLsb' 8 7 = dev ∧
    (formatI2 op dev reg len).extractLsb' 16 8 = reg ∧
    (formatI2 op dev reg len).extractLsb' 24 8 = len := by
  simp [formatI2, BitVec.extractLsb'_or, extract_place_same, extract_place_apart]

theorem formatMD_fields (op : BitVec 4) (phy reg : BitVec 5) :
    (formatMD op phy reg).extractLsb' 0 4 = op ∧ (formatMD op phy reg).extractLsb' 8 5 = phy ∧
    (formatMD op phy reg).extractLsb' 16 5 = reg := by
  simp [formatMD, BitVec.extractLsb'_or, extract_place_same, extract_place_apart]

/-- The opcode selects the row, the row accepts the word, and the fields are the operands. -/
theorem decode_encode (i : Instr) : decode (encode i) = .ok i := by
  cases i with
  | writeBit id lvl =>
    obtain ⟨hop, hid, hlvl⟩ := formatB1_fields 1#4 lvl.toBit id
    simp only [decode, encode, hop, hid, hlvl, Level.ofBit_toBit]
    exact checkReserved_ok _ (Laws.Pattern.writeBit id lvl)
  | readBit id =>
    obtain ⟨hop, hid, -⟩ := formatB1_fields 2#4 false id
    simp only [decode, encode, hop, hid]
    exact checkReserved_ok _ (Laws.Pattern.readBit id)
  | writeBits id count =>
    obtain ⟨hop, hid, hcount⟩ := formatBM_fields 3#4 id count
    simp only [decode, encode, hop, hid, hcount]
    exact checkReserved_ok _ (Laws.Pattern.writeBits id count)
  | readBits id count =>
    obtain ⟨hop, hid, hcount⟩ := formatBM_fields 4#4 id count
    simp only [decode, encode, hop, hid, hcount]
    exact checkReserved_ok _ (Laws.Pattern.readBits id count)
  | i2cWrite dev reg len =>
    obtain ⟨hop, hdev, hreg, hlen⟩ := formatI2_fields 5#4 dev reg len
    simp only [decode, encode, hop, hdev, hreg, hlen]
    exact checkReserved_ok _ (Laws.Pattern.i2cWrite dev reg len)
  | i2cRead dev reg len =>
    obtain ⟨hop, hdev, hreg, hlen⟩ := formatI2_fields 6#4 dev reg len
    simp only [decode, encode, hop, hdev, hreg, hlen]
    exact checkReserved_ok _ (Laws.Pattern.i2cRead dev reg len)
  | mdioRead phy reg =>
    obtain ⟨hop, hphy, hreg⟩ := formatMD_fields 7#4 phy reg
    simp only [decode, encode, hop, hphy, hreg]
    exact checkReserved_ok _ (Laws.Pattern.mdioRead phy reg)
  | mdioWrite phy reg =>
    obtain ⟨hop, hphy, hreg⟩ := formatMD_fields 8#4 phy reg
    simp only [decode, encode, hop, hphy, hreg]
    exact checkReserved_ok _ (Laws.Pattern.mdioWrite phy reg)

end Sys2Proof
end

section
/-! The shape of a command's event list: every event is one that the port may carry, and none asks for more
acknowledgments than the events before it can have sampled. `Planned` is the rule for lists, `Command.Fits` that for a
command; every legal command fits. -/

namespace Sys2Proof.Machine

/-- A received byte has a place in the buffer (10_state.md R31). -/
def Sink.Fits (p : Params) : Sink → Prop
  | .byte k _ => k < p.bufBytes
  | .word _ | .ack => True

/-- The event has a known bit id, and a received byte a place in the buffer. -/
def PinOp.Fits (p : Params) : PinOp → Prop
  | .wb _ _ id _ => id < p.numBits
  | .rb _ _ id sink => id < p.numBits ∧ sink.Fits p

/-- How many acknowledgments an event samples. -/
def PinOp.samples : PinOp → Nat
  | .rb _ _ _ .ack => 1
  | _ => 0

/-- Issued after `n` acknowledgments, the events `l` fit the parameters, each has the acknowledgments it
asks for, and after them there are at least `m`. -/
def Planned (p : Params) : Nat → List PinOp → Nat → Prop
  | n, [], m => m ≤ n
  | n, o :: l, m => o.Fits p ∧ o.phase ≤ n ∧ Planned p (n + o.samples) l m

/-- A command fits the parameters `p`: a planned list of events, and no more received bytes than BUF
has. -/
structure Command.Fits (p : Params) (c : Command) : Prop where
  planned : ∃ m, Planned p 0 c.ops m
  deliver : ∀ n, c.deliver = .bytes n → n ≤ p.bufBytes

/-! ### Rules for event lists -/

section
variable {p : Params} {l l' : List PinOp} {n k m : Nat}

theorem Planned.mono (h : Planned p n l m) (hnk : n ≤ k) : Planned p k l m := by
  induction l generalizing n k with
  | nil => exact Nat.le_trans h hnk
  | cons o l ih =>
    obtain ⟨hfit, hphase, hrest⟩ := h
    exact ⟨hfit, hphase.trans hnk, ih hrest (by omega)⟩

theorem Planned.append (h : Planned p n l k) (h' : Planned p k l' m) : Planned p n (l ++ l') m := by
  induction l generalizing n with
  | nil => exact h'.mono h
  | cons o l ih =>
    obtain ⟨hfit, hphase, hrest⟩ := h
    exact ⟨hfit, hphase, ih hrest⟩

/-- Events that ask for no more acknowledgments than there are already. -/
theorem Planned.of_forall (h : ∀ o ∈ l, o.Fits p ∧ o.phase ≤ n) : Planned p n l n := by
  suffices hgen : ∀ k, n ≤ k → Planned p k l n from hgen n le_rfl
  induction l with
  | nil => exact fun _ hk => hk
  | cons o l ih =>
    intro k hk
    obtain ⟨hfit, hphase⟩ := h o List.mem_cons_self
    exact ⟨hfit, hphase.trans hk,
      ih (fun q hq => h q (List.mem_cons_of_mem _ hq)) _ (by omega)⟩

/-- Pieces that each need no more than the `n` acknowledgments before them. -/
theorem Planned.flatMap {α : Type} {xs : List α} {f : α → List PinOp}
    (h : ∀ x ∈ xs, Planned p n (f x) n) : Planned p n (xs.flatMap f) n := by
  induction xs with
  | nil => exact Nat.le_refl n
  | cons x xs ih =>
    exact (h x List.mem_cons_self).append (ih fun y hy => h y (List.mem_cons_of_mem _ hy))

/-- Pieces that each bring one acknowledgment and need those of the pieces before. -/
theorem Planned.flatMap_range {f : Nat → List PinOp}
    (h : ∀ k, Planned p (k + n) (f k) (k + n + 1)) (len : Nat) :
    Planned p n ((List.range len).flatMap f) (len + n) := by
  induction len with
  | zero => exact Nat.le_of_eq (Nat.zero_add n)
  | succ len ih =>
    rw [List.range_succ, List.flatMap_append, List.flatMap_singleton, Nat.add_right_comm]
    exact ih.append (h len)

theorem Planned.fits (h : Planned p n l m) : ∀ o ∈ l, o.Fits p := by
  induction l generalizing n with
  | nil => simp
  | cons q l ih =>
    obtain ⟨hfit, -, hrest⟩ := h
    simpa [hfit] using ih hrest

/-- Up to and including the event after `l`, none asks for more than `l` can have sampled. -/
theorem Planned.phase_le {o : PinOp} (h : Planned p n (l ++ o :: l') m) :
    ∀ q ∈ l ++ [o], q.phase ≤ n + (l.map PinOp.samples).sum := by
  induction l generalizing n with
  | nil => simpa using h.2.1
  | cons q l ih =>
    obtain ⟨-, hphase, hrest⟩ := h
    intro r hr
    rw [List.map_cons, List.sum_cons]
    obtain rfl | hr := List.mem_cons.1 hr
    · omega
    · have := ih hrest r hr
      omega

end

/-! ### The core commands -/

theorem writeBit_fits {p : Params} {id : BitVec 8} (lvl : Level) (h : id.toNat < p.numBits) :
    (writeBitCommand id lvl).Fits p where
  planned := ⟨0, .of_forall (by simp [writeBitCommand, coreWrite, PinOp.Fits, PinOp.phase, h])⟩
  deliver := by simp [writeBitCommand]

theorem readBit_fits {p : Params} {id : BitVec 8} (h : id.toNat < p.numBits) :
    (readBitCommand id).Fits p where
  planned := ⟨0, .of_forall
    (by simp [readBitCommand, coreRead, PinOp.Fits, Sink.Fits, PinOp.phase, h])⟩
  deliver := by simp [readBitCommand]

theorem writeBits_fits {p : Params} {id : BitVec 8} {count : BitVec 6} (arg : Word)
    (h : id.toNat + count.toNat ≤ p.numBits) : (writeBitsCommand id count arg).Fits p where
  planned := by
    refine ⟨0, .of_forall fun o ho => ?_⟩
    obtain ⟨k, hk, rfl⟩ := List.mem_map.1 ho
    have hk := List.mem_range.1 hk
    exact ⟨show id.toNat + k < p.numBits by omega, le_rfl⟩
  deliver := by simp [writeBitsCommand]

theorem readBits_fits {p : Params} {id : BitVec 8} {count : BitVec 6}
    (h : id.toNat + count.toNat ≤ p.numBits) : (readBitsCommand id count).Fits p where
  planned := by
    refine ⟨0, .of_forall fun o ho => ?_⟩
    obtain ⟨k, hk, rfl⟩ := List.mem_map.1 ho
    have hk := List.mem_range.1 hk
    exact ⟨⟨show id.toNat + k < p.numBits by omega, trivial⟩, le_rfl⟩
  deliver := by simp [readBitsCommand]

/-! ### The I2C commands -/

section
variable {p : Params} (hscl : p.sclId < p.numBits) (hsda : p.sdaId < p.numBits)
include hscl hsda

theorem i2cStart_planned (n : Nat) : Planned p n (i2cStart p) n :=
  .of_forall (by simp [i2cStart, PinOp.Fits, PinOp.phase, hscl, hsda])

theorem i2cRestart_planned (n : Nat) : Planned p n (i2cRestart p n) n :=
  .of_forall (by simp [i2cRestart, PinOp.Fits, PinOp.phase, hscl, hsda])

theorem i2cStop_planned (n : Nat) : Planned p n (i2cStop p) n :=
  .of_forall (by simp [i2cStop, PinOp.Fits, PinOp.phase, hscl, hsda])

theorem i2cSendBit_planned (f : Fsm) (n : Nat) (b : Bool) : Planned p n (i2cSendBit p f n b) n :=
  .of_forall (by simp [i2cSendBit, PinOp.Fits, PinOp.phase, hscl, hsda])

/-- A sampled acknowledgment is one more for the events that follow. -/
theorem i2cRecvAck_planned (n : Nat) : Planned p n (i2cRecvAck p n) (n + 1) := by
  simp [i2cRecvAck, Planned, PinOp.Fits, Sink.Fits, PinOp.phase, PinOp.samples, hscl, hsda]

theorem i2cSendAcked_planned (f : Fsm) (n : Nat) (v : Byte) :
    Planned p n (i2cSendAcked p f n v) (n + 1) :=
  (Planned.flatMap fun b _ => i2cSendBit_planned hscl hsda f n b).append
    (i2cRecvAck_planned hscl hsda n)

theorem i2cOpening_planned (dev : BitVec 7) (reg : Byte) : Planned p 0 (i2cOpening p dev reg) 2 :=
  ((i2cStart_planned hscl hsda 0).append (i2cSendAcked_planned hscl hsda _ 0 _)).append
    (i2cSendAcked_planned hscl hsda _ 1 _)

theorem i2cRecvByte_planned (n : Nat) {k : Nat} (hk : k < p.bufBytes) :
    Planned p n (i2cRecvByte p n k) n := by
  have hbits : Planned p n ((downTo 8).flatMap fun j =>
      [.wb .rdata n p.sclId .rel, .rb .rdata n p.sdaId (.byte k j), .wb .rdata n p.sclId .a0]) n :=
    .flatMap fun j _ => .of_forall (by simp [PinOp.Fits, Sink.Fits, PinOp.phase, hscl, hsda, hk])
  exact ⟨hsda, le_rfl, hbits⟩

/-- The received bytes need the three acknowledgments before them and sample none. -/
theorem i2cReadPhase_planned (dev : BitVec 7) {n : Nat} (hn : n ≤ p.bufBytes) :
    Planned p 2 (i2cReadPhase p dev n) 3 := by
  refine ((i2cRestart_planned hscl hsda 2).append (i2cSendAcked_planned hscl hsda _ 2 _)).append
    (.flatMap fun k hk => ?_)
  have hk : k < n := List.mem_range.1 hk
  exact (i2cRecvByte_planned hscl hsda 3 (by omega)).append (i2cSendBit_planned hscl hsda _ 3 _)

theorem i2cWrite_fits (dev : BitVec 7) (reg len : BitVec 8) (buf : Memory) :
    (i2cWriteCommand p dev reg len buf).Fits p where
  planned := by
    have hbytes := Planned.flatMap_range (n := 2)
      (fun k => i2cSendAcked_planned hscl hsda .data (k + 2) (buf.read k)) len.toNat
    exact ⟨_, ((i2cOpening_planned hscl hsda dev reg).append hbytes).append
      (i2cStop_planned hscl hsda _)⟩
  deliver := by simp [i2cWriteCommand]

theorem i2cRead_fits (dev : BitVec 7) (reg : BitVec 8) {len : BitVec 8}
    (hlen : len.toNat ≤ p.bufBytes) : (i2cReadCommand p dev reg len).Fits p where
  planned := by
    obtain ⟨m, hread⟩ :
        ∃ m, Planned p 2 (if len.toNat = 0 then [] else i2cReadPhase p dev len.toNat) m := by
      split
      · exact ⟨2, le_rfl⟩
      · exact ⟨3, i2cReadPhase_planned hscl hsda dev hlen⟩
    exact ⟨m, ((i2cOpening_planned hscl hsda dev reg).append hread).append
      (i2cStop_planned hscl hsda m)⟩
  deliver := by simp [i2cReadCommand, hlen]

end

/-! ### The MDIO commands -/

section
variable {p : Params} (hmdc : p.mdcId < p.numBits) (hmdio : p.mdioId < p.numBits)
include hmdc hmdio

theorem mdioSendBit_planned (f : Fsm) (b : Bool) : Planned p 0 (mdioSendBit p f b) 0 :=
  .of_forall (by simp [mdioSendBit, PinOp.Fits, PinOp.phase, hmdc, hmdio])

theorem mdioSendBits_planned (f : Fsm) {n : Nat} (v : BitVec n) :
    Planned p 0 (mdioSendBits p f v) 0 :=
  .flatMap fun b _ => mdioSendBit_planned hmdc hmdio f b

theorem mdioRecvBit_planned (k : Nat) : Planned p 0 (mdioRecvBit p k) 0 :=
  .of_forall (by simp [mdioRecvBit, PinOp.Fits, Sink.Fits, PinOp.phase, hmdc, hmdio])

omit hmdc in
theorem mdioRelease_planned : Planned p 0 (mdioRelease p) 0 :=
  .of_forall (by simp [mdioRelease, PinOp.Fits, PinOp.phase, hmdio])

theorem mdioOpening_planned (opc : BitVec 2) (phy reg : BitVec 5) :
    Planned p 0 (mdioPreamble p ++ mdioHeader p opc phy reg) 0 := by
  have hpreamble : Planned p 0 (mdioPreamble p) 0 :=
    .flatMap fun b _ => mdioSendBit_planned hmdc hmdio .preamble b
  have hfield {n : Nat} (v : BitVec n) := mdioSendBits_planned hmdc hmdio .frame v
  exact hpreamble.append ((((hfield mdioStart).append (hfield opc)).append (hfield phy)).append
    (hfield reg))

theorem mdioRead_fits (phy reg : BitVec 5) : (mdioReadCommand p phy reg).Fits p where
  planned := by
    have hta := mdioSendBit_planned hmdc hmdio .ta true
    have hdata : Planned p 0 ((downTo 16).flatMap (mdioRecvBit p)) 0 :=
      .flatMap fun k _ => mdioRecvBit_planned hmdc hmdio k
    exact ⟨0, (((mdioOpening_planned hmdc hmdio mdioOpRead phy reg).append
      (hta.append hta)).append hdata).append (mdioRelease_planned hmdio)⟩
  deliver := by simp [mdioReadCommand]

theorem mdioWrite_fits (phy reg : BitVec 5) (arg : Word) :
    (mdioWriteCommand p phy reg arg).Fits p where
  planned := ⟨0, (((mdioOpening_planned hmdc hmdio mdioOpWrite phy reg).append
    (mdioSendBits_planned hmdc hmdio .ta mdioTurnaround)).append
    (mdioSendBits_planned hmdc hmdio .mwdata (arg.extractLsb' 0 16))).append
    (mdioRelease_planned hmdio)⟩
  deliver := by simp [mdioWriteCommand]

end

/-- A command that passes the checks of 30_encoding.md R92 fits the parameters of its block. -/
theorem commandOf_fits {i : Instr} {s : State} (hp : s.params.wf) (hwf : i.wf s.params = true) :
    (commandOf i s).Fits s.params := by
  obtain ⟨-, -, -, -, ⟨hscl, hsda, -⟩, ⟨hmdc, hmdio, -⟩, -⟩ := hp
  cases i with
  | writeBit id lvl => exact writeBit_fits lvl (by simpa [Instr.wf, bitIdOk] using hwf)
  | readBit id => exact readBit_fits (by simpa [Instr.wf, bitIdOk] using hwf)
  | writeBits id count =>
    obtain ⟨-, hrange⟩ : _ ∧ id.toNat + count.toNat ≤ s.params.numBits := by
      simpa [Instr.wf, bitRangeOk] using hwf
    exact writeBits_fits _ hrange
  | readBits id count =>
    obtain ⟨-, hrange⟩ : _ ∧ id.toNat + count.toNat ≤ s.params.numBits := by
      simpa [Instr.wf, bitRangeOk] using hwf
    exact readBits_fits hrange
  | i2cWrite dev reg len => exact i2cWrite_fits hscl hsda dev reg len _
  | i2cRead dev reg len =>
    exact i2cRead_fits hscl hsda dev reg (by simpa [Instr.wf, lengthOk] using hwf)
  | mdioRead phy reg => exact mdioRead_fits hmdc hmdio phy reg
  | mdioWrite phy reg => exact mdioWrite_fits hmdc hmdio phy reg _

end Sys2Proof.Machine
end

section
/-! The position in a running command. `State.Midway` is `State.Underway` as it holds between two events, before `h.FSM`
has followed; cycles and events keep it, and it is `Underway` again where the sequencer pauses. That an
acknowledgment does not change which events have been issued already rests on the shape of the list
(`Planned`). -/

namespace Sys2Proof.Machine

/-! ### Acknowledgments and live events -/

/-- Without a NACK every event is live. -/
theorem live_of_all_acked {o : PinOp} {acks : List Bool} (h : true ∉ acks) :
    o.live acks = true := by
  have hall : ∀ a ∈ acks.take o.phase, (!a) = true := by
    intro a ha
    have hne : a ≠ true := fun heq => h (heq ▸ List.mem_of_mem_take ha)
    simpa using hne
  exact List.all_eq_true.2 hall

/-- After a NACK an event that is live asks only for acknowledgments sampled before it. -/
theorem phase_le_of_live {o : PinOp} {acks : List Bool} (hl : o.live acks = true)
    (h : true ∈ acks) : o.phase ≤ acks.length := by
  by_contra hlt
  have hall : (acks.take o.phase).all (fun a => !a) = true := hl
  rw [List.take_of_length_le (by omega)] at hall
  simpa using List.all_eq_true.1 hall true h

/-- A further acknowledgment is nothing to an event that does not ask for it. -/
theorem live_append_of_phase_le {o : PinOp} {acks : List Bool} (h : o.phase ≤ acks.length)
    (b : Bool) : o.live (acks ++ [b]) = o.live acks := by
  unfold PinOp.live
  rw [List.take_append_of_le_length h]

/-- `acks'` is `acks` after one event. -/
abbrev AcksNext (acks acks' : List Bool) : Prop :=
  acks' = acks ∨ ∃ b, acks' = acks ++ [b]

theorem live_next_of_phase_le {o : PinOp} {acks acks' : List Bool} (hn : AcksNext acks acks')
    (h : o.phase ≤ acks.length) : o.live acks' = o.live acks := by
  obtain rfl | ⟨b, rfl⟩ := hn
  · rfl
  · exact live_append_of_phase_le h b

theorem live_of_live_next {o : PinOp} {acks acks' : List Bool} (hn : AcksNext acks acks')
    (h : o.live acks' = true) : o.live acks = true := by
  obtain rfl | ⟨b, rfl⟩ := hn
  · exact h
  · by_contra hdead
    simp [dead_append b (Bool.eq_false_iff.2 hdead)] at h

/-- What is cut off before an event is cut off after it. -/
theorem filter_filter_next {acks acks' : List Bool} (hn : AcksNext acks acks') (ops : List PinOp) :
    (ops.filter fun o => o.live acks).filter (fun o => o.live acks') =
      ops.filter fun o => o.live acks' := by
  rw [List.filter_filter]
  refine List.filter_congr fun o _ => ?_
  cases h : o.live acks'
  · rfl
  · rw [live_of_live_next hn h, Bool.true_and]

/-- An acknowledgment leaves the events before it live, and can only cut off later ones. -/
theorem filter_live_next {ops l rest : List PinOp} {acks acks' : List Bool}
    (hn : AcksNext acks acks') (hf : ops.filter (fun o => o.live acks) = l ++ rest)
    (hl : ∀ q ∈ l, q.phase ≤ acks.length) :
    ops.filter (fun o => o.live acks') = l ++ rest.filter (fun o => o.live acks') := by
  have hkeep : l.filter (fun o => o.live acks') = l := by
    refine List.filter_eq_self.2 fun q hq => ?_
    have hlive := List.mem_filter.1 (hf ▸ List.mem_append_left rest hq)
    rw [live_next_of_phase_le hn (hl q hq)]
    exact hlive.2
  rw [← filter_filter_next hn, hf, List.filter_append, hkeep]

/-! ### The Protocol Session -/

/-- The staged data and the acknowledgments, every other hidden item at its reset value. -/
def Hidden.session (h : Hidden) : Hidden :=
  { Hidden.reset with rstage := h.rstage, bstage := h.bstage, acks := h.acks }

theorem store_acks_length (f : Fsm) (n id : Nat) (sink : Sink) (b : Bool) (h : Hidden) :
    (h.store sink b).acks.length = h.acks.length + (PinOp.rb f n id sink).samples := by
  cases sink <;> simp [Hidden.store, PinOp.samples]

/-- Replaying the events of a list samples its acknowledgments. -/
theorem replay_acks_length {p : Params} {l : List PinOp} {evs : List PinEvent}
    (hs : List.Forall₂ (fun o e => o.shows p e = true) l evs) (h : Hidden) :
    (Hidden.replay l evs h).acks.length = h.acks.length + (l.map PinOp.samples).sum := by
  induction hs generalizing h with
  | nil => rfl
  | @cons o e l evs hoe _ ih =>
    cases o with
    | wb f n id lvl =>
      have hr : Hidden.replay (.wb f n id lvl :: l) (e :: evs) h = Hidden.replay l evs h := rfl
      simp [hr, ih, PinOp.samples]
    | rb f n id sink =>
      cases e with
      | pinWr id' mask => simp [PinOp.shows] at hoe
      | pinRd id' b =>
        have hr : Hidden.replay (.rb f n id sink :: l) (.pinRd id' b :: evs) h =
          Hidden.replay l evs (h.store sink b) := rfl
        rw [hr, ih, store_acks_length f n id, List.map_cons, List.sum_cons, Nat.add_assoc]

/-- The event that `perform` puts on the port is the one it is to show. -/
theorem shows_eventOf (o : PinOp) (s : State) : o.shows s.params (s.eventOf o) = true := by
  cases o <;> simp [PinOp.shows, State.eventOf]

/-- Performing an event does to the session what replaying it does. -/
theorem perform_session (o : PinOp) (s : State) :
    (s.perform o).h.session = Hidden.replay [o] [s.eventOf o] s.h.session := by
  cases o with
  | wb f n id lvl => rfl
  | rb f n id sink => cases sink <;> rfl

/-! ### The position -/

/-- The events issued and those to come depend on the acknowledgments and on h.SEQ only. -/
theorem issued_congr {c : Command} {h h' : Hidden} (ha : h'.acks = h.acks) (hs : h'.seq = h.seq) :
    c.issued h' = c.issued h := by
  unfold Command.issued
  rw [ha, hs]

theorem remaining_congr {c : Command} {h h' : Hidden} (ha : h'.acks = h.acks)
    (hs : h'.seq = h.seq) : c.remaining h' = c.remaining h := by
  unfold Command.remaining
  rw [ha, hs]

/-- The framer state of the last event issued, IDLE before the first. -/
def Command.lastFsm (c : Command) (h : Hidden) : Fsm :=
  ((c.issued h).getLast?.map PinOp.fsm).getD .idle

theorem lastFsm_of_issued {c : Command} {h : Hidden} {l : List PinOp} {o : PinOp}
    (hi : c.issued h = l ++ [o]) : c.lastFsm h = o.fsm := by
  simp [Command.lastFsm, hi]

/-- With no event to come, h.FSM is that of the last event issued. -/
theorem fsmAt_of_end {c : Command} {h : Hidden} (hr : c.remaining h = []) :
    c.fsmAt h = c.lastFsm h := by
  unfold Command.fsmAt Command.lastFsm
  rw [hr]
  cases (c.issued h).getLast? <;> rfl

/-- With no settle delay running, h.FSM is that of the next event. -/
theorem fsmAt_of_settled {c : Command} {h : Hidden} {o : PinOp} {rest : List PinOp}
    (hr : c.remaining h = o :: rest) (hs : h.settle = 0) : c.fsmAt h = o.fsm := by
  unfold Command.fsmAt
  rw [hr]
  cases (c.issued h).getLast? <;> simp [hs]

/-- While a settle delay runs, h.FSM is still that of the last event issued. -/
theorem fsmAt_of_settling {c : Command} {h : Hidden} (hi : c.issued h ≠ []) (hs : h.settle ≠ 0) :
    c.fsmAt h = c.lastFsm h := by
  unfold Command.fsmAt Command.lastFsm
  rw [List.getLast?_eq_some_getLast hi]
  cases c.remaining h <;> simp [hs]

/-- `State.Underway` between two events: h.FSM is that of the last event, unless the next one can be
issued at once and h.FSM has not followed yet (10_state.md R35). -/
structure State.Midway (c : Command) (s : State) : Prop where
  seq : s.h.seq ≤ (c.ops.filter (fun o => o.live s.h.acks)).length
  start : s.h.seq = 0 → s.h.settle = 0
  events : ∃ before evs, s.env.trace = before ++ evs ∧
    List.Forall₂ (fun o e => o.shows s.params e = true) (c.issued s.h) evs ∧
    Hidden.replay (c.issued s.h) evs Hidden.reset = s.h.session
  fsm : (s.h.settle = 0 → c.remaining s.h = []) → s.h.fsm = c.lastFsm s.h

section
variable {c : Command} {s t : State}

theorem State.Midway.issued_length (h : s.Midway c) : (c.issued s.h).length = s.h.seq := by
  unfold Command.issued
  rw [List.length_take, Nat.min_eq_left h.seq]

/-- A settle delay runs only after an event. -/
theorem issued_ne_nil (hlen : (c.issued s.h).length = s.h.seq)
    (hstart : s.h.seq = 0 → s.h.settle = 0) (hs : s.h.settle ≠ 0) : c.issued s.h ≠ [] := by
  intro hnil
  rw [hnil] at hlen
  exact hs (hstart hlen.symm)

theorem State.Underway.midway (h : s.Underway c) : s.Midway c where
  seq := h.seq
  start := h.start
  events := h.events
  fsm := by
    intro hsettled
    rw [h.fsm]
    by_cases hs : s.h.settle = 0
    · exact fsmAt_of_end (hsettled hs)
    · exact fsmAt_of_settling (issued_ne_nil h.issued_length h.start hs) hs

theorem State.Midway.underway (h : s.Midway c) (hf : s.h.fsm = c.fsmAt s.h) : s.Underway c :=
  ⟨h.seq, h.start, h.events, hf⟩

theorem State.Midway.underway_of_end (h : s.Midway c) (hr : c.remaining s.h = []) :
    s.Underway c := by
  refine h.underway ?_
  rw [fsmAt_of_end hr]
  exact h.fsm fun _ => hr

/-- What the position depends on; a settle delay may have run down. -/
theorem State.Midway.congr (h : s.Midway c) (hp : t.params = s.params)
    (hseq : t.h.seq = s.h.seq) (hsettle : t.h.settle ≤ s.h.settle)
    (hses : t.h.session = s.h.session) (ht : t.env.trace = s.env.trace)
    (hfsm : (t.h.settle = 0 → c.remaining t.h = []) → t.h.fsm = s.h.fsm) : t.Midway c := by
  have hacks : t.h.acks = s.h.acks := by
    show t.h.session.acks = s.h.session.acks
    rw [hses]
  have hissued := issued_congr (c := c) hacks hseq
  have hremaining := remaining_congr (c := c) hacks hseq
  obtain ⟨before, evs, htr, hshows, hreplay⟩ := h.events
  refine ⟨by rw [hseq, hacks]; exact h.seq, fun h0 => ?_, ⟨before, evs, ?_, ?_, ?_⟩, fun hend => ?_⟩
  · have := h.start (hseq ▸ h0)
    omega
  · rw [ht, htr]
  · rw [hp, hissued]
    exact hshows
  · rw [hissued, hses]
    exact hreplay
  · have hlast : c.lastFsm t.h = c.lastFsm s.h := by
      unfold Command.lastFsm
      rw [hissued]
    rw [hfsm hend, hlast]
    refine h.fsm fun h0 => ?_
    rw [← hremaining]
    exact hend (by omega)

theorem State.Midway.elapse (h : s.Midway c) (n : Nat) : (s.elapse n).Midway c :=
  h.congr rfl rfl (Nat.sub_le _ _) rfl rfl fun _ => rfl

theorem State.Midway.settleDown (h : s.Midway c) : s.settleDown.Midway c := by
  obtain ⟨n, hn⟩ := settleDown_eq_elapse s
  rw [hn]
  exact h.elapse n

/-- Once h.FSM has followed, the state is that of its position. -/
theorem State.Midway.enter {o : PinOp} {rest : List PinOp} (h : s.Midway c)
    (hr : c.remaining s.h = o :: rest) : (s.enter o.fsm).Underway c := by
  by_cases hs : s.h.settle = 0
  · have hr' : c.remaining (s.enter o.fsm).h = o :: rest := by
      rw [remaining_congr (enter_acks _ s) (enter_seq _ s), hr]
    have hm : (s.enter o.fsm).Midway c :=
      h.congr (by simp) (by simp) (by simp) (by simp [Hidden.session]) (by simp) fun hend => by
        simp [hr', hs] at hend
    refine hm.underway ?_
    rw [fsmAt_of_settled hr' (by simpa using hs), enter_eq]
    exact if_pos hs
  · have hsame : s.enter o.fsm = s := if_neg hs
    rw [hsame]
    refine h.underway ?_
    rw [fsmAt_of_settling (issued_ne_nil h.issued_length h.start hs) hs]
    exact h.fsm fun h0 => absurd h0 hs

/-! ### One event further -/

/-- The acknowledgments so far are the samples of the events issued. -/
theorem State.Underway.acks_length (h : s.Underway c) :
    s.h.acks.length = ((c.issued s.h).map PinOp.samples).sum := by
  obtain ⟨before, evs, -, hshows, hreplay⟩ := h.events
  have hlen := replay_acks_length hshows Hidden.reset
  rw [hreplay] at hlen
  simpa [Hidden.reset] using hlen

/-- The events issued and the next one ask for no acknowledgment that has not been sampled. -/
theorem State.Underway.phase_le {o : PinOp} {rest : List PinOp} {m : Nat} (h : s.Underway c)
    (hc : Planned s.params 0 c.ops m) (hr : c.remaining s.h = o :: rest) :
    ∀ q ∈ c.issued s.h ++ [o], q.phase ≤ s.h.acks.length := by
  have hsplit := issued_append_remaining c s.h
  rw [hr] at hsplit
  by_cases hnack : true ∈ s.h.acks
  · intro q hq
    have hmem : q ∈ c.issued s.h ++ o :: rest := by
      rw [List.append_cons]
      exact List.mem_append_left rest hq
    rw [hsplit] at hmem
    exact phase_le_of_live (List.mem_filter.1 hmem).2 hnack
  · have hall : c.ops.filter (fun o => o.live s.h.acks) = c.ops :=
      List.filter_eq_self.2 fun _ _ => live_of_all_acked hnack
    rw [hall] at hsplit
    rw [← hsplit] at hc
    intro q hq
    have hle := hc.phase_le q hq
    rw [h.acks_length]
    omega

/-- Issuing the next event: it joins the events issued, and those still to come are the rest, less what a
NACK has cut off. -/
theorem State.Underway.perform {o : PinOp} {rest : List PinOp} {m : Nat} (h : s.Underway c)
    (hc : Planned s.params 0 c.ops m) (hr : c.remaining s.h = o :: rest) (hs : s.h.settle = 0) :
    (s.perform o).Midway c ∧
      c.remaining (s.perform o).h = rest.filter (fun q => q.live (s.perform o).h.acks) := by
  have hsplit := issued_append_remaining c s.h
  rw [hr, List.append_cons] at hsplit
  have hfilter := filter_live_next (perform_acks o s) hsplit.symm (h.phase_le hc hr)
  have hseq : (s.perform o).h.seq = (c.issued s.h ++ [o]).length := by
    rw [perform_seq, List.length_append, h.issued_length, List.length_singleton]
  have hissued : c.issued (s.perform o).h = c.issued s.h ++ [o] := by
    unfold Command.issued
    rw [hfilter, hseq]
    exact List.take_left
  have hremaining : c.remaining (s.perform o).h =
      rest.filter (fun q => q.live (s.perform o).h.acks) := by
    unfold Command.remaining
    rw [hfilter, hseq]
    exact List.drop_left
  obtain ⟨before, evs, htr, hshows, hreplay⟩ := h.events
  refine ⟨⟨?_, ?_, ⟨before, evs ++ [s.eventOf o], ?_, ?_, ?_⟩, fun _ => ?_⟩, hremaining⟩
  · rw [hfilter, hseq]
    exact (List.sublist_append_left _ _).length_le
  · simp
  · rw [perform_trace, htr, List.append_assoc]
  · rw [perform_params, hissued]
    exact List.rel_append hshows (.cons (shows_eventOf o s) .nil)
  · rw [hissued, replay_append hshows.length_eq, hreplay, perform_session]
    rfl
  · rw [lastFsm_of_issued hissued, perform_fsm, h.fsm, fsmAt_of_settled hr hs]

end

end Sys2Proof.Machine
end

section
/-! The invariant. `State.Sound` holds its clauses that speak neither of BUSY nor of the position; every operation keeps
them. A run of a command's events then ends in the middle of the command or at its commit (`run_restsIn`), and every
move of the machine keeps `State.Inv`. -/

namespace Sys2Proof.Machine

/-- The clauses of `State.Inv` that every single operation keeps. -/
structure State.Sound (s : State) : Prop where
  params : s.params.wf
  buf : s.x.buf.wf ∧ ∀ c ∈ s.x.buf, c.1 < s.params.bufBytes
  bstage : s.h.bstage.wf ∧ ∀ c ∈ s.h.bstage, c.1 < s.params.bufBytes
  settle : s.h.settle ≤ 65535 * s.params.clkPerUs
  advisory : s.x.advisory = true → s.x.result = .ok
  trace : ∀ e ∈ s.env.trace, e.legal s.params

theorem State.Inv.sound {s : State} (h : s.Inv) : s.Sound :=
  ⟨h.params, h.buf, h.bstage, h.settle, h.advisory, h.trace⟩

theorem State.Sound.inv_of_idle {s : State} (h : s.Sound) (hb : s.x.busy = false)
    (hh : s.h = { Hidden.reset with cur := s.h.cur }) : s.Inv where
  params := h.params
  buf := h.buf
  bstage := h.bstage
  idle := fun _ => hh
  settle := h.settle
  running := by simp [hb]
  advisory := h.advisory
  trace := h.trace

theorem State.Sound.inv_of_underway {i : Instr} {s : State} (h : s.Sound) (hb : s.x.busy = true)
    (hcmd : s.x.cmd = s.h.cur) (hd : decode s.h.cur = .ok i) (hwf : i.wf s.params = true)
    (hu : s.Underway (commandOf i s)) : s.Inv where
  params := h.params
  buf := h.buf
  bstage := h.bstage
  idle := by simp [hb]
  settle := h.settle
  running := fun _ => ⟨hcmd, i, hd, hwf, hu⟩
  advisory := h.advisory
  trace := h.trace

/-! ### Every operation keeps the clauses -/

section
variable {s t : State}

/-- What the clauses depend on; a settle delay may have run down. -/
theorem State.Sound.congr (h : s.Sound) (hp : t.params = s.params) (hbuf : t.x.buf = s.x.buf)
    (hadv : t.x.advisory = s.x.advisory) (hres : t.x.result = s.x.result)
    (hbstage : t.h.bstage = s.h.bstage) (hsettle : t.h.settle ≤ s.h.settle)
    (htrace : t.env.trace = s.env.trace) : t.Sound where
  params := hp ▸ h.params
  buf := by
    rw [hbuf, hp]
    exact h.buf
  bstage := by
    rw [hbstage, hp]
    exact h.bstage
  settle := by
    rw [hp]
    exact hsettle.trans h.settle
  advisory := by
    rw [hadv, hres]
    exact h.advisory
  trace := by
    rw [htrace, hp]
    exact h.trace

theorem State.Sound.elapse (h : s.Sound) (n : Nat) : (s.elapse n).Sound :=
  h.congr rfl rfl rfl rfl rfl (Nat.sub_le _ _) rfl

theorem State.Sound.settleDown (h : s.Sound) : s.settleDown.Sound := by
  obtain ⟨n, hn⟩ := settleDown_eq_elapse s
  rw [hn]
  exact h.elapse n

theorem State.Sound.enter (h : s.Sound) (f : Fsm) : (s.enter f).Sound :=
  h.congr (by simp) (by simp) (by simp) (by simp) (by simp) (by simp) (by simp)

/-- Both levels have a mask that the port may carry (40_bitbasher.md R100). -/
theorem levelMask_legal (p : Params) (lvl : Level) :
    levelMask p lvl = 2 ^ p.maskW - 1 ∨ levelMask p lvl = 0 := by
  cases lvl
  · exact .inl rfl
  · exact .inr rfl

theorem eventOf_legal {o : PinOp} (ho : o.Fits s.params) : (s.eventOf o).legal s.params := by
  cases o with
  | wb f n id lvl => exact ⟨ho, levelMask_legal _ lvl⟩
  | rb f n id sink => exact ho.1

/-- A settle delay is at most the longest that UDELAY can ask for. -/
theorem perform_settle_le (o : PinOp) (h : s.Sound) :
    (s.perform o).h.settle ≤ 65535 * s.params.clkPerUs := by
  cases o with
  | wb f n id lvl =>
    have hdelay : s.x.udelay.toNat ≤ 65535 := Nat.le_of_lt_succ s.x.udelay.isLt
    exact Nat.mul_le_mul_right _ hdelay
  | rb f n id sink =>
    have hsettle := h.settle
    rw [State.perform, pinRead_settle]
    omega

theorem perform_bstage {o : PinOp} (h : s.Sound) (ho : o.Fits s.params) :
    (s.perform o).h.bstage.wf ∧ ∀ c ∈ (s.perform o).h.bstage, c.1 < s.params.bufBytes := by
  cases o with
  | wb f n id lvl => exact h.bstage
  | rb f n id sink =>
    cases sink with
    | byte k j => exact ⟨Memory.write_wf h.bstage.1 k _, Memory.write_below h.bstage.2 ho.2 _⟩
    | word j => exact h.bstage
    | ack => exact h.bstage

theorem State.Sound.perform {o : PinOp} (h : s.Sound) (ho : o.Fits s.params) :
    (s.perform o).Sound where
  params := by simpa using h.params
  buf := by simpa using h.buf
  bstage := by simpa using perform_bstage h ho
  settle := by simpa using perform_settle_le o h
  advisory := by simpa using h.advisory
  trace := by
    rw [perform_trace, perform_params]
    intro e he
    obtain he | he := List.mem_append.1 he
    · exact h.trace e he
    · rw [List.mem_singleton.1 he]
      exact eventOf_legal ho

theorem advisory_ok {d : Deliver} {r : Result} {w : Word} (h : d.advisory r w = true) :
    r = .ok := by
  cases d with
  | phyWord => exact (by simpa [Deliver.advisory, advisoryOf] using h : r = .ok ∧ _).1
  | nothing | word | bytes n => simp [Deliver.advisory] at h

theorem State.Sound.finish {d : Deliver} (h : s.Sound) (r : Result)
    (hd : ∀ n, d = .bytes n → n ≤ s.params.bufBytes) : (s.finish d r).Sound where
  params := h.params
  buf := by
    obtain ⟨hwf, hbelow⟩ := h.buf
    cases d with
    | bytes n =>
      simp only [finish_buf, finish_params, Deliver.buf]
      split
      · exact ⟨Memory.copy_wf hwf n _, Memory.copy_below hbelow (hd n rfl) _⟩
      · exact h.buf
    | nothing | word | phyWord => exact h.buf
  bstage := ⟨⟨.nil, by simp [Hidden.reset]⟩, by simp [Hidden.reset]⟩
  settle := (Nat.sub_le _ _).trans h.settle
  advisory := advisory_ok
  trace := h.trace

theorem State.Sound.reject (h : s.Sound) (w : Word) : (s.reject w).Sound where
  params := h.params
  buf := h.buf
  bstage := h.bstage
  settle := h.settle
  advisory := by simp
  trace := h.trace

theorem State.Sound.accept (h : s.Sound) (w : Word) : (s.accept w).Sound where
  params := h.params
  buf := h.buf
  bstage := ⟨⟨.nil, by simp⟩, by simp⟩
  settle := h.settle
  advisory := h.advisory
  trace := h.trace

theorem State.Sound.hardReset (h : s.Sound) : s.hardReset.Sound where
  params := h.params
  buf := ⟨⟨.nil, by simp [Regs.reset]⟩, by simp [Regs.reset]⟩
  bstage := ⟨⟨.nil, by simp [Hidden.reset]⟩, by simp [Hidden.reset]⟩
  settle := Nat.zero_le _
  advisory := by simp [Regs.reset]
  trace := h.trace

/-- A register write at a legal offset changes none of the three flags of a command, and keeps BUF within its
bounds: BUF_BYTES is a multiple of 4, so all four bytes have a place. -/
theorem writeReg_keeps {off : Nat} (v : Word) (h : s.Sound) (h4 : off % 4 = 0) :
    (writeReg off v s).x.busy = s.x.busy ∧ (writeReg off v s).x.result = s.x.result ∧
    (writeReg off v s).x.advisory = s.x.advisory ∧ (writeReg off v s).x.buf.wf ∧
    ∀ c ∈ (writeReg off v s).x.buf, c.1 < s.params.bufBytes := by
  unfold writeReg
  split_ifs with _ _ _ hin
  · exact ⟨rfl, rfl, rfl, h.buf⟩
  · exact ⟨rfl, rfl, rfl, h.buf⟩
  · exact ⟨rfl, rfl, rfl, h.buf⟩
  · obtain ⟨-, -, -, ⟨-, -, hmul⟩, -⟩ := h.params
    have hoff := inBuf_iff.1 hin
    have hend : off - bufOffset + 3 < s.params.bufBytes := by
      unfold bufOffset
      omega
    exact ⟨rfl, rfl, rfl, Memory.writeWord_wf h.buf.1 _ v, Memory.writeWord_below h.buf.2 hend v⟩
  · exact ⟨rfl, rfl, rfl, h.buf⟩

theorem State.Sound.writeReg {off : Nat} (v : Word) (h : s.Sound) (h4 : off % 4 = 0) :
    (writeReg off v s).Sound := by
  obtain ⟨-, hres, hadv, hbuf⟩ := writeReg_keeps v h h4
  exact {
    params := by simpa using h.params
    buf := by simpa using hbuf
    bstage := by simpa using h.bstage
    settle := by simpa using h.settle
    advisory := by
      rw [hadv, hres]
      exact h.advisory
    trace := by simpa using h.trace }

end

/-! ### A run of a command's events -/

/-- `ops` are the events of `c` still to come in the middle of a run, some of them perhaps cut off already. -/
structure State.Ready (c : Command) (ops : List PinOp) (s : State) : Prop where
  sound : s.Sound
  fits : c.Fits s.params
  busy : s.x.busy = true
  midway : s.Midway c
  remaining : c.remaining s.h = ops.filter (fun o => o.live s.h.acks)

/-- Where a run of `c` leaves the machine: in the middle of the command, or idle again. -/
structure State.RestsIn (c : Command) (s : State) : Prop where
  sound : s.Sound
  underway : s.x.busy = true → s.Underway c
  idle : s.x.busy = false → s.h = { Hidden.reset with cur := s.h.cur }

theorem mem_ops_of_mem_remaining {c : Command} {o : PinOp} {h : Hidden} (ho : o ∈ c.remaining h) :
    o ∈ c.ops ∧ o.live h.acks = true :=
  List.mem_filter.1 (List.mem_of_mem_drop ho)

section
variable {c : Command} {o : PinOp} {ops : List PinOp} {s : State}

/-- A pause in the middle of the command. -/
theorem State.Ready.restsIn (h : s.Ready c ops) (hu : s.Underway c) : s.RestsIn c :=
  ⟨h.sound, fun _ => hu, by simp [h.busy]⟩

theorem State.Ready.settleDown (h : s.Ready c ops) : s.settleDown.Ready c ops where
  sound := h.sound.settleDown
  fits := by simpa using h.fits
  busy := by simpa using h.busy
  midway := h.midway.settleDown
  remaining := by
    rw [remaining_congr (settleDown_acks s) (settleDown_seq s), settleDown_acks, h.remaining]

/-- An event that a NACK has cut off is skipped. -/
theorem State.Ready.skip (h : s.Ready c (o :: ops)) (hdead : ¬o.live s.h.acks = true) :
    s.Ready c ops where
  sound := h.sound
  fits := h.fits
  busy := h.busy
  midway := h.midway
  remaining := by rw [h.remaining, List.filter_cons, if_neg hdead]

theorem State.Ready.remaining_cons (h : s.Ready c (o :: ops)) (hlive : o.live s.h.acks = true) :
    c.remaining s.h = o :: ops.filter (fun q => q.live s.h.acks) := by
  rw [h.remaining, List.filter_cons, if_pos hlive]

/-- Before the next event h.FSM follows. -/
theorem State.Ready.enter (h : s.Ready c (o :: ops)) (hlive : o.live s.h.acks = true) :
    (s.enter o.fsm).Underway c ∧ (s.enter o.fsm).Ready c (o :: ops) := by
  have hu := h.midway.enter (h.remaining_cons hlive)
  exact ⟨hu, {
    sound := h.sound.enter o.fsm
    fits := by simpa using h.fits
    busy := by simpa using h.busy
    midway := hu.midway
    remaining := by
      rw [remaining_congr (enter_acks _ s) (enter_seq _ s), enter_acks, h.remaining] }⟩

/-- The next event is issued. -/
theorem State.Ready.perform (h : s.Ready c (o :: ops)) (hu : s.Underway c)
    (hlive : o.live s.h.acks = true) (hsettle : s.h.settle = 0) : (s.perform o).Ready c ops := by
  obtain ⟨m, hplan⟩ := h.fits.planned
  have hcons := h.remaining_cons hlive
  obtain ⟨hmem, -⟩ := mem_ops_of_mem_remaining (hcons ▸ List.mem_cons_self : o ∈ c.remaining s.h)
  obtain ⟨hmidway, hremaining⟩ := hu.perform hplan hcons hsettle
  exact {
    sound := h.sound.perform (hplan.fits o hmem)
    fits := by simpa using h.fits
    busy := by simpa using h.busy
    midway := hmidway
    remaining := by rw [hremaining, filter_filter_next (perform_acks o s)] }

/-- The commit after the last event: the settle delay is over, so every hidden item but h.CUR is at its
reset value. -/
theorem State.Ready.finish (h : s.Ready c []) (r : Result) (hsettle : s.h.settle = 0) :
    (s.finish c.deliver r).RestsIn c where
  sound := h.sound.finish r h.fits.deliver
  underway := by simp
  idle := by simp [hsettle, Hidden.reset]

/-- A run by its events: each is issued, is skipped after a NACK, or waits for the host's request, and the
commit follows the last. -/
theorem run_restsIn (h : s.Ready c ops) : (run c ops s).RestsIn c := by
  induction ops generalizing s with
  | nil =>
    have ht := h.settleDown
    simp only [run]
    split
    · exact ht.restsIn (ht.midway.underway_of_end ht.remaining)
    · rename_i hdue
      exact ht.finish _ (settle_zero_of_not_due (by simpa using hdue))
  | cons o rest ih =>
    simp only [run]
    split
    · rename_i hlive
      have hlive' : o.live s.settleDown.h.acks = true := by rw [settleDown_acks, hlive]
      obtain ⟨hu, ht⟩ := h.settleDown.enter hlive'
      split
      · exact ht.restsIn hu
      · rename_i hdue
        refine ih (ht.perform hu (by rw [enter_acks, hlive']) ?_)
        rw [enter_settle]
        exact settle_zero_of_not_due (by simpa using hdue)
    · exact ih (h.skip ‹_›)

end

/-- A run of a legal command that CMD holds leaves a state with the invariant. -/
theorem run_inv {i : Instr} {ops : List PinOp} {s : State} (hS : s.Sound)
    (hb : s.x.busy = true) (hcmd : s.x.cmd = s.h.cur) (hd : decode s.h.cur = .ok i)
    (hwf : i.wf s.params = true) (hm : s.Midway (commandOf i s))
    (hr : (commandOf i s).remaining s.h = ops.filter (fun o => o.live s.h.acks)) :
    (run (commandOf i s) ops s).Inv := by
  have hrest := run_restsIn ⟨hS, commandOf_fits hS.params hwf, hb, hm, hr⟩
  obtain ⟨hp, hcmd', harg, -, -, hcur⟩ := run_frame (commandOf i s) ops s
  obtain ⟨hx, -⟩ | ⟨t, -, -, -, ht⟩ := run_cases (commandOf i s) ops s
  · have hbusy : (run (commandOf i s) ops s).x.busy = true := by rw [hx, hb]
    refine hrest.sound.inv_of_underway (i := i) hbusy (by rw [hcmd', hcmd, hcur])
      (by rw [hcur, hd]) (by rw [hp, hwf]) ?_
    rw [commandOf_congr hp harg (by rw [hx])]
    exact hrest.underway hbusy
  · have hidle : (run (commandOf i s) ops s).x.busy = false := by rw [ht, finish_busy]
    exact hrest.sound.inv_of_idle hidle (hrest.idle hidle)

/-! ### Every move keeps the invariant -/

/-- An accepted command is at its first event. -/
theorem accept_midway {c : Command} {s : State} (w : Word) (hsettle : s.h.settle = 0)
    (hfsm : s.h.fsm = .idle) : (s.accept w).Midway c where
  seq := Nat.zero_le _
  start := fun _ => hsettle
  events := ⟨s.env.trace, [], by simp, .nil, rfl⟩
  fsm := fun _ => hfsm

/-- What the invariant depends on: neither WDROP, nor the host's requests and their answers. -/
theorem State.Inv.congr {s t : State} (h : s.Inv) (hp : t.params = s.params)
    (hx : t.x = { s.x with wdrop := t.x.wdrop }) (hh : t.h = s.h)
    (htrace : t.env.trace = s.env.trace) : t.Inv := by
  have hS : t.Sound := h.sound.congr hp (by rw [hx]) (by rw [hx]) (by rw [hx]) (by rw [hh])
    (by rw [hh]) htrace
  have hb : t.x.busy = s.x.busy := by rw [hx]
  cases hbs : s.x.busy with
  | false => exact hS.inv_of_idle (hb.trans hbs) (by rw [hh]; exact h.idle hbs)
  | true =>
    obtain ⟨hcmd, i, hd, hwf, hu⟩ := h.running hbs
    have hm : t.Midway (commandOf i s) := hu.midway.congr hp (by rw [hh]) (by rw [hh])
      (by rw [hh]) htrace fun _ => by rw [hh]
    refine hS.inv_of_underway (i := i) (hb.trans hbs) (by rw [hx, hh, ← hcmd]) (by rw [hh, hd])
      (by rw [hp, hwf]) ?_
    rw [commandOf_congr hp (by rw [hx]) (by rw [hx])]
    exact hm.underway (by rw [hh]; exact hu.fsm)

theorem Served.inv {s t : State} (h : Served s t) (hI : s.Inv) : t.Inv := by
  cases h with
  | reply off => exact hI.congr rfl rfl rfl rfl
  | drop hb => exact hI.congr rfl rfl rfl rfl
  | reject w hb => exact (hI.sound.reject w).inv_of_idle hb (hI.idle hb)
  | accept i hb hwf =>
    have hidle := hI.idle hb
    have hm : (s.accept (encode i)).Midway (commandOf i s) :=
      accept_midway _ (by rw [hidle]; rfl) (by rw [hidle]; rfl)
    exact run_inv (i := i) (s := s.accept (encode i)) (hI.sound.accept _) rfl rfl
      (decode_encode i) hwf hm rfl
  | store off v hb h4 =>
    have hbusy := (writeReg_keeps v hI.sound h4).1.trans hb
    refine (hI.sound.writeReg v h4).inv_of_idle hbusy ?_
    rw [writeReg_h]
    exact hI.idle hb
  | reset => exact hI.sound.hardReset.inv_of_idle rfl rfl

theorem Moved.inv {s t : State} (h : Moved s t) (hI : s.Inv) : t.Inv := by
  cases h with
  | serve rest h => exact h.inv (hI.congr rfl rfl rfl rfl)
  | resume i hb hd =>
    obtain ⟨hcmd, j, hj, hwf, hu⟩ := hI.running hb
    obtain rfl : i = j := by simpa [hd] using hj
    have hlive : ∀ o ∈ (commandOf i s).remaining s.h, o.live s.h.acks = true :=
      fun o ho => (mem_ops_of_mem_remaining ho).2
    exact run_inv hI.sound hb hcmd hd hwf hu.midway (List.filter_eq_self.2 hlive).symm
  | wait n hb =>
    refine (hI.sound.elapse n).inv_of_idle hb ?_
    show { s.h with settle := s.h.settle - n } = { Hidden.reset with cur := s.h.cur }
    rw [hI.idle hb]
    simp [Hidden.reset]

/-- Settles O51: every step is one of the moves; a run of events keeps the position of its command
(`run_restsIn`), every other move an idle block or the command where it stands. -/
theorem stepKeepsInvariant : Obligations.StepKeepsInvariant :=
  fun _ _ hI h => (moved_of_step h).inv hI

end Sys2Proof.Machine
end

section
/-! The registers as the host reads and writes them: a field of the STATUS word and a byte of a BUF
word where they are placed, the reserved offsets, and the write of a command word to CMD. -/

namespace Sys2Proof.Machine

/-! ### The words of BUF and of STATUS -/

/-- Byte `j` of a word of BUF is at bits `8j+7 : 8j` (20_memory.md R61). -/
theorem extract_readWord (m : Memory) (k : Nat) {j : Nat} (hj : j < 4) :
    (m.readWord k).extractLsb' (8 * j) 8 = m.read (k + j) := by
  unfold Memory.readWord
  interval_cases j <;> simp [BitVec.extractLsb'_or, extract_place_same, extract_place_apart]

theorem statusWord_busy (x : Regs) : (statusWord x).getLsbD 0 = x.busy := by
  simp [statusWord]

theorem statusWord_result (x : Regs) : (statusWord x).extractLsb' 1 2 = x.result.code := by
  simp [statusWord, BitVec.extractLsb'_or, extract_place_same, extract_place_apart]

theorem statusWord_advisory (x : Regs) : (statusWord x).getLsbD 3 = x.advisory := by
  simp [statusWord]

theorem statusWord_wdrop (x : Regs) : (statusWord x).getLsbD 4 = x.wdrop := by
  simp [statusWord]

theorem statusWord_reserved (x : Regs) {j : Nat} (hj : 5 ≤ j) :
    (statusWord x).getLsbD j = false := by
  simp [statusWord, BitVec.getLsbD_of_ge _ _ (show 1 ≤ j - 4 by omega),
    BitVec.getLsbD_of_ge _ _ (show 1 ≤ j - 3 by omega),
    BitVec.getLsbD_of_ge _ _ (show 2 ≤ j - 1 by omega),
    BitVec.getLsbD_of_ge _ _ (show 1 ≤ j by omega)]

/-! ### The register map (20_memory.md R64) -/

theorem readReg_buf {s : State} {k : Nat} (hk : 4 * k < s.params.bufBytes) :
    readReg s (0x40 + 4 * k) = s.x.buf.readWord (4 * k) := by
  have hin : inBuf s.params (0x40 + 4 * k) = true := inBuf_iff.2 (by omega)
  unfold readReg
  rw [if_neg (by omega), if_neg (by omega), if_neg (by omega), if_neg (by omega),
    if_neg (by omega), if_pos hin]
  simp [bufOffset]

theorem writeReg_buf {s : State} {k : Nat} (v : Word) (hk : 4 * k < s.params.bufBytes) :
    writeReg (0x40 + 4 * k) v s =
      { s with x := { s.x with buf := s.x.buf.writeWord (4 * k) v } } := by
  have hin : inBuf s.params (0x40 + 4 * k) = true := inBuf_iff.2 (by omega)
  unfold writeReg
  rw [if_neg (by omega), if_neg (by omega), if_neg (by omega), if_pos hin]
  simp [bufOffset]

/-- Above the word registers and outside BUF nothing is held (10_state.md R32). -/
theorem readReg_reserved {s : State} {off : Nat} (h : 0x14 ≤ off)
    (hout : ¬inBuf s.params off = true) : readReg s off = 0#32 := by
  unfold readReg
  rw [if_neg (by omega), if_neg (by omega), if_neg (by omega), if_neg (by omega),
    if_neg (by omega), if_neg hout]

/-- From RDATA on, only BUF takes a write (10_state.md R30, R32). -/
theorem writeReg_ignored {s : State} {off : Nat} (v : Word) (h : 0x10 ≤ off)
    (hout : ¬inBuf s.params off = true) : writeReg off v s = s := by
  unfold writeReg
  rw [if_neg (by omega), if_neg (by omega), if_neg (by omega), if_neg hout]

/-! ### A write to an idle block -/

theorem step_regWrite {s : State} {off : Nat} {v : Word} {rest : List HostInput}
    (h : s.env.host = ⟨0, .write (s.params.base + off) 4 v⟩ :: rest) (hb : s.x.busy = false)
    (h0 : 0 < off) (ho : off < 0x80) (h4 : off % 4 = 0) :
    step s = .next (writeReg off v (s.withHost rest)) := by
  rw [step_write h ho h4, hb, if_neg (by simp), if_neg (by omega)]

theorem step_cmdWrite {s : State} {w : Word} {rest : List HostInput}
    (h : s.env.host = ⟨0, .write s.params.base 4 w⟩ :: rest) (hb : s.x.busy = false) :
    step s = writeCmd w (s.withHost rest) := by
  rw [step_write (off := 0) h (by decide) rfl, hb, if_neg (by simp), if_pos rfl]

theorem writeCmd_of_decode {w : Word} {i : Instr} (hd : decode w = .ok i) (s : State) :
    writeCmd w s = exec i s := by
  simp [writeCmd, hd]

theorem withFetchWord_toNat (s : State) (w : Word) :
    s.withFetchWord 32 w.toNat = s.withCmdWrite w := by
  simp [State.withFetchWord, Nat.mod_eq_of_lt w.isLt]

/-- Taking the placed request gives the idle state back. -/
theorem withHost_withCmdWrite {s : State} (w : Word) (hb : s.x.busy = false) :
    (s.withCmdWrite w).withHost s.env.host = s := by
  have hx : { s.x with busy := false } = s.x := by rw [← hb]
  simp [State.withHost, State.withCmdWrite, hx]

/-! ### The statements about the registers and the host port -/

/-- Settles O15: the register map, and each byte of a BUF word where it is placed. -/
theorem registerReads : Obligations.RegisterReads := by
  intro s
  refine ⟨rfl, ?_, rfl, rfl, fun k j hk hj => ?_⟩
  · show (s.x.udelay.setWidth 32).toNat = s.x.udelay.toNat
    exact BitVec.toNat_setWidth_of_le (by decide)
  · rw [readReg_buf hk, extract_readWord _ _ hj]

/-- Settles O16: each field of the STATUS word where it is placed. -/
theorem statusFields : Obligations.StatusFields := by
  intro s
  refine ⟨statusWord_busy s.x, ?_, statusWord_advisory s.x, statusWord_wdrop s.x,
    fun j hj => statusWord_reserved s.x hj⟩
  refine (statusWord_result s.x).trans ?_
  cases s.x.result <;> rfl

/-- Settles O17: a reserved offset lies outside BUF and above the word registers. -/
theorem reservedOffsets : Obligations.ReservedOffsets := by
  intro s off v rest h4 hoff
  have hlow : 0x14 ≤ off := by omega
  have hout : ¬inBuf s.params off = true := fun hin => by
    have := inBuf_iff.1 hin
    omega
  refine ⟨readReg_reserved hlow hout, fun h => ?_⟩
  cases hb : s.x.busy with
  | true =>
    rw [step_write h (by omega) h4, if_pos hb, Bool.or_true]
    rfl
  | false =>
    rw [step_regWrite h hb (by omega) (by omega) h4,
      writeReg_ignored (s := s.withHost rest) v (by omega) hout, Bool.or_false]
    rfl

/-- Settles O18: the write arms of the four registers, RDATA's being that of an ignored offset. -/
theorem idleRegisterWrites : Obligations.IdleRegisterWrites := by
  intro s off v rest hb h
  refine ⟨?_, ?_, ?_, ?_⟩
  · rintro rfl
    have hclear : wdropAfterWrite s.x.wdrop v = if v.getLsbD 4 then false else s.x.wdrop := by
      unfold wdropAfterWrite
      cases v.getLsbD 4 <;> simp
    rw [step_regWrite h hb (by decide) (by decide) rfl, ← hclear]
    rfl
  · rintro rfl
    exact step_regWrite h hb (by decide) (by decide) rfl
  · rintro rfl
    exact step_regWrite h hb (by decide) (by decide) rfl
  · rintro rfl
    have hout : ¬inBuf s.params 0x10 = true := fun hin => by
      have := inBuf_iff.1 hin
      omega
    rw [step_regWrite h hb (by decide) (by decide) rfl,
      writeReg_ignored (s := s.withHost rest) v le_rfl hout]

/-- Settles O19: the write arm of BUF stores one word, and BUF_BYTES is at most 64, so all of BUF is
inside the window. -/
theorem bufferWrite : Obligations.BufferWrite := by
  intro s k v rest hp hbuf hb hk h
  obtain ⟨-, -, -, ⟨-, hmax, -⟩, -⟩ := hp
  refine ⟨s.x.buf.writeWord (4 * k) v, ?_, Memory.writeWord_wf hbuf _ v, fun j hj => ?_,
    fun a ha => ?_⟩
  · rw [step_regWrite h hb (by omega) (by omega) (by omega),
      writeReg_buf (s := s.withHost rest) v hk]
    rfl
  · rw [Memory.read_writeWord hbuf, if_pos (by omega), Nat.add_sub_cancel_left]
  · rw [Memory.read_writeWord hbuf, if_neg (by omega)]

/-- Settles O7: the request is a write to offset 0, and CMD's write decodes the word. -/
theorem stepRunsDecodedCommand : Obligations.StepRunsDecodedCommand := by
  intro s w i rest h hb hd
  rw [step_cmdWrite h hb, writeCmd_of_decode hd]

/-- Settles O8: the placed request is due at once, and taking it gives the state back. -/
theorem fetchWordRunsNext : Obligations.FetchWordRunsNext := by
  intro s w i hb hd
  rw [withFetchWord_toNat, step_cmdWrite (withCmdWrite_host w s) rfl, writeCmd_of_decode hd,
    withHost_withCmdWrite w hb]

/-- Settles O12: every command is issued, and issuing checks BUSY first. -/
theorem commandWhileBusyDropped : Obligations.CommandWhileBusyDropped := by
  intro s i hb
  rw [exec_eq_issue]
  exact if_pos hb

/-- Settles O13: with BUSY 1 the write arm drops at every offset, and a read only answers. -/
theorem busyHostAccess : Obligations.BusyHostAccess := by
  intro s off v rest hb ho h4
  refine ⟨fun h => ?_, fun h => step_read h ho h4⟩
  rw [step_write h ho h4]
  exact if_pos hb

end Sys2Proof.Machine
end

section
/-! Which words are commands. A word with opcode `n` and zero reserved bits has the match value of
row `n` of 30_encoding.md R89, and such a word is put together from its fields; so a word that R92
does not call illegal is the encoding of a well-formed command. -/

namespace Sys2Proof.Machine

/-! ### A word is its fields -/

/-- A row's mask is its reserved bits and the opcode. -/
theorem row_of_opcode {w reserved : Word} {n : Nat} (hop : fieldOf w 0 4 = n)
    (hz : w &&& reserved = 0#32) : w &&& (reserved ||| 0xF#32) = BitVec.ofNat 32 n := by
  have hlow : w &&& 0xF#32 = (w.extractLsb' 0 4).setWidth 32 := by
    refine BitVec.eq_of_getLsbD_eq fun i hi => ?_
    interval_cases i <;> simp
  rw [BitVec.and_or_distrib_left, hz, BitVec.zero_or, hlow, ← hop, fieldOf, BitVec.ofNat_toNat]

theorem formatB1_of_row {w : Word} {op : BitVec 4} (h : w &&& 0xFFFE00FF#32 = op.setWidth 32) :
    formatB1 op (w.getLsbD 16) (w.extractLsb' 8 8) = w := by
  refine BitVec.eq_of_getLsbD_eq fun i hi => ?_
  have hbit := masked_eq_iff.1 h i hi
  interval_cases i <;> simp_all [formatB1]

/-- READ_BIT's row reserves LEVEL too. -/
theorem formatB1_of_row_noLevel {w : Word} {op : BitVec 4}
    (h : w &&& 0xFFFF00FF#32 = op.setWidth 32) : formatB1 op false (w.extractLsb' 8 8) = w := by
  refine BitVec.eq_of_getLsbD_eq fun i hi => ?_
  have hbit := masked_eq_iff.1 h i hi
  interval_cases i <;> simp_all [formatB1]

theorem formatBM_of_row {w : Word} {op : BitVec 4} (h : w &&& 0xFFC000FF#32 = op.setWidth 32) :
    formatBM op (w.extractLsb' 8 8) (w.extractLsb' 16 6) = w := by
  refine BitVec.eq_of_getLsbD_eq fun i hi => ?_
  have hbit := masked_eq_iff.1 h i hi
  interval_cases i <;> simp_all [formatBM]

theorem formatI2_of_row {w : Word} {op : BitVec 4} (h : w &&& 0x000080FF#32 = op.setWidth 32) :
    formatI2 op (w.extractLsb' 8 7) (w.extractLsb' 16 8) (w.extractLsb' 24 8) = w := by
  refine BitVec.eq_of_getLsbD_eq fun i hi => ?_
  have hbit := masked_eq_iff.1 h i hi
  interval_cases i <;> simp_all [formatI2]

theorem formatMD_of_row {w : Word} {op : BitVec 4} (h : w &&& 0xFFE0E0FF#32 = op.setWidth 32) :
    formatMD op (w.extractLsb' 8 5) (w.extractLsb' 16 5) = w := by
  refine BitVec.eq_of_getLsbD_eq fun i hi => ?_
  have hbit := masked_eq_iff.1 h i hi
  interval_cases i <;> simp_all [formatMD]

/-! ### The checks of 30_encoding.md R92 -/

theorem bitRangeOk_of_fieldOf {p : Params} {w : Word}
    (h : fieldOf w 16 6 ≤ 32 ∧ fieldOf w 8 8 < p.numBits ∧
      fieldOf w 8 8 + fieldOf w 16 6 ≤ p.numBits) :
    bitRangeOk p (w.extractLsb' 8 8) (w.extractLsb' 16 6) = true := by
  obtain ⟨hcount, hid, hend⟩ := h
  unfold bitRangeOk
  rw [Bool.and_eq_true, Bool.and_eq_true]
  exact ⟨⟨decide_eq_true hcount, decide_eq_true hid⟩, decide_eq_true hend⟩

theorem toBit_ofBit (b : Bool) : (Level.ofBit b).toBit = b := by
  cases b <;> rfl

/-- The checks of 30_encoding.md R92, for a word that passes them all. -/
theorem checks_of_legalWord {p : Params} {w : Word} (h : illegalWord p w = false) :
    fieldOf w 0 4 ≠ 0 ∧ fieldOf w 0 4 < 9 ∧
    (fieldOf w 0 4 = 1 → w &&& 0xFFFE00F0#32 = 0#32) ∧
    (fieldOf w 0 4 = 2 → w &&& 0xFFFF00F0#32 = 0#32) ∧
    (fieldOf w 0 4 = 3 ∨ fieldOf w 0 4 = 4 → w &&& 0xFFC000F0#32 = 0#32) ∧
    (fieldOf w 0 4 = 5 ∨ fieldOf w 0 4 = 6 → w &&& 0x000080F0#32 = 0#32) ∧
    (fieldOf w 0 4 = 7 ∨ fieldOf w 0 4 = 8 → w &&& 0xFFE0E0F0#32 = 0#32) ∧
    (fieldOf w 0 4 = 1 ∨ fieldOf w 0 4 = 2 → fieldOf w 8 8 < p.numBits) ∧
    (fieldOf w 0 4 = 3 ∨ fieldOf w 0 4 = 4 → fieldOf w 16 6 ≤ 32 ∧
      fieldOf w 8 8 < p.numBits ∧ fieldOf w 8 8 + fieldOf w 16 6 ≤ p.numBits) ∧
    (fieldOf w 0 4 = 5 ∨ fieldOf w 0 4 = 6 → fieldOf w 24 8 ≤ p.bufBytes) := by
  simpa [illegalWord, and_assoc] using h

/-- A word that fails none of the five checks is the word of a well-formed command: by its opcode,
the fields of its format are the operands, and the checks on them are those of `Instr.wf`. -/
theorem command_of_legalWord {p : Params} {w : Word} (h : illegalWord p w = false) :
    ∃ i : Instr, encode i = w ∧ i.wf p = true := by
  obtain ⟨hlow, hhigh, hwb, hrb, hbm, hi2, hmd, hid, hrange, hlen⟩ := checks_of_legalWord h
  generalize hop : fieldOf w 0 4 = op at *
  interval_cases op
  · exact absurd rfl hlow
  · refine ⟨.writeBit (w.extractLsb' 8 8) (.ofBit (w.getLsbD 16)), ?_,
      decide_eq_true (hid (.inl rfl))⟩
    rw [encode, toBit_ofBit]
    exact formatB1_of_row (row_of_opcode hop (hwb rfl))
  · exact ⟨.readBit (w.extractLsb' 8 8),
    formatB1_of_row_noLevel (row_of_opcode hop (hrb rfl)), decide_eq_true (hid (.inr rfl))⟩
  · exact ⟨.writeBits (w.extractLsb' 8 8) (w.extractLsb' 16 6),
    formatBM_of_row (row_of_opcode hop (hbm (.inl rfl))), bitRangeOk_of_fieldOf (hrange (.inl rfl))⟩
  · exact ⟨.readBits (w.extractLsb' 8 8) (w.extractLsb' 16 6),
    formatBM_of_row (row_of_opcode hop (hbm (.inr rfl))), bitRangeOk_of_fieldOf (hrange (.inr rfl))⟩
  · exact ⟨.i2cWrite (w.extractLsb' 8 7) (w.extractLsb' 16 8) (w.extractLsb' 24 8),
    formatI2_of_row (row_of_opcode hop (hi2 (.inl rfl))), decide_eq_true (hlen (.inl rfl))⟩
  · exact ⟨.i2cRead (w.extractLsb' 8 7) (w.extractLsb' 16 8) (w.extractLsb' 24 8),
    formatI2_of_row (row_of_opcode hop (hi2 (.inr rfl))), decide_eq_true (hlen (.inr rfl))⟩
  · exact ⟨.mdioRead (w.extractLsb' 8 5) (w.extractLsb' 16 5),
    formatMD_of_row (row_of_opcode hop (hmd (.inl rfl))), rfl⟩
  · exact ⟨.mdioWrite (w.extractLsb' 8 5) (w.extractLsb' 16 5),
    formatMD_of_row (row_of_opcode hop (hmd (.inr rfl))), rfl⟩

/-! ### What an accepted command does -/

/-- No command has BAD_COMMAND among its results (60_exceptions.md R203). -/
theorem resultOf_ne_badCommand {c : Command} (h : Result.badCommand ∉ c.nackResults)
    (acks : List Bool) : c.resultOf acks ≠ .badCommand := by
  unfold Command.resultOf
  split
  · simp
  · rename_i j _
    rw [List.getD_eq_getElem?_getD]
    cases hj : c.nackResults[j]? with
    | none => simp
    | some r =>
      rintro rfl
      exact h (List.mem_of_getElem? hj)

theorem badCommand_notMem_nackResults (i : Instr) (s : State) :
    Result.badCommand ∉ (commandOf i s).nackResults := by
  cases i with
  | writeBit | readBit | writeBits | readBits | mdioRead | mdioWrite => exact List.not_mem_nil
  | i2cWrite | i2cRead => simp [commandOf, i2cWriteCommand, i2cReadCommand]

/-- A well-formed command given to an idle block is accepted and runs. -/
theorem exec_of_wf {i : Instr} {s : State} (hb : s.x.busy = false) (hwf : i.wf s.params = true) :
    exec i s = .next (run (commandOf i s) (commandOf i s).ops (s.accept (encode i))) := by
  rw [exec_eq_issue, issue, hb, hwf, if_neg (by simp), if_pos rfl]

/-- Settles O10: a legal word is the word of a well-formed command; its run pauses with the
registers of the accept, or commits after the settle delay is over. -/
theorem legalWordAccepted : Obligations.LegalWordAccepted := by
  intro s w rest h hb hlegal
  obtain ⟨i, rfl, hwf⟩ := command_of_legalWord hlegal
  have hstep := (step_cmdWrite h hb).trans (writeCmd_of_decode (decode_encode i) _)
  rw [exec_of_wf (s := s.withHost rest) hb hwf] at hstep
  have hbad := badCommand_notMem_nackResults i (s.withHost rest)
  generalize commandOf i (s.withHost rest) = c at hstep hbad
  obtain ⟨-, hcmd, -, -, -, hcur⟩ := run_frame c c.ops ((s.withHost rest).accept (encode i))
  refine ⟨_, hstep, hcmd, hcur, ?_⟩
  obtain ⟨hx, -⟩ | ⟨t, -, hsettle, -, ht⟩ := run_cases c c.ops ((s.withHost rest).accept (encode i))
  · rw [hx]
    exact ⟨fun _ => rfl, fun hidle => absurd hidle (by simp)⟩
  · rw [ht] at hcur ⊢
    refine ⟨fun hbusy => absurd hbusy (by simp), fun _ => ⟨resultOf_ne_badCommand hbad _, ?_⟩⟩
    have hcur : t.h.cur = encode i := hcur
    rw [finish_h, hsettle, hcur]
    rfl

end Sys2Proof.Machine
end

section
/-! What holds while a command runs: a step that leaves BUSY at 1 keeps the operands and the
previous results, a running command shows the framer states of its own protocol only, and reset is
where the invariant begins. -/

namespace Sys2Proof.Machine

/-! ### The registers of a running command -/

/-- From `s` to `t` no register but CMD, BUSY and WDROP changes, and BUSY is 1 in `t`. -/
def State.HoldsTo (s t : State) : Prop :=
  t.x = { s.x with cmd := t.x.cmd, busy := true, wdrop := t.x.wdrop }

theorem writeReg_busy (off : Nat) (v : Word) (s : State) :
    (writeReg off v s).x.busy = s.x.busy := by
  unfold writeReg
  split_ifs <;> rfl

/-- A run that has not committed has changed no register. -/
theorem run_x_of_busy {c : Command} {ops : List PinOp} {s : State}
    (hb : (run c ops s).x.busy = true) : (run c ops s).x = s.x := by
  obtain ⟨hx, -⟩ | ⟨t, -, -, -, ht⟩ := run_cases c ops s
  · exact hx
  · simp [ht] at hb

theorem State.HoldsTo.of_x_eq {s t : State} (hx : t.x = s.x) (hb : t.x.busy = true) :
    s.HoldsTo t := by
  unfold State.HoldsTo
  rw [hx] at hb ⊢
  rw [← hb]

theorem Served.holdsTo {s t : State} (h : Served s t) (hb : t.x.busy = true) : s.HoldsTo t := by
  cases h with
  | reply off => exact .of_x_eq rfl hb
  | drop hbs => simp [State.HoldsTo, hbs]
  | reject w hidle => simp [hidle] at hb
  | accept i hidle hwf =>
    unfold State.HoldsTo
    rw [run_x_of_busy hb]
    rfl
  | store off v hidle h4 => simp [writeReg_busy, hidle] at hb
  | reset => simp [Regs.reset] at hb

theorem Moved.holdsTo {s t : State} (h : Moved s t) (hb : t.x.busy = true) : s.HoldsTo t := by
  cases h with
  | serve rest h => exact h.holdsTo hb
  | resume i hbs hd => exact .of_x_eq (run_x_of_busy hb) hb
  | wait n hidle => simp [hidle] at hb

/-- Settles O41: of the moves, only a commit, an idle block's register write and the reset change
another register, and after each of them BUSY is 0. -/
theorem registersHoldWhileBusy : Obligations.RegistersHoldWhileBusy :=
  fun _ _ h hb => (moved_of_step h).holdsTo hb

/-! ### The framer states of a command's events (41_i2c.md R131, 42_mdio.md R171) -/

/-- Every event of the list runs in one of the framer states `fs`. -/
def ShowsOnly (fs : List Fsm) (l : List PinOp) : Prop := ∀ o ∈ l, o.fsm ∈ fs

section
variable {fs : List Fsm} {l l' : List PinOp}

theorem ShowsOnly.append (h : ShowsOnly fs l) (h' : ShowsOnly fs l') : ShowsOnly fs (l ++ l') :=
  List.forall_mem_append.2 ⟨h, h'⟩

theorem ShowsOnly.flatMap {α : Type} {xs : List α} {f : α → List PinOp}
    (h : ∀ x, ShowsOnly fs (f x)) : ShowsOnly fs (xs.flatMap f) := by
  intro o ho
  obtain ⟨x, -, hx⟩ := List.mem_flatMap.1 ho
  exact h x o hx

end

section
variable {p : Params} {fs : List Fsm}

theorem i2cSendBit_showsOnly {f : Fsm} (hf : f ∈ fs) (n : Nat) (b : Bool) :
    ShowsOnly fs (i2cSendBit p f n b) := by
  simp [ShowsOnly, i2cSendBit, PinOp.fsm, hf]

theorem i2cSendAcked_showsOnly {f : Fsm} (hf : f ∈ fs) (hack : .ack ∈ fs) (n : Nat) (v : Byte) :
    ShowsOnly fs (i2cSendAcked p f n v) :=
  .append (.flatMap fun b => i2cSendBit_showsOnly hf n b)
    (by simp [ShowsOnly, i2cRecvAck, PinOp.fsm, hack])

theorem i2cStop_showsOnly (hf : .stop ∈ fs) : ShowsOnly fs (i2cStop p) := by
  simp [ShowsOnly, i2cStop, PinOp.fsm, hf]

theorem i2cOpening_showsOnly (hstart : .start ∈ fs) (haddress : .address ∈ fs) (hack : .ack ∈ fs)
    (hdata : .data ∈ fs) (dev : BitVec 7) (reg : Byte) : ShowsOnly fs (i2cOpening p dev reg) := by
  have hs : ShowsOnly fs (i2cStart p) := by simp [ShowsOnly, i2cStart, PinOp.fsm, hstart]
  exact (hs.append (i2cSendAcked_showsOnly haddress hack 0 _)).append
    (i2cSendAcked_showsOnly hdata hack 1 _)

theorem i2cReadPhase_showsOnly (hrestart : .restart ∈ fs) (haddress : .address ∈ fs)
    (hack : .ack ∈ fs) (hrdata : .rdata ∈ fs) (hmack : .mack ∈ fs) (dev : BitVec 7) (n : Nat) :
    ShowsOnly fs (i2cReadPhase p dev n) := by
  have hr : ShowsOnly fs (i2cRestart p 2) := by simp [ShowsOnly, i2cRestart, PinOp.fsm, hrestart]
  have hbyte (k : Nat) : ShowsOnly fs (i2cRecvByte p 3 k) :=
    List.forall_mem_cons.2 ⟨hrdata, ShowsOnly.flatMap fun j => by
      simp [ShowsOnly, PinOp.fsm, hrdata]⟩
  exact (hr.append (i2cSendAcked_showsOnly haddress hack 2 _)).append
    (.flatMap fun k => (hbyte k).append (i2cSendBit_showsOnly hmack 3 _))

theorem mdioSendBit_showsOnly {f : Fsm} (hf : f ∈ fs) (b : Bool) :
    ShowsOnly fs (mdioSendBit p f b) := by
  simp [ShowsOnly, mdioSendBit, PinOp.fsm, hf]

theorem mdioSendBits_showsOnly {f : Fsm} (hf : f ∈ fs) {n : Nat} (v : BitVec n) :
    ShowsOnly fs (mdioSendBits p f v) :=
  .flatMap fun b => mdioSendBit_showsOnly hf b

theorem mdioOpening_showsOnly (hpreamble : .preamble ∈ fs) (hframe : .frame ∈ fs) (opc : BitVec 2)
    (phy reg : BitVec 5) : ShowsOnly fs (mdioPreamble p ++ mdioHeader p opc phy reg) := by
  have hfield {n : Nat} (v : BitVec n) : ShowsOnly fs (mdioSendBits p .frame v) :=
    mdioSendBits_showsOnly hframe v
  have hp : ShowsOnly fs (mdioPreamble p) := .flatMap fun b => mdioSendBit_showsOnly hpreamble b
  exact hp.append ((((hfield mdioStart).append (hfield opc)).append (hfield phy)).append
    (hfield reg))

theorem mdioRelease_showsOnly (hf : .release ∈ fs) : ShowsOnly fs (mdioRelease p) := by
  simp [ShowsOnly, mdioRelease, PinOp.fsm, hf]

end

/-! ### The framer states of each command (10_state.md R35) -/

theorem writeBit_showsOnly (id : BitVec 8) (lvl : Level) :
    ShowsOnly [.idle] (writeBitCommand id lvl).ops := by
  simp [ShowsOnly, writeBitCommand, coreWrite, PinOp.fsm]

theorem readBit_showsOnly (id : BitVec 8) : ShowsOnly [.idle] (readBitCommand id).ops := by
  simp [ShowsOnly, readBitCommand, coreRead, PinOp.fsm]

theorem writeBits_showsOnly (id : BitVec 8) (count : BitVec 6) (arg : Word) :
    ShowsOnly [.idle] (writeBitsCommand id count arg).ops := by
  simp [ShowsOnly, writeBitsCommand, coreWrite, PinOp.fsm]

theorem readBits_showsOnly (id : BitVec 8) (count : BitVec 6) :
    ShowsOnly [.idle] (readBitsCommand id count).ops := by
  simp [ShowsOnly, readBitsCommand, coreRead, PinOp.fsm]

theorem i2cWrite_showsOnly (p : Params) (dev : BitVec 7) (reg len : BitVec 8) (buf : Memory) :
    ShowsOnly [.start, .address, .ack, .data, .stop] (i2cWriteCommand p dev reg len buf).ops :=
  ((i2cOpening_showsOnly (by decide) (by decide) (by decide) (by decide) dev reg).append
    (.flatMap fun _ => i2cSendAcked_showsOnly (by decide) (by decide) _ _)).append
    (i2cStop_showsOnly (by decide))

theorem i2cRead_showsOnly (p : Params) (dev : BitVec 7) (reg len : BitVec 8) :
    ShowsOnly [.start, .address, .ack, .data, .restart, .rdata, .mack, .stop]
      (i2cReadCommand p dev reg len).ops := by
  refine ((i2cOpening_showsOnly (by decide) (by decide) (by decide) (by decide) dev reg).append
    ?_).append (i2cStop_showsOnly (by decide))
  split
  · exact fun o ho => absurd ho List.not_mem_nil
  · exact i2cReadPhase_showsOnly (by decide) (by decide) (by decide) (by decide) (by decide) dev _

theorem mdioRead_showsOnly (p : Params) (phy reg : BitVec 5) :
    ShowsOnly [.preamble, .frame, .ta, .mrdata, .release] (mdioReadCommand p phy reg).ops := by
  have hta : ShowsOnly [.preamble, .frame, .ta, .mrdata, .release] (mdioSendBit p .ta true) :=
    mdioSendBit_showsOnly (by decide) true
  have hbit (k : Nat) :
      ShowsOnly [.preamble, .frame, .ta, .mrdata, .release] (mdioRecvBit p k) := by
    simp [ShowsOnly, mdioRecvBit, PinOp.fsm]
  exact (((mdioOpening_showsOnly (by decide) (by decide) mdioOpRead phy reg).append
    (hta.append hta)).append (.flatMap hbit)).append (mdioRelease_showsOnly (by decide))

theorem mdioWrite_showsOnly (p : Params) (phy reg : BitVec 5) (arg : Word) :
    ShowsOnly [.preamble, .frame, .ta, .mwdata, .release] (mdioWriteCommand p phy reg arg).ops :=
  (((mdioOpening_showsOnly (by decide) (by decide) mdioOpWrite phy reg).append
    (mdioSendBits_showsOnly (by decide) mdioTurnaround)).append
    (mdioSendBits_showsOnly (by decide) _)).append (mdioRelease_showsOnly (by decide))

/-- The events of a command run in the framer states of its own protocol. -/
theorem commandOf_showsOnly (i : Instr) (s : State) :
    ShowsOnly (framerStates i) (commandOf i s).ops := by
  cases i with
  | writeBit id lvl => exact writeBit_showsOnly id lvl
  | readBit id => exact readBit_showsOnly id
  | writeBits id count => exact writeBits_showsOnly id count _
  | readBits id count => exact readBits_showsOnly id count
  | i2cWrite dev reg len => exact i2cWrite_showsOnly _ dev reg len _
  | i2cRead dev reg len => exact i2cRead_showsOnly _ dev reg len
  | mdioRead phy reg => exact mdioRead_showsOnly _ phy reg
  | mdioWrite phy reg => exact mdioWrite_showsOnly _ phy reg _

/-- A core command shows IDLE; every other ends with an event that is always issued: the last write
of STOP (41_i2c.md R140) or the release of MDIO (42_mdio.md R178). -/
theorem idle_or_always_issued (i : Instr) (s : State) :
    .idle ∈ framerStates i ∨ ∃ o ∈ (commandOf i s).ops, o.phase = 0 := by
  cases i with
  | writeBit | readBit | writeBits | readBits => exact .inl List.mem_cons_self
  | i2cWrite | i2cRead =>
    exact .inr ⟨.wb .stop 0 s.params.sdaId .rel,
      List.mem_append_right _ (by simp [i2cStop]), rfl⟩
  | mdioRead | mdioWrite =>
    exact .inr ⟨.wb .release 0 s.params.mdioId .rel,
      List.mem_append_right _ (by simp [mdioRelease]), rfl⟩

/-! ### The framer state at a position -/

theorem live_of_phase_zero {o : PinOp} (h : o.phase = 0) (acks : List Bool) :
    o.live acks = true := by
  simp [PinOp.live, h]

/-- At every position h.FSM is that of an event of the command, or IDLE in a command with nothing to
issue. -/
theorem fsmAt_mem {c : Command} {fs : List Fsm} (hshows : ShowsOnly fs c.ops)
    (hend : .idle ∈ fs ∨ ∃ o ∈ c.ops, o.phase = 0) (h : Hidden) : c.fsmAt h ∈ fs := by
  have hlive : ∀ o ∈ c.issued h ++ c.remaining h, o.fsm ∈ fs := by
    rw [issued_append_remaining]
    exact fun o ho => hshows o (List.mem_filter.1 ho).1
  obtain ⟨hissued, hremaining⟩ := List.forall_mem_append.1 hlive
  unfold Command.fsmAt
  split
  case h_1 o _ hr _ => exact hremaining o (hr ▸ List.mem_cons_self)
  case h_2 o _ l hr hl =>
    split
    · exact hremaining o (hr ▸ List.mem_cons_self)
    · exact hissued l (List.mem_of_getLast? hl)
  case h_3 hr hl =>
    refine hend.resolve_right fun ⟨o, ho, hphase⟩ => ?_
    have hmem : o ∈ c.issued h ++ c.remaining h := by
      rw [issued_append_remaining]
      exact List.mem_filter.2 ⟨ho, live_of_phase_zero hphase _⟩
    simp [hr, List.getLast?_eq_none_iff.1 hl] at hmem
  case h_4 l _ hl => exact hissued l (List.mem_of_getLast? hl)

theorem State.Inv.fsm_mem {s : State} {i : Instr} (h : s.Inv) (hb : s.x.busy = true)
    (hd : decode s.h.cur = .ok i) : s.h.fsm ∈ framerStates i := by
  obtain ⟨-, j, hj, -, hu⟩ := h.running hb
  obtain rfl : i = j := by simpa [hd] using hj
  rw [hu.fsm]
  exact fsmAt_mem (commandOf_showsOnly i s) (idle_or_always_issued i s) s.h

/-- A command that an idle block runs is the one in h.CUR (10_state.md R26). -/
theorem exec_cur {i : Instr} {s t : State} (hb : s.x.busy = false) (h : exec i s = .next t)
    (hbt : t.x.busy = true) : t.h.cur = encode i := by
  rw [exec_eq_issue] at h
  obtain ⟨hbs, -⟩ | ⟨-, -, hi⟩ | ⟨-, -, hi⟩ := issue_cases i (commandOf i s) s
  · simp [hb] at hbs
  · rw [hi] at h
    cases h
    obtain ⟨-, -, -, -, -, hcur⟩ := run_frame (commandOf i s) (commandOf i s).ops
      (s.accept (encode i))
    exact hcur
  · rw [hi] at h
    cases h
    simp [hb] at hbt

/-- Settles O42: the invariant fixes h.FSM by the position in the command in h.CUR, and steps and
accepts keep the invariant. -/
theorem framerStates_of_inv : Obligations.FramerStates := by
  intro s i hI
  refine ⟨fun hb hd => hI.fsm_mem hb hd,
    fun t hs hb hd => (stepKeepsInvariant s t hI hs).fsm_mem hb hd, fun t hidle he hb => ?_⟩
  exact ((served_of_exec he).inv hI).fsm_mem hb (by rw [exec_cur hidle he hb, decode_encode])

/-! ### Reset -/

/-- Settles O50: the reset state is idle, with empty memories and nothing put out. -/
theorem resetHasInvariant : Obligations.ResetHasInvariant := by
  have hsound : State.reset.Sound :=
    { params := (by decide : Params.default.wf)
      buf := ⟨reset_memory_wf.1, fun _ hc => absurd hc List.not_mem_nil⟩
      bstage := ⟨reset_memory_wf.2, fun _ hc => absurd hc List.not_mem_nil⟩
      settle := Nat.zero_le _
      advisory := fun _ => rfl
      trace := fun _ he => absurd he List.not_mem_nil }
  exact hsound.inv_of_idle rfl rfl

end Sys2Proof.Machine
end

section
/-! Host accesses in any state, BUSY or not: an access error stops the run by its name, and a read only answers. -/

namespace Sys2Proof.Machine

/-! ### Host access errors (20_memory.md R62) -/

theorem hostOffset_width (p : Params) (addr : Nat) {width : Nat} (hw : width ≠ 4) :
    hostOffset p addr width = .error .hostWidth := by
  unfold hostOffset
  rw [if_pos hw]

theorem hostOffset_outside {p : Params} {addr : Nat}
    (ho : addr < p.base ∨ p.base + 0x80 ≤ addr) : hostOffset p addr 4 = .error .hostOutside := by
  unfold hostOffset
  rw [if_neg (by simp), if_pos ho]

theorem hostOffset_misaligned {p : Params} {addr : Nat} (hlow : p.base ≤ addr)
    (hhigh : addr < p.base + 0x80) (h4 : (addr - p.base) % 4 ≠ 0) :
    hostOffset p addr 4 = .error .hostMisaligned := by
  unfold hostOffset
  rw [if_neg (by simp), if_neg (by omega), if_pos h4]

/-- A read or a write that is due at no legal offset stops the run. -/
theorem step_hostError {s : State} {addr width : Nat} {v : Word} {rest : List HostInput}
    {r : HostReq} {f : Fault} (hr : r = .read addr width ∨ r = .write addr width v)
    (h : s.env.host = ⟨0, r⟩ :: rest) (hf : hostOffset s.params addr width = .error f) :
    step s = .fault f := by
  obtain rfl | rfl := hr <;> rw [step_due h (.inl (by simp))] <;> simp [serve, hf]

/-- Settles O20: each error is that of the offset check, whether the access reads or writes. -/
theorem hostErrorFaults : Obligations.HostErrorFaults := by
  intro s addr width v rest r hr h
  refine ⟨fun hw => step_hostError hr h (hostOffset_width _ _ hw), ?_, ?_⟩
  · rintro rfl ho
    exact step_hostError hr h (hostOffset_outside ho)
  · rintro rfl hlow hhigh h4
    exact step_hostError hr h (hostOffset_misaligned hlow hhigh h4)

/-- Settles O14: a read at a legal offset is served by its reply alone. -/
theorem hostReadHasNoSideEffect : Obligations.HostReadHasNoSideEffect :=
  fun _ _ _ ho h4 h => step_read h ho h4

end Sys2Proof.Machine
end

section
/-! The place of a run in its command, for any state and any parameters. `Command.StandsAt` says that the acknowledgments
and h.SEQ tell which events are still to come; an event keeps it because the list of events asks for no
acknowledgment too early (`Planned`). -/

namespace Sys2Proof.Machine

/-! ### No command asks for an acknowledgment too early -/

/-- The parameters `p` with room for every bit id and every length, legal or not. The events of a
command do not depend on the two fields that change. -/
def withRoom (p : Params) : Params :=
  { p with numBits := p.sclId + p.sdaId + p.mdcId + p.mdioId + 320, bufBytes := 256 }

theorem withRoom_lines (p : Params) :
    p.sclId < (withRoom p).numBits ∧ p.sdaId < (withRoom p).numBits ∧
    p.mdcId < (withRoom p).numBits ∧ p.mdioId < (withRoom p).numBits := by
  simp only [withRoom]
  omega

theorem withRoom_range (p : Params) (id : BitVec 8) (count : BitVec 6) :
    id.toNat + count.toNat < (withRoom p).numBits := by
  simp only [withRoom]
  omega

/-- The events of a command are in a planned order, whatever the parameters and the operands. -/
theorem commandOf_planned (i : Instr) (s : State) :
    ∃ p m, Planned p 0 (commandOf i s).ops m := by
  obtain ⟨hscl, hsda, hmdc, hmdio⟩ := withRoom_lines s.params
  have hrange := withRoom_range s.params
  refine ⟨withRoom s.params, ?_⟩
  cases i with
  | writeBit id lvl => exact (writeBit_fits lvl (hrange id 0#6)).planned
  | readBit id => exact (readBit_fits (hrange id 0#6)).planned
  | writeBits id count => exact (writeBits_fits s.x.arg (hrange id count).le).planned
  | readBits id count => exact (readBits_fits (hrange id count).le).planned
  | i2cWrite dev reg len =>
    exact (i2cWrite_fits (p := withRoom s.params) hscl hsda dev reg len s.x.buf).planned
  | i2cRead dev reg len =>
    exact (i2cRead_fits (p := withRoom s.params) hscl hsda dev reg len.isLt.le).planned
  | mdioRead phy reg =>
    exact (mdioRead_fits (p := withRoom s.params) hmdc hmdio phy reg).planned
  | mdioWrite phy reg =>
    exact (mdioWrite_fits (p := withRoom s.params) hmdc hmdio phy reg s.x.arg).planned

/-! ### The place of a run in its command -/

/-- `h` stands in the command `c` where `ops` are the events still to come, some of them perhaps cut
off already. Unlike `State.Ready` it speaks of the acknowledgments and h.SEQ only, so that it holds
after an accept in any state. -/
structure Command.StandsAt (c : Command) (ops : List PinOp) (h : Hidden) : Prop where
  planned : ∃ p m, Planned p 0 c.ops m
  length : (c.issued h).length = h.seq
  samples : h.acks.length = ((c.issued h).map PinOp.samples).sum
  remaining : c.remaining h = ops.filter (fun o => o.live h.acks)

theorem perform_acks_length (o : PinOp) (s : State) :
    (s.perform o).h.acks.length = s.h.acks.length + o.samples := by
  cases o with
  | wb f n id lvl => rfl
  | rb f n id sink => exact store_acks_length f n id sink _ _

section
variable {c : Command} {o : PinOp} {ops : List PinOp} {s : State} {h h' : Hidden}

/-- Before the first event, with no acknowledgment yet. -/
theorem Command.StandsAt.first (hc : ∃ p m, Planned p 0 c.ops m) (hseq : h.seq = 0)
    (hacks : h.acks = []) : c.StandsAt c.ops h where
  planned := hc
  length := by simp [Command.issued, hseq]
  samples := by simp [Command.issued, hseq, hacks]
  remaining := by simp [Command.remaining, hseq]

theorem State.Underway.standsAt (hc : ∃ p m, Planned p 0 c.ops m) (hu : s.Underway c) :
    c.StandsAt (c.remaining s.h) s.h where
  planned := hc
  length := hu.issued_length
  samples := hu.acks_length
  remaining := (List.filter_eq_self.2 fun _ ho => (mem_ops_of_mem_remaining ho).2).symm

theorem Command.StandsAt.congr (hat : c.StandsAt ops h) (hacks : h'.acks = h.acks)
    (hseq : h'.seq = h.seq) : c.StandsAt ops h' where
  planned := hat.planned
  length := by rw [issued_congr hacks hseq, hat.length, hseq]
  samples := by rw [issued_congr hacks hseq, hacks, hat.samples]
  remaining := by rw [remaining_congr hacks hseq, hacks, hat.remaining]

/-- An event that a NACK has cut off is skipped. -/
theorem Command.StandsAt.skip (hat : c.StandsAt (o :: ops) h) (hdead : ¬o.live h.acks = true) :
    c.StandsAt ops h where
  planned := hat.planned
  length := hat.length
  samples := hat.samples
  remaining := by rw [hat.remaining, List.filter_cons, if_neg hdead]

/-- The events issued and the next one ask for no acknowledgment that has not been sampled: after a
NACK because they are live, before one because the list is planned. -/
theorem Command.StandsAt.phase_le (hat : c.StandsAt (o :: ops) h) (hlive : o.live h.acks = true) :
    ∀ q ∈ c.issued h ++ [o], q.phase ≤ h.acks.length := by
  obtain ⟨p, m, hplan⟩ := hat.planned
  have hsplit := issued_append_remaining c h
  rw [hat.remaining, List.filter_cons, if_pos hlive] at hsplit
  intro q hq
  by_cases hnack : true ∈ h.acks
  · obtain hq | hq := List.mem_append.1 hq
    · have hmem := hsplit ▸ List.mem_append_left _ hq
      exact phase_le_of_live (List.mem_filter.1 hmem).2 hnack
    · rw [List.mem_singleton.1 hq]
      exact phase_le_of_live hlive hnack
  · have hall : c.ops.filter (fun o => o.live h.acks) = c.ops :=
      List.filter_eq_self.2 fun _ _ => live_of_all_acked hnack
    rw [← hall, ← hsplit] at hplan
    have hle := hplan.phase_le q hq
    rwa [Nat.zero_add, ← hat.samples] at hle

/-- The next event is issued. -/
theorem Command.StandsAt.perform (hat : c.StandsAt (o :: ops) s.h)
    (hlive : o.live s.h.acks = true) : c.StandsAt ops (s.perform o).h := by
  have hsplit := issued_append_remaining c s.h
  rw [hat.remaining, List.filter_cons, if_pos hlive, List.append_cons] at hsplit
  have hfilter := filter_live_next (perform_acks o s) hsplit.symm (hat.phase_le hlive)
  have hseq : (s.perform o).h.seq = (c.issued s.h ++ [o]).length := by
    rw [perform_seq, List.length_append, hat.length, List.length_singleton]
  have hissued : c.issued (s.perform o).h = c.issued s.h ++ [o] := by
    unfold Command.issued
    rw [hfilter, hseq]
    exact List.take_left
  refine ⟨hat.planned, by rw [hissued, hseq], ?_, ?_⟩
  · rw [perform_acks_length, hissued, hat.samples]
    simp
  · unfold Command.remaining
    rw [hfilter, hseq, List.drop_left, filter_filter_next (perform_acks o s)]

end

end Sys2Proof.Machine
end

section
/-! The end of a running command. `run c ops s.alone` is what the command comes to with no host request in between;
a run that commits beside a schedule comes to it (`run_alone_of_commit`), and so does one that pauses and is then left
alone (`run_alone_of_pause`). A host access in between changes WDROP and the replies only, and a `wait` not even
lets the run pause. -/

namespace Sys2Proof.Machine

/-! ### Left alone, a run comes to the same end -/

section
variable {c : Command} {o : PinOp} {ops : List PinOp} {s t : State}

theorem commandOf_alone (i : Instr) (s : State) : commandOf i s.alone = commandOf i s :=
  commandOf_congr rfl rfl rfl

/-- Left alone, the time that has passed and h.FSM do not matter. -/
theorem run_alone_congr (h : t.alone.timeless = s.alone.timeless) :
    run c ops t.alone = run c ops s.alone := by
  rw [run_quiet c ops (s := t.alone) rfl, run_quiet c ops (s := s.alone) rfl, h]

/-- The wait before an event is only time and h.FSM. -/
theorem alone_gate (f : Fsm) (s : State) :
    (s.settleDown.enter f).alone.timeless = s.alone.timeless :=
  (alone_enter f _).trans (alone_settleDown s)

theorem run_alone_perform (hlive : o.live s.h.acks = true) :
    run c ops ((s.settleDown.enter o.fsm).perform o).alone = run c (o :: ops) s.alone := by
  have hlive : o.live s.alone.timeless.h.acks = true := hlive
  rw [run_quiet c ops (s := State.alone _) rfl, run_quiet c (o :: ops) (s := s.alone) rfl,
    alone_perform, alone_gate, playAll, if_pos hlive]

theorem run_skip (hdead : ¬o.live s.h.acks = true) : run c (o :: ops) s = run c ops s := by
  rw [run, if_neg hdead]

/-- A run that commits beside a schedule commits as if left alone. -/
theorem run_alone_of_commit (hb : s.x.busy = true) (ht : (run c ops s).x.busy = false) :
    (run c ops s).alone = run c ops s.alone := by
  rw [run_commit_alone c ops s hb ht, run_quiet c ops (s := s.alone) rfl]

/-- At a pause the events still to come are found again from the acknowledgments and h.SEQ. -/
theorem run_remaining_alone (hat : c.StandsAt ops s.h) :
    run c (c.remaining s.h) s.alone = run c ops s.alone := by
  rw [hat.remaining]
  exact run_filter c ops s.alone s.h.acks fun _ hdead => hdead

/-- A run that pauses, and is then left alone, ends as if left alone from its start. -/
theorem run_alone_of_pause (hat : c.StandsAt ops s.h) (ht : (run c ops s).x.busy = true) :
    run c (c.remaining (run c ops s).h) (run c ops s).alone = run c ops s.alone := by
  induction ops generalizing s with
  | nil =>
    simp only [run] at ht ⊢
    split at ht
    · rw [if_pos ‹_›, run_remaining_alone (hat.congr (by simp) (by simp))]
      exact run_alone_congr (alone_settleDown s)
    · simp at ht
  | cons o rest ih =>
    by_cases hlive : o.live s.h.acks = true
    · have hgate : c.StandsAt (o :: rest) (s.settleDown.enter o.fsm).h :=
        hat.congr (by simp) (by simp)
      simp only [run, if_pos hlive] at ht ⊢
      split at ht
      · rw [if_pos ‹_›, run_remaining_alone hgate]
        exact run_alone_congr (alone_gate o.fsm s)
      · rw [if_neg ‹_›, ih (hgate.perform (by simpa using hlive)) ht]
        exact run_alone_perform hlive
    · rw [run_skip hlive] at ht ⊢
      rw [ih (hat.skip hlive) ht, run_skip (s := s.alone) hlive]

end

/-- The step of a running command left alone is the run of its remaining events. -/
theorem step_alone_eq_run {i : Instr} {s : State} (hb : s.x.busy = true)
    (hd : decode s.h.cur = .ok i) :
    step s.alone = .next (run (commandOf i s) ((commandOf i s).remaining s.h) s.alone) := by
  rw [step_alone hb hd, run_quiet (commandOf i s) _ (s := s.alone) rfl]

/-- A step of the paused command, left alone, ends it as if left alone from where the run began. -/
theorem step_alone_of_pause {i : Instr} {ops : List PinOp} {s : State}
    (hd : decode s.h.cur = .ok i) (hat : (commandOf i s).StandsAt ops s.h)
    (ht : (run (commandOf i s) ops s).x.busy = true) :
    step (run (commandOf i s) ops s).alone = .next (run (commandOf i s) ops s.alone) := by
  obtain ⟨hp, -, harg, -, -, hcur⟩ := run_frame (commandOf i s) ops s
  have hbuf : (run (commandOf i s) ops s).x.buf = s.x.buf := by rw [run_x_of_busy ht]
  rw [step_alone_eq_run ht (hcur ▸ hd), commandOf_congr hp harg hbuf, run_alone_of_pause hat ht]

/-- A well-formed command given to an idle block that is left alone. -/
theorem exec_alone_of_wf {i : Instr} {s : State} (hb : s.x.busy = false)
    (hwf : i.wf s.params = true) :
    exec i s.alone =
      .next (run (commandOf i s) (commandOf i s).ops (s.accept (encode i)).alone) := by
  rw [exec_of_wf (s := s.alone) hb hwf, commandOf_alone]
  rfl

/-- Settles O48: an accepted command stands at its first event; from there its run commits, or pauses
and goes on, to the end that it has when left alone. -/
theorem pauseDoesNotDisturb : Obligations.PauseDoesNotDisturb := by
  intro s t i he
  rw [exec_eq_issue] at he
  obtain ⟨hb, hi⟩ | ⟨hb, hwf, hi⟩ | ⟨hb, hwf, hi⟩ := issue_cases i (commandOf i s) s <;>
    rw [hi] at he <;> cases he
  · exact ⟨fun hidle => absurd (hb.symm.trans hidle) (by simp),
      fun hidle => absurd (hb.symm.trans hidle) (by simp)⟩
  · have hexec := exec_alone_of_wf hb hwf
    refine ⟨fun ht => ?_, fun _ ht => ⟨_, hexec, ?_⟩⟩
    · rw [hexec, run_alone_of_commit rfl ht]
    · exact step_alone_of_pause (i := i) (s := s.accept (encode i)) (decode_encode i)
        (.first (commandOf_planned i s) rfl rfl) ht
  · refine ⟨fun _ => ?_, fun _ ht => absurd (hb.symm.trans ht) (by simp)⟩
    rw [exec_eq_issue, issue, if_neg (by simp [hb]), if_neg (by simp [hwf])]
    rfl

/-! ### What a host access can change during a command -/

section
variable {s t : State}

/-- An event neither uses nor changes WDROP and the replies. -/
theorem play_seenBy (o : PinOp) (s t : State) : (s.seenBy t).play o = (s.play o).seenBy t := by
  cases o with
  | wb f n id lvl => rfl
  | rb f n id sink =>
    rw [play_read, play_read]
    rfl

theorem commandOf_seenBy (i : Instr) (s t : State) :
    commandOf i (s.seenBy t) = commandOf i s :=
  commandOf_congr rfl rfl rfl

theorem playAll_seenBy (ops : List PinOp) (s t : State) :
    playAll ops (s.seenBy t) = (playAll ops s).seenBy t := by
  induction ops generalizing s with
  | nil => rfl
  | cons o rest ih =>
    have hone : (if o.live s.h.acks then (s.seenBy t).play o else s.seenBy t) =
        State.seenBy (if o.live s.h.acks then s.play o else s) t := by
      rw [play_seenBy]
      split <;> rfl
    exact (congrArg (playAll rest) hone).trans (ih _)

/-- Left alone, a run passes WDROP and the replies on. -/
theorem run_alone_seenBy (c : Command) (ops : List PinOp) (s t : State) :
    run c ops (s.alone.seenBy t) = (run c ops s.alone).seenBy t := by
  have htimeless : (s.alone.seenBy t).timeless = s.alone.timeless.seenBy t := rfl
  rw [run_quiet c ops (s := s.alone.seenBy t) rfl, run_quiet c ops (s := s.alone) rfl, htimeless,
    playAll_seenBy]
  rfl

/-- A run left alone ends with the WDROP and the replies that it began with. -/
theorem run_alone_seenBy_self (c : Command) (ops : List PinOp) (s : State) :
    (run c ops s.alone).seenBy s = run c ops s.alone :=
  (run_alone_seenBy c ops s s).symm

/-- A host request other than reset, served while BUSY is 1, changes WDROP and the replies only. -/
theorem serve_of_busy {r : HostReq} (hb : s.x.busy = true) (hr : r ≠ .reset)
    (h : serve r s = .next t) : t.x.busy = true ∧ t.alone = s.alone.seenBy t := by
  cases r with
  | read addr width =>
    simp only [serve] at h
    split at h <;> cases h
    exact ⟨hb, rfl⟩
  | write addr width v =>
    simp only [serve, hb] at h
    split at h <;> cases h
    exact ⟨hb, rfl⟩
  | wait =>
    cases h
    exact ⟨hb, rfl⟩
  | reset => exact absurd rfl hr

/-- The request that a step serves is not the reset input, if the next one due is not. -/
theorem ne_reset_of_due {g : Nat} {r : HostReq} {rest : List HostInput} (hs : s.notReset)
    (h : s.env.host = ⟨g, r⟩ :: rest) (hdue : s.due = true) : r ≠ .reset := by
  rintro rfl
  have hg : g = 0 := by simpa [State.due, State.budget, h] using hdue
  exact hs rest (hg ▸ h)

end

/-- A running command in which only WDROP and the replies are not those of `s` ends, left alone, as
that of `s` does. -/
theorem step_alone_of_seenBy {i : Instr} {s t : State} (hb : t.x.busy = true)
    (hd : decode s.h.cur = .ok i) (ht : t.alone = s.alone.seenBy t) :
    step t.alone =
      .next ((run (commandOf i s) ((commandOf i s).remaining s.h) s.alone).seenBy t) := by
  have hh : t.h = s.h := by simpa using congrArg State.h ht
  have hc : commandOf i t = commandOf i s := by
    rw [← commandOf_alone i t, ht, commandOf_seenBy, commandOf_alone]
  rw [step_alone_eq_run hb (hh ▸ hd), hc, hh, ht, run_alone_seenBy]

theorem resume_of_decode {i : Instr} {s : State} (hd : decode s.h.cur = .ok i) :
    resume s = .next (run (commandOf i s) ((commandOf i s).remaining s.h) s) := by
  simp only [resume, hd]

/-- Settles O49: the end of the command is the run of its remaining events with no request scheduled. A
served request leaves the command where it stands; a run of its events commits there, or pauses and
keeps that end. -/
theorem runningCommandGoesOn : Obligations.RunningCommandGoesOn := by
  intro s hI hb
  obtain ⟨-, i, hd, -, hu⟩ := hI.running hb
  refine ⟨_, step_alone_eq_run hb hd, by rw [run_quiet _ _ (s := s.alone) rfl]; rfl,
    fun t hs hreset => ?_⟩
  obtain ⟨g, r, rest, hhost, hdue, hserve⟩ | ⟨-, -, hresume⟩ | ⟨-, hidle, -⟩ := step_cases s
  · have hr := ne_reset_of_due hreset hhost hdue
    obtain ⟨hbt, ht⟩ := serve_of_busy (s := s.withHost rest) hb hr (hserve.symm.trans hs)
    exact ⟨fun hidle => absurd (hbt.symm.trans hidle) (by simp),
      fun _ => step_alone_of_seenBy hbt hd ht⟩
  · rw [hresume, resume_of_decode hd] at hs
    cases hs
    have hat := hu.standsAt (commandOf_planned i s)
    refine ⟨run_alone_of_commit hb, fun ht => ?_⟩
    rw [step_alone_of_pause hd hat ht, ← run_alone_of_pause hat ht, run_alone_seenBy_self]
  · exact absurd (hb.symm.trans hidle) (by simp)

/-! ### A `wait` beside a command -/

/-- The next host request is `r`, in some number of cycles, and `rest` are those after it. -/
def State.Awaits (r : HostReq) (rest : List HostInput) (s : State) : Prop :=
  ∃ g, s.env.host = ⟨g, r⟩ :: rest

section
variable {r : HostReq} {rest : List HostInput} {s : State}

theorem State.Awaits.elapse (h : s.Awaits r rest) (n : Nat) : (s.elapse n).Awaits r rest := by
  obtain ⟨g, hg⟩ := h
  exact ⟨g - n, by simp [State.elapse, hg]⟩

theorem State.Awaits.settleDown (h : s.Awaits r rest) : s.settleDown.Awaits r rest := by
  obtain ⟨n, hn⟩ := settleDown_eq_elapse s
  rw [hn]
  exact h.elapse n

theorem State.Awaits.enter (h : s.Awaits r rest) (f : Fsm) : (s.enter f).Awaits r rest := by
  unfold State.Awaits
  rwa [enter_env]

theorem perform_host_eq (o : PinOp) (s : State) :
    (s.perform o).env.host = (s.elapse 1).env.host := by
  cases o with
  | wb f n id lvl => rfl
  | rb f n id sink => exact drawn_host _

theorem State.Awaits.perform (h : s.Awaits r rest) (o : PinOp) : (s.perform o).Awaits r rest := by
  unfold State.Awaits
  rw [perform_host_eq]
  exact h.elapse 1

theorem State.Awaits.finish (h : s.Awaits r rest) (d : Deliver) (res : Result) :
    (s.finish d res).Awaits r rest :=
  h.elapse 1

/-- A run serves no host request. -/
theorem State.Awaits.run (h : s.Awaits r rest) (c : Command) (ops : List PinOp) :
    (run c ops s).Awaits r rest := by
  induction ops generalizing s with
  | nil =>
    simp only [Machine.run]
    split
    · exact h.settleDown
    · exact h.settleDown.finish _ _
  | cons o ops ih =>
    simp only [Machine.run]
    split
    · split
      · exact h.settleDown.enter o.fsm
      · exact ih ((h.settleDown.enter o.fsm).perform o)
    · exact ih h

/-- While BUSY is 1 a `wait` is not due (30_encoding.md R94). -/
theorem State.Awaits.not_due (h : s.Awaits .wait rest) (hb : s.x.busy = true) :
    s.due = false := by
  obtain ⟨g, hg⟩ := h
  simp [State.due, State.budget, hg, hb]

/-- With a `wait` as the next request, a run does not pause. -/
theorem State.Awaits.run_commits (h : s.Awaits .wait rest) (hb : s.x.busy = true) (c : Command)
    (ops : List PinOp) : (Machine.run c ops s).x.busy = false := by
  obtain ⟨hx, hdue⟩ | ⟨t, -, -, -, ht⟩ := run_cases c ops s
  · rw [(h.run c ops).not_due (by rw [hx, hb])] at hdue
    exact absurd hdue (by simp)
  · rw [ht, finish_busy]

/-- With a `wait` as the next request, a running command goes on. -/
theorem State.Awaits.step_eq_resume (h : s.Awaits .wait rest) (hb : s.x.busy = true) :
    step s = resume s := by
  obtain ⟨-, -, -, -, hdue, -⟩ | ⟨-, -, hs⟩ | ⟨-, hidle, -⟩ := step_cases s
  · exact absurd (hdue.symm.trans (h.not_due hb)) (by simp)
  · exact hs
  · exact absurd (hb.symm.trans hidle) (by simp)

end

/-- Settles O21: a `wait` is never due while BUSY is 1, so the run does not pause, and it commits as if left
alone; with BUSY 0 the `wait` is a read of STATUS. -/
theorem waitPollsUntilIdle : Obligations.WaitPollsUntilIdle := by
  intro s g rest h
  refine ⟨fun hb i hd => ?_, ?_⟩
  · have hw : s.Awaits .wait rest := ⟨g, h⟩
    have hcommit := hw.run_commits hb (commandOf i s) ((commandOf i s).remaining s.h)
    refine ⟨_, (hw.step_eq_resume hb).trans (resume_of_decode hd), hcommit, ?_, hw.run _ _⟩
    rw [step_alone_eq_run hb hd, run_alone_of_commit hb hcommit]
  · rintro hb rfl
    refine ⟨(statusWord_busy s.x).trans hb, ?_⟩
    rw [step_due h (.inr hb)]
    rfl

end Sys2Proof.Machine
end

section
/-! The statements about the encoding of 30_encoding.md. The encoder and the decoder are inverse to each other
(`decode_eq_ok_iff`), so a row of R89 selects a word exactly when the word is put together from its fields. -/

namespace Sys2Proof

theorem checkReserved_eq_ok_iff {w mask pattern : Word} {i j : Instr} :
    checkReserved w mask pattern i = .ok j ↔ w &&& mask = pattern ∧ i = j := by
  unfold checkReserved
  split <;> simp_all

/-- The opcode of a word that decodes selects its row, and the row's word is its fields. -/
theorem encode_of_decode {w : Word} {i : Instr} (h : decode w = .ok i) : encode i = w := by
  simp only [decode] at h
  split at h
  case h_9 => cases h
  all_goals obtain ⟨hrow, rfl⟩ := checkReserved_eq_ok_iff.1 h
  · rw [encode, Machine.toBit_ofBit]
    exact Machine.formatB1_of_row hrow
  · exact Machine.formatB1_of_row_noLevel hrow
  · exact Machine.formatBM_of_row hrow
  · exact Machine.formatBM_of_row hrow
  · exact Machine.formatI2_of_row hrow
  · exact Machine.formatI2_of_row hrow
  · exact Machine.formatMD_of_row hrow
  · exact Machine.formatMD_of_row hrow

/-- A word decodes to a command exactly when it is the command's word. -/
theorem decode_eq_ok_iff {w : Word} {i : Instr} : decode w = .ok i ↔ encode i = w :=
  ⟨encode_of_decode, fun h => h ▸ decode_encode i⟩

/-- Settles O1. -/
theorem decodeOfEncode : Obligations.DecodeOfEncode :=
  decode_encode

/-- Settles O2. -/
theorem encodeOfDecode : Obligations.EncodeOfDecode :=
  fun _ _ => encode_of_decode

/-- Settles O3: the words are the encodings, and so decode to their commands. -/
theorem exampleWordsDecode : Obligations.ExampleWordsDecode := by
  intro e he
  suffices hword : encode e.2 = e.1 from ⟨hword, decode_eq_ok_iff.2 hword⟩
  revert e
  decide

/-- Settles O4: a word that matches a row is put together from its fields, and a command's word matches
the command's row. -/
theorem rowsSelectByMatchAndMask : Obligations.RowsSelectByMatchAndMask := by
  intro w
  simp only [decode_eq_ok_iff]
  refine ⟨⟨fun h => ?_, fun h => h ▸ Laws.Pattern.writeBit _ _⟩,
    ⟨fun h => Machine.formatB1_of_row_noLevel h, fun h => h ▸ Laws.Pattern.readBit _⟩,
    ⟨fun h => Machine.formatBM_of_row h, fun h => h ▸ Laws.Pattern.writeBits _ _⟩,
    ⟨fun h => Machine.formatBM_of_row h, fun h => h ▸ Laws.Pattern.readBits _ _⟩,
    ⟨fun h => Machine.formatI2_of_row h, fun h => h ▸ Laws.Pattern.i2cWrite _ _ _⟩,
    ⟨fun h => Machine.formatI2_of_row h, fun h => h ▸ Laws.Pattern.i2cRead _ _ _⟩,
    ⟨fun h => Machine.formatMD_of_row h, fun h => h ▸ Laws.Pattern.mdioRead _ _⟩,
    ⟨fun h => Machine.formatMD_of_row h, fun h => h ▸ Laws.Pattern.mdioWrite _ _⟩⟩
  exact (congrArg (formatB1 1#4 · _) (Machine.toBit_ofBit _)).trans (Machine.formatB1_of_row h)

end Sys2Proof
end

section
/-! The words of the block in numbers: a word put together from placed fields is the sum of the fields, each times the
weight of its place. With it the formats of 30_encoding.md R81 to R84, the assembler lines of R93 and the MDIO
frame of R87 are compared as numbers. -/

namespace Sys2Proof

/-! ### Placed fields -/

theorem toNat_place {n lo : Nat} (v : BitVec n) (h : lo + n ≤ 32) :
    (place lo v).toNat = v.toNat * 2 ^ lo := by
  have hv : v.toNat * 2 ^ lo < 2 ^ 32 := calc
    v.toNat * 2 ^ lo < 2 ^ n * 2 ^ lo := Nat.mul_lt_mul_of_pos_right v.isLt (Nat.two_pow_pos lo)
    _ = 2 ^ (lo + n) := by rw [Nat.pow_add, Nat.mul_comm]
    _ ≤ 2 ^ 32 := Nat.pow_le_pow_right (by decide) h
  have hn : v.toNat < 2 ^ 32 := v.isLt.trans_le (Nat.pow_le_pow_right (by decide) (by omega))
  rw [place, BitVec.toNat_shiftLeft, BitVec.toNat_setWidth, Nat.mod_eq_of_lt hn, Nat.shiftLeft_eq,
    Nat.mod_eq_of_lt hv]

theorem toNat_place_zero {n : Nat} (v : BitVec n) (h : n ≤ 32) : (place 0 v).toNat = v.toNat := by
  rw [toNat_place v (by omega), Nat.pow_zero, Nat.mul_one]

/-- A field placed above a word's bits adds its value times the weight of its place. -/
theorem toNat_place_or {n lo : Nat} {w : Word} (v : BitVec n) (h : lo + n ≤ 32)
    (hw : w.toNat < 2 ^ lo) : (place lo v ||| w).toNat = v.toNat * 2 ^ lo + w.toNat := by
  rw [BitVec.toNat_or, toNat_place v h, Nat.mul_comm, Nat.two_pow_add_eq_or_of_lt hw]

/-! ### The formats (30_encoding.md R81 to R84) -/

theorem toNat_formatB1 (op : BitVec 4) (level : Bool) (id : BitVec 8) :
    (formatB1 op level id).toNat = level.toNat * 2 ^ 16 + id.toNat * 2 ^ 8 + op.toNat := by
  have h0 := toNat_place_zero op (by decide)
  have h8 := toNat_place_or (lo := 8) (w := place 0 op) id (by decide) (by omega)
  have h16 := toNat_place_or (lo := 16) (BitVec.ofBool level) (by decide) (h8.trans_lt (by omega))
  simp only [formatB1, BitVec.or_assoc, h16, h8, h0, BitVec.toNat_ofBool, Nat.add_assoc]

theorem toNat_formatBM (op : BitVec 4) (id : BitVec 8) (count : BitVec 6) :
    (formatBM op id count).toNat = count.toNat * 2 ^ 16 + id.toNat * 2 ^ 8 + op.toNat := by
  have h0 := toNat_place_zero op (by decide)
  have h8 := toNat_place_or (lo := 8) (w := place 0 op) id (by decide) (by omega)
  have h16 := toNat_place_or (lo := 16) count (by decide) (h8.trans_lt (by omega))
  simp only [formatBM, BitVec.or_assoc, h16, h8, h0, Nat.add_assoc]

theorem toNat_formatI2 (op : BitVec 4) (dev : BitVec 7) (reg len : BitVec 8) :
    (formatI2 op dev reg len).toNat =
      len.toNat * 2 ^ 24 + reg.toNat * 2 ^ 16 + dev.toNat * 2 ^ 8 + op.toNat := by
  have h0 := toNat_place_zero op (by decide)
  have h8 := toNat_place_or (lo := 8) (w := place 0 op) dev (by decide) (by omega)
  have h16 := toNat_place_or (lo := 16) reg (by decide) (h8.trans_lt (by omega))
  have h24 := toNat_place_or (lo := 24) len (by decide) (h16.trans_lt (by omega))
  simp only [formatI2, BitVec.or_assoc, h24, h16, h8, h0, Nat.add_assoc]

theorem toNat_formatMD (op : BitVec 4) (phy reg : BitVec 5) :
    (formatMD op phy reg).toNat = reg.toNat * 2 ^ 16 + phy.toNat * 2 ^ 8 + op.toNat := by
  have h0 := toNat_place_zero op (by decide)
  have h8 := toNat_place_or (lo := 8) (w := place 0 op) phy (by decide) (by omega)
  have h16 := toNat_place_or (lo := 16) reg (by decide) (h8.trans_lt (by omega))
  simp only [formatMD, BitVec.or_assoc, h16, h8, h0, Nat.add_assoc]

namespace Machine

/-- Settles O5: the fields of the frame, each placed above the bits of those after it. -/
theorem mdioFrameInNumbers : Obligations.MdioFrameInNumbers := by
  intro opc ta phy reg data
  have hst : mdioStart.toNat = 1 := rfl
  have h0 := toNat_place_zero data (by decide)
  have h16 := toNat_place_or (lo := 16) (w := place 0 data) ta (by decide) (by omega)
  have h18 := toNat_place_or (lo := 18) reg (by decide) (h16.trans_lt (by omega))
  have h23 := toNat_place_or (lo := 23) phy (by decide) (h18.trans_lt (by omega))
  have h28 := toNat_place_or (lo := 28) opc (by decide) (h23.trans_lt (by omega))
  have h30 := toNat_place_or (lo := 30) mdioStart (by decide) (h28.trans_lt (by omega))
  simp only [mdioFrame, BitVec.or_assoc, h30, h28, h23, h18, h16, h0, hst, Nat.add_assoc]

/-! ### Assembler lines -/

/-- An operand that fits goes on as its field, one that does not ends the line. -/
theorem operand_bind_eq_some {α : Type} {n v : Nat} {f : BitVec n → Option α} {a : α} :
    (operand n v).bind f = some a ↔ v < 2 ^ n ∧ f (BitVec.ofNat n v) = some a := by
  unfold operand
  split <;> simp_all

/-- A line whose operands fit assembles to the word of its command, compared as a number. -/
theorem encode_pure_eq_some {i : Instr} {w : Word} :
    (pure i : Option Instr).map encode = some w ↔ (encode i).toNat = w.toNat := by
  rw [← BitVec.toNat_eq]
  exact Option.some_inj

/-- Settles O6: each operand goes through the check of its field, and the word is the number of its
format; the two pseudo-instructions are WRITE_BIT lines. -/
theorem linesAssemble : Obligations.LinesAssemble := by
  intro w id count dev reg len phy
  refine ⟨?_, ?_, ?_, ?_, ?_, ?_, ?_, ?_, ?_, rfl, rfl⟩
  all_goals
    simp only [assemble, AsmLine.instr, Option.bind_eq_bind, Option.map_bind, Function.comp_def,
      operand_bind_eq_some, encode_pure_eq_some, encode, toNat_formatB1, toNat_formatBM,
      toNat_formatI2, toNat_formatMD, BitVec.toNat_ofNat, Level.toBit, Bool.toNat_true,
      Bool.toNat_false]
    omega

end Machine
end Sys2Proof
end

section
/-! Playing a command's events. `State.played` is a state with events issued and answers taken, the hidden state
replaced; `Emits` is the rule for events that only write, each list of them with its trace. A command whose
events are played from a quiet accept commits in `State.afterCommand`. -/

namespace Sys2Proof.Machine

/-! ### A state with events played -/

/-- `s` after `n` answers and the events `es`, its hidden state being `h`. -/
def State.played (s : State) (h : Hidden) (n : Nat) (es : List PinEvent) : State :=
  { s with h := h, env := s.env.after n es }

@[simp] theorem played_params (s : State) (h : Hidden) (n : Nat) (es : List PinEvent) :
    (s.played h n es).params = s.params := rfl
@[simp] theorem played_x (s : State) (h : Hidden) (n : Nat) (es : List PinEvent) :
    (s.played h n es).x = s.x := rfl
@[simp] theorem played_h (s : State) (h : Hidden) (n : Nat) (es : List PinEvent) :
    (s.played h n es).h = h := rfl
@[simp] theorem played_env (s : State) (h : Hidden) (n : Nat) (es : List PinEvent) :
    (s.played h n es).env = s.env.after n es := rfl

@[simp] theorem played_played (s : State) (h h' : Hidden) (n m : Nat) (es fs : List PinEvent) :
    (s.played h n es).played h' m fs = s.played h' (n + m) (es ++ fs) := by
  simp only [State.played, after_after]

@[simp] theorem played_nothing (s : State) : s.played s.h 0 [] = s := by
  simp only [State.played, after_zero]

theorem playAll_cons_live {o : PinOp} {s : State} (h : o.live s.h.acks = true) (l : List PinOp) :
    playAll (o :: l) s = playAll l (s.play o) := by
  rw [playAll, if_pos h]

/-! ### Events that only write -/

/-- Played after the acknowledgments `acks`, the events `l` put `es` on the port and do nothing else. -/
def Emits (p : Params) (acks : List Bool) (l : List PinOp) (es : List PinEvent) : Prop :=
  ∀ s : State, s.params = p → s.h.acks = acks → playAll l s = s.played s.h 0 es

section
variable {p : Params} {acks : List Bool} {l l' : List PinOp} {es es' : List PinEvent}

theorem Emits.playAll_eq {s : State} (h : Emits s.params s.h.acks l es) :
    playAll l s = s.played s.h 0 es :=
  h s rfl rfl

/-- Played after other events, they add to the trace. -/
theorem Emits.playAll_played {s : State} {h : Hidden} (hl : Emits s.params h.acks l es') (n : Nat)
    (es : List PinEvent) : playAll l (s.played h n es) = s.played h n (es ++ es') := by
  rw [hl (s.played h n es) rfl rfl, played_h, played_played, Nat.add_zero]

theorem Emits.nil : Emits p acks [] [] := fun s _ _ => (played_nothing s).symm

theorem Emits.append (h : Emits p acks l es) (h' : Emits p acks l' es') :
    Emits p acks (l ++ l') (es ++ es') := by
  rintro s rfl rfl
  rw [playAll_append, h.playAll_eq, h'.playAll_played]

/-- A live `PinWrite` puts its one event on the port. -/
theorem Emits.write {f : Fsm} {n id : Nat} {lvl : Level}
    (hl : (PinOp.wb f n id lvl).live acks = true) (h : Emits p acks l es) :
    Emits p acks (.wb f n id lvl :: l) (.pinWr id (levelMask p lvl) :: es) := by
  rintro s rfl rfl
  have hplay : s.play (.wb f n id lvl) = s.played s.h 0 [.pinWr id (levelMask s.params lvl)] :=
    play_write f n id lvl s
  rw [playAll_cons_live hl, hplay, h.playAll_played, List.singleton_append]

theorem Emits.flatMap {α : Type} {xs : List α} {f : α → List PinOp} {g : α → List PinEvent}
    (h : ∀ x, Emits p acks (f x) (g x)) : Emits p acks (xs.flatMap f) (xs.flatMap g) := by
  induction xs with
  | nil => exact .nil
  | cons x xs ih => exact (h x).append ih

end

/-! ### From a quiet accept to the commit -/

/-- A legal command given to a quiet block commits with what its events, played from the accept, have
come to. -/
theorem exec_of_played {i : Instr} {s : State} {h : Hidden} {n : Nat} {es : List PinEvent}
    (hq : s.quiet) (hwf : i.wf s.params = true) (hcur : h.cur = encode i)
    (hplay : playAll (commandOf i s).ops (s.accept (encode i)).timeless =
      (s.accept (encode i)).timeless.played h n es) :
    exec i s = .next (s.afterCommand (encode i) ((commandOf i s).resultOf h.acks)
      ((commandOf i s).deliver.advisory ((commandOf i s).resultOf h.acks) h.rstage)
      ((commandOf i s).deliver.rdata s.x.rdata h.rstage)
      ((commandOf i s).deliver.buf ((commandOf i s).resultOf h.acks) s.x.buf h.bstage) n es) := by
  rw [exec_eq_issue, issue_quiet _ hq hwf, hplay, State.committed, played_h, hcur]
  rfl

/-- Settles O11: BUSY is 0 and a check of R92 fails, so the write of the word is its rejection. -/
theorem illFormedCommandRejected : Obligations.IllFormedCommandRejected := by
  intro s i hb hwf
  rw [exec_eq_issue, issue, hb, hwf]
  rfl

end Sys2Proof.Machine
end

section
/-! MDIO_WRITE: the fields of the frame, sent one after the other, are the bits of the frame word of
30_encoding.md R87, since wire order and numbers both take a concatenation field by field. -/

namespace Sys2Proof.Machine

/-! ### Concatenated fields -/

/-- In numbers, the upper field counts as many times as the lower one has values. -/
theorem toNat_append_fields {n m : Nat} (v : BitVec n) (w : BitVec m) :
    (v ++ w).toNat = v.toNat * 2 ^ m + w.toNat := by
  rw [BitVec.toNat_append, ← Nat.shiftLeft_add_eq_or_of_lt w.isLt, Nat.shiftLeft_eq]

/-- On the wire the upper field comes first. -/
theorem msbFirst_append {n m : Nat} (v : BitVec n) (w : BitVec m) :
    msbFirst (v ++ w) = msbFirst v ++ msbFirst w := by
  rw [msbFirst_eq, msbFirst_eq, msbFirst_eq, List.range_add, List.map_append, List.map_map]
  congr 1
  · refine List.map_congr_left fun k hk => ?_
    have hk : k < n := List.mem_range.1 hk
    rw [BitVec.getLsbD_append, if_neg (by omega), show n + m - 1 - k - m = n - 1 - k by omega]
  · refine List.map_congr_left fun k hk => ?_
    have hk : k < m := List.mem_range.1 hk
    rw [Function.comp_apply, BitVec.getLsbD_append, if_pos (by omega),
      show n + m - 1 - (n + k) = m - 1 - k by omega]

theorem trField_append (p : Params) (clock data : Nat) {n m : Nat} (v : BitVec n) (w : BitVec m) :
    trField p clock data (v ++ w) = trField p clock data v ++ trField p clock data w := by
  simp only [trField_eq, msbFirst_append, List.flatMap_append]

/-- The frame word of a write, by its number, is its fields side by side (30_encoding.md R87). -/
theorem mdioWriteFrame_eq (phy reg : BitVec 5) (arg : Word) :
    BitVec.ofNat 32 (2 ^ 30 + 2 ^ 28 + phy.toNat * 2 ^ 23 + reg.toNat * 2 ^ 18 + 2 * 2 ^ 16
      + arg.toNat % 2 ^ 16) =
    mdioStart ++ mdioOpWrite ++ phy ++ reg ++ mdioTurnaround ++ arg.extractLsb' 0 16 := by
  refine BitVec.eq_of_toNat_eq ?_
  have hst : mdioStart.toNat = 1 := rfl
  have hop : mdioOpWrite.toNat = 1 := rfl
  have hta : mdioTurnaround.toNat = 2 := rfl
  rw [BitVec.toNat_ofNat]
  simp only [toNat_append_fields, hst, hop, hta, BitVec.extractLsb'_toNat, Nat.shiftRight_zero]
  omega

/-! ### The events of the MDIO framer -/

section
variable {p : Params} {acks : List Bool} {f : Fsm}

theorem mdioSendBit_emits (b : Bool) :
    Emits p acks (mdioSendBit p f b) (trBit p p.mdcId p.mdioId b) := by
  rw [trBit, ← pinWr_ofBit]
  exact .write rfl (.write rfl (.write rfl .nil))

theorem mdioSendBits_emits {n : Nat} (v : BitVec n) :
    Emits p acks (mdioSendBits p f v) (trField p p.mdcId p.mdioId v) := by
  rw [trField_eq]
  exact .flatMap mdioSendBit_emits

theorem mdioPreamble_emits : Emits p acks (mdioPreamble p)
    ((List.replicate p.preambleBits true).flatMap (trBit p p.mdcId p.mdioId)) :=
  .flatMap mdioSendBit_emits

theorem mdioHeader_emits (opc : BitVec 2) (phy reg : BitVec 5) : Emits p acks
    (mdioHeader p opc phy reg) (trField p p.mdcId p.mdioId (mdioStart ++ opc ++ phy ++ reg)) := by
  simp only [trField_append]
  exact (((mdioSendBits_emits _).append (mdioSendBits_emits _)).append
    (mdioSendBits_emits _)).append (mdioSendBits_emits _)

theorem mdioRelease_emits : Emits p acks (mdioRelease p) [evW p p.mdioId true] :=
  .write rfl .nil

end

/-- Preamble, the 32 bits of the frame, release. -/
theorem mdioWrite_emits {p : Params} {acks : List Bool} (phy reg : BitVec 5) (arg : Word) :
    Emits p acks (mdioWriteCommand p phy reg arg).ops
      ((List.replicate p.preambleBits true).flatMap (trBit p p.mdcId p.mdioId)
        ++ trField p p.mdcId p.mdioId (BitVec.ofNat 32 (2 ^ 30 + 2 ^ 28 + phy.toNat * 2 ^ 23
            + reg.toNat * 2 ^ 18 + 2 * 2 ^ 16 + arg.toNat % 2 ^ 16))
        ++ [evW p p.mdioId true]) := by
  have hframe := ((mdioHeader_emits (p := p) (acks := acks) mdioOpWrite phy reg).append
    (mdioSendBits_emits (f := .ta) mdioTurnaround)).append
    (mdioSendBits_emits (f := .mwdata) (arg.extractLsb' 0 16))
  rw [← trField_append, ← trField_append, ← mdioWriteFrame_eq] at hframe
  have h := (mdioPreamble_emits.append hframe).append mdioRelease_emits
  simpa only [mdioWriteCommand, List.append_assoc] using h

/-- Settles O32: every event of the command writes, so its trace is that of its parts. -/
theorem mdioWriteResult : Obligations.MdioWriteResult := by
  intro s phy reg hq
  have hplay := mdioWrite_emits phy reg s.x.arg
    (s.accept (encode (.mdioWrite phy reg))).timeless rfl rfl
  exact exec_of_played (i := .mdioWrite phy reg) hq rfl rfl hplay

end Sys2Proof.Machine
end

section
/-! The events of the I2C framer, played: its conditions and bits only write (41_i2c.md R132 to R135, R137); a sampled
bit and an acknowledgment are writes around one `PinRead`, which takes one answer (R136, R138). -/

namespace Sys2Proof.Machine

/-! ### Conditions and bits that only write -/

section
variable {p : Params} {acks : List Bool}

theorem i2cStart_emits : Emits p acks (i2cStart p) (trStart p) :=
  .write rfl (.write rfl .nil)

/-- STOP is issued after a NACK too. -/
theorem i2cStop_emits : Emits p acks (i2cStop p) (trStop p) :=
  .write rfl (.write rfl (.write rfl .nil))

variable (hclean : true ∉ acks)
include hclean

theorem i2cRestart_emits (n : Nat) : Emits p acks (i2cRestart p n) (trRestart p) := by
  have hl {id : Nat} {lvl : Level} := live_of_all_acked (o := .wb .restart n id lvl) hclean
  exact .write hl (.write hl (.write hl (.write hl .nil)))

theorem i2cSendBit_emits (f : Fsm) (n : Nat) (b : Bool) :
    Emits p acks (i2cSendBit p f n b) (trBit p p.sclId p.sdaId b) := by
  have hl {id : Nat} {lvl : Level} := live_of_all_acked (o := .wb f n id lvl) hclean
  rw [trBit, ← pinWr_ofBit]
  exact .write hl (.write hl (.write hl .nil))

theorem i2cSendByte_emits (f : Fsm) (n : Nat) (v : Byte) :
    Emits p acks (i2cSendByte p f n v) (trField p p.sclId p.sdaId v) := by
  rw [trField_eq]
  exact .flatMap (i2cSendBit_emits hclean f n)

end

/-! ### A sampled level -/

theorem playAll_emits_append {s : State} {l : List PinOp} {es : List PinEvent}
    (h : Emits s.params s.h.acks l es) (m : List PinOp) :
    playAll (l ++ m) s = playAll m (s.played s.h 0 es) := by
  rw [playAll_append, h.playAll_eq]

/-- Writes with one `PinRead` among them: one answer is taken, and goes to its sink. -/
theorem playAll_around_read {s : State} {f : Fsm} {n id : Nat} {sink : Sink} {pre post : List PinOp}
    {es fs : List PinEvent} (hpre : Emits s.params s.h.acks pre es)
    (hl : (PinOp.rb f n id sink).live s.h.acks = true)
    (hpost : Emits s.params (s.h.store sink (s.env.answer 0)).acks post fs) :
    playAll (pre ++ .rb f n id sink :: post) s =
      s.played (s.h.store sink (s.env.answer 0)) 1 (es ++ .pinRd id (s.env.answer 0) :: fs) := by
  have hread : (s.played s.h 0 es).play (.rb f n id sink) =
      s.played (s.h.store sink (s.env.answer 0)) 1 (es ++ [.pinRd id (s.env.answer 0)]) := by
    rw [play_read, played_env, answer_after, after_after]
    rfl
  rw [playAll_emits_append hpre, playAll_cons_live (s := s.played s.h 0 es) hl, hread,
    hpost.playAll_played, List.append_assoc, List.singleton_append]

/-- One sampled bit, the clock high around it (41_i2c.md R138, 42_mdio.md R175). -/
theorem playAll_sample {s : State} (hclean : true ∉ s.h.acks) (f : Fsm) (n clock data : Nat)
    {sink : Sink} (hsink : sink ≠ .ack) :
    playAll [.wb f n clock .rel, .rb f n data sink, .wb f n clock .a0] s =
      s.played (s.h.store sink (s.env.answer 0)) 1
        (trSample s.params clock data (s.env.answer 0)) := by
  have hacks : (s.h.store sink (s.env.answer 0)).acks = s.h.acks := by
    cases sink <;> simp_all [Hidden.store]
  exact playAll_around_read (.write (live_of_all_acked hclean) .nil) (live_of_all_acked hclean)
    (.write (live_of_all_acked (hacks ▸ hclean)) .nil)

/-! ### Bytes sent -/

/-- After a NACK an event that needs its acknowledgment is left out. -/
theorem dead_of_nack {o : PinOp} {acks : List Bool} (hnack : true ∈ acks)
    (hphase : acks.length ≤ o.phase) : o.live acks = false := by
  rw [PinOp.live, List.take_of_length_le hphase, List.all_eq_false]
  exact ⟨true, hnack, by simp⟩

section
variable {s : State} {k : Nat} (hacks : s.h.acks = List.replicate k false)
include hacks

theorem acks_clean : true ∉ s.h.acks := by
  simp [hacks]

/-- The acknowledgment phase: one answer, which is the next acknowledgment (41_i2c.md R136). -/
theorem playAll_recvAck :
    playAll (i2cRecvAck s.params k) s =
      s.played { s.h with acks := s.h.acks ++ [s.env.answer 0] } 1
        (trAck s.params (s.env.answer 0)) := by
  have hl {o : PinOp} := live_of_all_acked (o := o) (acks_clean hacks)
  have hphase : (PinOp.wb .ack k s.params.sclId .a0).phase ≤ s.h.acks.length := by
    simp [hacks, PinOp.phase]
  exact playAll_around_read (.write hl (.write hl .nil)) hl
    (.write ((live_append_of_phase_le hphase _).trans hl) .nil)

/-- A byte sent after `k` acknowledgments, and its own. -/
theorem playAll_sendAcked (f : Fsm) (v : Byte) :
    playAll (i2cSendAcked s.params f k v) s =
      s.played { s.h with acks := s.h.acks ++ [s.env.answer 0] } 1
        (trField s.params s.params.sclId s.params.sdaId v ++ trAck s.params (s.env.answer 0)) := by
  rw [i2cSendAcked, playAll_emits_append (i2cSendByte_emits (acks_clean hacks) f k v)]
  generalize trField s.params s.params.sclId s.params.sdaId v = es
  have hack := playAll_recvAck (s := s.played s.h 0 es) hacks
  rw [played_played, played_env, answer_after] at hack
  exact hack

end

end Sys2Proof.Machine
end

section
/-! I2C_WRITE: all its bytes are one list of acknowledged bytes, so that the trace, the answers taken and the
acknowledgments follow by one induction over the list. -/

namespace Sys2Proof.Machine

/-! ### A list of acknowledged bytes -/

/-- Bytes sent one after the other, each in its framer state, the first after `k` acknowledgments. -/
def sendAll (p : Params) : Nat → List (Fsm × Byte) → List PinOp
  | _, [] => []
  | k, (f, v) :: vs => i2cSendAcked p f k v ++ sendAll p (k + 1) vs

/-- The acknowledgments sampled when `n` bytes are sent: up to the first NACK. -/
def acksSeen (ans : Nat → Bool) : Nat → Nat → List Bool
  | _, 0 => []
  | k, n + 1 => ans k :: if ans k then [] else acksSeen ans (k + 1) n

theorem length_acksSeen_le (ans : Nat → Bool) (k n : Nat) : (acksSeen ans k n).length ≤ n := by
  induction n generalizing k with
  | zero => exact le_rfl
  | succ n ih =>
    rw [acksSeen, List.length_cons]
    split
    · exact Nat.succ_le_succ (Nat.zero_le n)
    · exact Nat.succ_le_succ (ih (k + 1))

/-- The trace of sending bytes up to the first NACK. -/
def trSent (p : Params) (ans : Nat → Bool) : Nat → List Byte → List PinEvent
  | _, [] => []
  | k, v :: vs =>
    trField p p.sclId p.sdaId v ++ trAck p (ans k) ++ if ans k then [] else trSent p ans (k + 1) vs

/-- After the bytes comes the STOP if one was not acknowledged, else what was to follow. -/
theorem trBytes_eq (p : Params) (ans : Nat → Bool) (more : List PinEvent) (k : Nat)
    (vs : List Byte) :
    trBytes p ans more k vs = trSent p ans k vs ++
      if true ∈ acksSeen ans k vs.length then trStop p else more := by
  induction vs generalizing k with
  | nil => simp [trBytes, trSent, acksSeen]
  | cons v vs ih =>
    rw [trBytes, trSent, List.length_cons, acksSeen, ih]
    cases ans k <;> simp

theorem sendAll_range (p : Params) (f : Fsm) (g : Nat → Byte) (n j : Nat) :
    (List.range n).flatMap (fun k => i2cSendAcked p f (k + j) (g k)) =
      sendAll p j ((List.range n).map fun k => (f, g k)) := by
  induction n generalizing g j with
  | zero => rfl
  | succ n ih =>
    have hshift : (fun k => i2cSendAcked p f (k + 1 + j) (g (k + 1))) =
        fun k => i2cSendAcked p f (k + (j + 1)) (g (k + 1)) := by
      funext k
      rw [Nat.add_assoc, Nat.add_comm 1 j]
    simp only [List.range_succ_eq_map, List.flatMap_cons, List.map_cons, List.flatMap_map,
      List.map_map, sendAll, Nat.zero_add, Function.comp_def, Nat.succ_eq_add_one]
    rw [hshift, ih (fun k => g (k + 1)) (j + 1)]

theorem i2cSendAcked_phase {p : Params} {f : Fsm} {k : Nat} {v : Byte} :
    ∀ o ∈ i2cSendAcked p f k v, o.phase = k := by
  intro o ho
  simp only [i2cSendAcked, i2cSendByte, i2cSendBit, i2cRecvAck, List.mem_append, List.mem_flatMap,
    List.mem_cons, List.not_mem_nil, or_false] at ho
  obtain ⟨b, -, rfl | rfl | rfl⟩ | rfl | rfl | rfl | rfl := ho <;> rfl

theorem le_phase_sendAll {p : Params} {vs : List (Fsm × Byte)} {k : Nat} :
    ∀ o ∈ sendAll p k vs, k ≤ o.phase := by
  induction vs generalizing k with
  | nil => simp [sendAll]
  | cons fv vs ih =>
    intro o ho
    obtain ho | ho := List.mem_append.1 ho
    · exact (i2cSendAcked_phase o ho).ge
    · exact (Nat.le_succ k).trans (ih o ho)

/-- Bytes sent up to the first NACK: those after it are left out. -/
theorem playAll_sendAll {ans : Nat → Bool} (vs : List (Fsm × Byte)) {k : Nat} {s : State}
    (hacks : s.h.acks = List.replicate k false) (hans : ∀ i, s.env.answer i = ans (k + i)) :
    playAll (sendAll s.params k vs) s =
      s.played { s.h with acks := s.h.acks ++ acksSeen ans k vs.length }
        (acksTaken ans k vs.length) (trSent s.params ans k (vs.map Prod.snd)) := by
  induction vs generalizing k s with
  | nil =>
    simp only [acksSeen, List.length_nil, List.append_nil]
    exact (played_nothing s).symm
  | cons fv vs ih =>
    obtain ⟨f, v⟩ := fv
    have h0 : s.env.answer 0 = ans k := hans 0
    rw [sendAll, playAll_append, playAll_sendAcked hacks, h0]
    simp only [List.length_cons, List.map_cons, acksSeen, acksTaken, trSent]
    generalize trField s.params s.params.sclId s.params.sdaId v ++ trAck s.params (ans k) = es
    cases hk : ans k with
    | true =>
      have hdead : ∀ o ∈ sendAll s.params (k + 1) vs, o.live (s.h.acks ++ [true]) = false :=
        fun o ho => dead_of_nack (by simp) (by simpa [hacks] using le_phase_sendAll o ho)
      rw [playAll_dead (s := s.played _ 1 es) hdead]
      simp
    | false =>
      have hnext : ∀ i, (s.env.after 1 es).answer i = ans (k + 1 + i) := by
        intro i
        rw [answer_after, hans, Nat.add_assoc]
      have hrest := ih (s := s.played { s.h with acks := s.h.acks ++ [false] } 1 es)
        (by rw [played_h, hacks, List.replicate_succ']) hnext
      rw [played_params, played_played] at hrest
      rw [hrest]
      simp

/-- A NACK is among the acknowledgments sampled when one of the answers to all the bytes is. -/
theorem any_acksSeen (ans : Nat → Bool) (k n : Nat) :
    (acksSeen ans k n).any id = (List.range' k n).any ans := by
  induction n generalizing k with
  | zero => rfl
  | succ n ih =>
    rw [acksSeen, List.range'_succ, List.any_cons, List.any_cons, ← ih]
    cases ans k <;> simp

theorem nack_mem_acksSeen {ans : Nat → Bool} {k n : Nat} :
    true ∈ acksSeen ans k n ↔ (List.range' k n).any ans = true := by
  rw [← any_acksSeen]
  simp

/-- After a NACK no further acknowledgment is sampled. -/
theorem acksSeen_of_nack {ans : Nat → Bool} {k n : Nat} (h : true ∈ acksSeen ans k n) :
    acksSeen ans k (n + 1) = acksSeen ans k n := by
  induction n generalizing k with
  | zero => simp [acksSeen] at h
  | succ n ih =>
    have hstep (m : Nat) : acksSeen ans k (m + 1) =
        ans k :: if ans k then [] else acksSeen ans (k + 1) m := rfl
    rw [hstep] at h
    rw [hstep (n + 1), hstep n]
    cases hk : ans k with
    | true => rfl
    | false =>
      have hrest : true ∈ acksSeen ans (k + 1) n := by simpa [hk] using h
      simp [ih hrest]

/-! ### The command -/

/-- The first acknowledgment is that of the address byte (41_i2c.md R140). -/
theorem resultOf_cons_notPresent {c : Command} (hc : c.nackResults = [.notPresent]) (a : Bool)
    (acks : List Bool) : c.resultOf (a :: acks) =
      if a then .notPresent else if (a :: acks).any id then .notAcknowledged else .ok := by
  rw [Command.resultOf, hc, List.findIdx?_cons]
  cases a with
  | true => rfl
  | false =>
    rw [List.any_cons, ← List.findIdx?_isSome]
    cases acks.findIdx? id <;> simp

/-- The result of I2C_WRITE, by the answers to its `n + 1` bytes. -/
theorem resultOf_acksSeen {c : Command} (hc : c.nackResults = [.notPresent]) (ans : Nat → Bool)
    (n : Nat) : c.resultOf (acksSeen ans 0 (n + 1)) =
      if ans 0 then .notPresent
      else if (List.range (n + 1)).any ans then .notAcknowledged else .ok := by
  rw [List.range_eq_range', ← any_acksSeen]
  exact resultOf_cons_notPresent hc _ _

/-- The events of I2C_WRITE: START, the bytes, STOP. -/
theorem i2cWriteCommand_ops (p : Params) (dev : BitVec 7) (reg len : BitVec 8) (buf : Memory) :
    (i2cWriteCommand p dev reg len buf).ops = i2cStart p ++ (sendAll p 0
      ((.address, addressByte dev 0#1) :: (.data, reg) ::
        (List.range len.toNat).map fun k => (.data, buf.read k)) ++ i2cStop p) := by
  simp only [i2cWriteCommand, i2cOpening, sendAll_range, sendAll, List.append_assoc]

/-- I2C_WRITE played from its accept. -/
theorem playAll_i2cWrite {s : State} (hacks : s.h.acks = []) (dev : BitVec 7) (reg len : BitVec 8)
    (buf : Memory) :
    playAll (i2cWriteCommand s.params dev reg len buf).ops s =
      s.played { s.h with acks := acksSeen s.env.answer 0 (len.toNat + 2) }
        (acksTaken s.env.answer 0 (len.toNat + 2))
        (trStart s.params ++ trBytes s.params s.env.answer (trStop s.params) 0
          (BitVec.ofNat 8 (dev.toNat * 2) :: reg :: (List.range len.toNat).map buf.read)) := by
  have hans : ∀ i, (s.env.after 0 (trStart s.params)).answer i = s.env.answer (0 + i) :=
    answer_after _ _ _
  have hsend := playAll_sendAll (s := s.played s.h 0 (trStart s.params)) (k := 0)
    ((.address, addressByte dev 0#1) :: (.data, reg) ::
      (List.range len.toNat).map fun k => (.data, buf.read k)) hacks hans
  rw [played_params, played_played] at hsend
  rw [i2cWriteCommand_ops, playAll_emits_append i2cStart_emits, playAll_append, hsend,
    i2cStop_emits.playAll_played, trBytes_eq]
  simp [hacks, addressByte_write, Function.comp_def]

/-- Settles O28: the bytes are sent up to the first NACK, and the acknowledgments sampled give the
result. -/
theorem i2cWriteResult : Obligations.I2cWriteResult := by
  intro s dev reg len hq hlen
  have hwf : (Instr.i2cWrite dev reg len).wf s.params = true := decide_eq_true hlen
  have hplay := playAll_i2cWrite (s := (s.accept (encode (.i2cWrite dev reg len))).timeless) rfl
    dev reg len s.x.buf
  have hexec := exec_of_played (i := .i2cWrite dev reg len) hq hwf rfl hplay
  rw [resultOf_acksSeen (c := commandOf (.i2cWrite dev reg len) s) rfl] at hexec
  exact hexec

end Sys2Proof.Machine
end

section
/-! Bytes received (41_i2c.md R138, R139): each bit is staged as it is sampled, so after eight of them the staged byte
is the one answered, and after the bytes of a read `h.BSTAGE` holds them all. -/

namespace Sys2Proof.Machine

/-! ### Answers, bits and bytes -/

/-- The answers still to come, as a sequence. -/
theorem answer_after_eq (e : Env) (n : Nat) (es : List PinEvent) :
    (e.after n es).answer = fun k => e.answer (n + k) :=
  funext (answer_after e n es)

theorem byteOf_shift (ans : Nat → Bool) (n k : Nat) :
    byteOf (fun i => ans (n + i)) k = byteOf ans (n + k) := by
  simp only [byteOf, Nat.add_assoc]

/-- A byte is the one received when it has the answers as its bits, most significant first. -/
theorem eq_byteOf {v : Byte} {ans : Nat → Bool} (h : ∀ j < 8, v.getLsbD (7 - j) = ans j) :
    v = byteOf ans 0 := by
  refine BitVec.eq_of_getLsbD_eq fun i hi => ?_
  have hbit := h (7 - i) (by omega)
  rw [show 7 - (7 - i) = i by omega] at hbit
  rw [hbit, byteOf, BitVec.getLsbD_ofFnLE, dif_pos hi, Nat.zero_add]

/-- The events of bit `j` of a byte received for `BUF[k]` (41_i2c.md R138). -/
def recvBit (p : Params) (n k j : Nat) : List PinOp :=
  [.wb .rdata n p.sclId .rel, .rb .rdata n p.sdaId (.byte k j), .wb .rdata n p.sclId .a0]

theorem i2cRecvByte_eq (p : Params) (n k : Nat) :
    i2cRecvByte p n k =
      .wb .rdata n p.sdaId .rel :: (List.range 8).flatMap fun j => recvBit p n k (7 - j) := rfl

/-- The trace of one byte received, answered from answer `k` on, and the framer's own acknowledgment
bit `b` (41_i2c.md R138, R139). -/
def trRecvByte (p : Params) (ans : Nat → Bool) (k : Nat) (b : Bool) : List PinEvent :=
  [evW p p.sdaId true]
    ++ (List.range 8).flatMap (fun j => trSample p p.sclId p.sdaId (ans (k + j)))
    ++ trBit p p.sclId p.sdaId b

theorem trReceive_eq (p : Params) (ans : Nat → Bool) (k n : Nat) :
    trReceive p ans k n =
      (List.range n).flatMap fun m => trRecvByte p ans (k + 8 * m) (decide (m + 1 = n)) := rfl

theorem trRecvByte_shift (p : Params) (ans : Nat → Bool) (n k : Nat) (b : Bool) :
    trRecvByte p (fun i => ans (n + i)) k b = trRecvByte p ans (n + k) b := by
  simp only [trRecvByte, Nat.add_assoc]

/-! ### Playing them -/

section
variable {s : State} (hclean : true ∉ s.h.acks) (hwf : s.h.bstage.wf)
include hclean hwf

/-- The first `m` bits of a byte. -/
theorem playAll_recvBits (n k : Nat) {m : Nat} (hm : m ≤ 8) :
    ∃ bst : Memory, bst.wf ∧ (∀ a, a ≠ k → bst.read a = s.h.bstage.read a) ∧
      (∀ j < m, (bst.read k).getLsbD (7 - j) = s.env.answer j) ∧
      playAll ((List.range m).flatMap fun j => recvBit s.params n k (7 - j)) s =
        s.played { s.h with bstage := bst } m ((List.range m).flatMap fun j =>
          trSample s.params s.params.sclId s.params.sdaId (s.env.answer j)) := by
  induction m with
  | zero => exact ⟨s.h.bstage, hwf, fun _ _ => rfl, by simp, (played_nothing s).symm⟩
  | succ m ih =>
    obtain ⟨bst, hbst, hother, hbits, hplay⟩ := ih (by omega)
    refine ⟨bst.write k (setBit (bst.read k) (7 - m) (s.env.answer m)),
      Memory.write_wf hbst k _, fun a ha => ?_, fun j hj => ?_, ?_⟩
    · rw [Memory.read_write hbst, if_neg ha, hother a ha]
    · rw [Memory.read_write hbst, if_pos rfl, getLsbD_setBit _ _ _ (by omega)]
      by_cases hjm : j = m
      · rw [if_pos (by omega), hjm]
      · rw [if_neg (by omega), hbits j (by omega)]
    · simp only [List.range_succ, List.flatMap_append, playAll_append, hplay,
        List.flatMap_singleton]
      have hsample (es : List PinEvent) := playAll_sample
        (s := s.played { s.h with bstage := bst } m es) hclean .rdata n
        s.params.sclId s.params.sdaId (sink := .byte k (7 - m)) (by simp)
      simp only [played_played, played_env, answer_after] at hsample
      exact hsample _

/-- One byte, and the framer's own acknowledgment bit. -/
theorem playAll_recvByte (n k : Nat) (b : Bool) :
    ∃ bst : Memory, bst.wf ∧ bst.read k = byteOf s.env.answer 0 ∧
      (∀ a, a ≠ k → bst.read a = s.h.bstage.read a) ∧
      playAll (i2cRecvByte s.params n k ++ i2cSendBit s.params .mack n b) s =
        s.played { s.h with bstage := bst } 8 (trRecvByte s.params s.env.answer 0 b) := by
  have hrelease : Emits s.params s.h.acks [.wb .rdata n s.params.sdaId .rel]
      [evW s.params s.params.sdaId true] := .write (live_of_all_acked hclean) .nil
  obtain ⟨bst, hbst, hother, hbits, hplay⟩ := playAll_recvBits
    (s := s.played s.h 0 [evW s.params s.params.sdaId true]) hclean hwf n k (m := 8) le_rfl
  simp only [played_h, played_env, answer_after, Nat.zero_add, played_params, played_played]
    at hbits hplay
  have hack : Emits s.params ({ s.h with bstage := bst } : Hidden).acks
      (i2cSendBit s.params .mack n b) (trBit s.params s.params.sclId s.params.sdaId b) :=
    i2cSendBit_emits hclean .mack n b
  refine ⟨bst, hbst, eq_byteOf hbits, hother, ?_⟩
  rw [i2cRecvByte_eq, ← List.singleton_append, List.append_assoc, playAll_emits_append hrelease,
    playAll_append, hplay, hack.playAll_played]
  simp only [trRecvByte, Nat.zero_add]

/-- The first `m` bytes of a read of `n` (41_i2c.md R139). -/
theorem playAll_recvBytes (n m : Nat) :
    ∃ bst : Memory, bst.wf ∧ (∀ k < m, bst.read k = byteOf s.env.answer (8 * k)) ∧
      playAll ((List.range m).flatMap fun k =>
          i2cRecvByte s.params 3 k ++ i2cSendBit s.params .mack 3 (decide (k + 1 = n))) s =
        s.played { s.h with bstage := bst } (8 * m) ((List.range m).flatMap fun k =>
          trRecvByte s.params s.env.answer (8 * k) (decide (k + 1 = n))) := by
  induction m with
  | zero => exact ⟨s.h.bstage, hwf, by simp, (played_nothing s).symm⟩
  | succ m ih =>
    obtain ⟨bst, hbst, hbytes, hplay⟩ := ih
    generalize hes : ((List.range m).flatMap fun k =>
      trRecvByte s.params s.env.answer (8 * k) (decide (k + 1 = n))) = es at hplay
    obtain ⟨bst', hbst', hlast, hother, hplay'⟩ := playAll_recvByte
      (s := s.played { s.h with bstage := bst } (8 * m) es) hclean hbst 3 m (decide (m + 1 = n))
    simp only [played_h, played_env, played_params, played_played, answer_after_eq, byteOf_shift,
      trRecvByte_shift, Nat.add_zero] at hlast hother hplay'
    refine ⟨bst', hbst', fun k hk => ?_, ?_⟩
    · by_cases hkm : k = m
      · rw [hkm, hlast]
      · rw [hother k hkm]
        exact hbytes k (by omega)
    · simp only [List.range_succ, List.flatMap_append, playAll_append, hplay,
        List.flatMap_singleton, hplay', hes, Nat.mul_succ]

end

end Sys2Proof.Machine
end

section
/-! I2C_READ of at least one byte: the read phase, and the command by its three acknowledgments. -/

namespace Sys2Proof.Machine

/-! ### The read phase -/

/-- The bytes of a read of `n`, each with the framer's own acknowledgment bit (41_i2c.md R139). -/
def recvAll (p : Params) (n : Nat) : List PinOp :=
  (List.range n).flatMap fun k => i2cRecvByte p 3 k ++ i2cSendBit p .mack 3 (decide (k + 1 = n))

theorem i2cReadPhase_eq (p : Params) (dev : BitVec 7) (n : Nat) :
    i2cReadPhase p dev n =
      i2cRestart p 2 ++ (i2cSendAcked p .address 2 (addressByte dev 1#1) ++ recvAll p n) :=
  List.append_assoc _ _ _

/-- The bytes are received only after three acknowledgments. -/
theorem phase_recvAll {p : Params} {n : Nat} : ∀ o ∈ recvAll p n, o.phase = 3 := by
  intro o ho
  simp only [recvAll, i2cRecvByte, i2cSendBit, List.mem_flatMap, List.mem_append, List.mem_cons,
    List.not_mem_nil, or_false] at ho
  obtain ⟨k, -, (rfl | ⟨j, -, rfl | rfl | rfl⟩) | rfl | rfl | rfl⟩ := ho <;> rfl

/-- The read phase needs the two acknowledgments of the write phase. -/
theorem le_phase_i2cReadPhase {p : Params} {dev : BitVec 7} {n : Nat} :
    ∀ o ∈ i2cReadPhase p dev n, 2 ≤ o.phase := by
  intro o ho
  rw [i2cReadPhase_eq] at ho
  obtain ho | ho := List.mem_append.1 ho
  · simp only [i2cRestart, List.mem_cons, List.not_mem_nil, or_false] at ho
    obtain rfl | rfl | rfl | rfl := ho <;> exact le_rfl
  · obtain ho | ho := List.mem_append.1 ho
    · exact (i2cSendAcked_phase o ho).ge
    · exact (phase_recvAll o ho).ge.trans' (by decide)

/-- The trace of the read phase, answered from answer 2 on: a NACK of the address byte leaves the bytes
out. -/
def trReadPhase (p : Params) (ans : Nat → Bool) (dev : BitVec 7) (n : Nat) : List PinEvent :=
  trRestart p ++ trField p p.sclId p.sdaId (BitVec.ofNat 8 (dev.toNat * 2 + 1)) ++ trAck p (ans 2)
    ++ if ans 2 then [] else trReceive p ans 3 n

/-- The read phase, after the two acknowledgments of the write phase. -/
theorem playAll_i2cReadPhase {s : State} {ans : Nat → Bool} (hacks : s.h.acks = [false, false])
    (hwf : s.h.bstage.wf) (hans : s.env.answer = fun i => ans (2 + i)) (dev : BitVec 7) (n : Nat) :
    ∃ bst : Memory, (ans 2 = false → ∀ k < n, bst.read k = byteOf ans (3 + 8 * k)) ∧
      playAll (i2cReadPhase s.params dev n) s =
        s.played { s.h with acks := [false, false, ans 2], bstage := bst }
          (if ans 2 then 1 else 1 + 8 * n) (trReadPhase s.params ans dev n) := by
  have hrestart : Emits s.params s.h.acks (i2cRestart s.params 2) (trRestart s.params) :=
    i2cRestart_emits (by simp [hacks]) 2
  have haddress := playAll_sendAcked (s := s.played s.h 0 (trRestart s.params)) (k := 2) hacks
    .address (BitVec.ofNat 8 (dev.toNat * 2 + 1))
  simp only [played_played, played_params, played_env, played_h, answer_after, hans, hacks,
    Nat.zero_add, Nat.add_zero, List.cons_append, List.nil_append, ← List.append_assoc]
    at haddress
  rw [i2cReadPhase_eq, playAll_emits_append hrestart, playAll_append, addressByte_read, haddress,
    trReadPhase]
  generalize trRestart s.params ++ trField s.params s.params.sclId s.params.sdaId
    (BitVec.ofNat 8 (dev.toNat * 2 + 1)) ++ trAck s.params (ans 2) = es
  cases h2 : ans 2 with
  | true =>
    have hdead : ∀ o ∈ recvAll s.params n, o.live [false, false, true] = false :=
      fun o ho => dead_of_nack (by simp) (phase_recvAll o ho).ge
    refine ⟨s.h.bstage, nofun, ?_⟩
    rw [playAll_dead (s := s.played _ 1 es) hdead]
    simp
  | false =>
    obtain ⟨bst, -, hbytes, hplay⟩ := playAll_recvBytes
      (s := s.played { s.h with acks := [false, false, false] } 1 es) (by simp) hwf n n
    have hnext : (s.env.after 1 es).answer = fun i => ans (3 + i) := by
      simp only [answer_after_eq, hans, ← Nat.add_assoc]
    simp only [played_env, played_params, played_h, played_played, hnext, byteOf_shift,
      trRecvByte_shift] at hbytes hplay
    exact ⟨bst, fun _ => hbytes, hplay⟩

/-! ### The command -/

/-- The events of I2C_READ of at least one byte: START, the two bytes of the write phase, the read
phase, STOP. -/
theorem i2cReadCommand_ops (p : Params) (dev : BitVec 7) (reg : BitVec 8) {len : BitVec 8}
    (hlen : 0 < len.toNat) :
    (i2cReadCommand p dev reg len).ops = i2cStart p ++
      (sendAll p 0 [(.address, addressByte dev 0#1), (.data, reg)] ++
        (i2cReadPhase p dev len.toNat ++ i2cStop p)) := by
  simp only [i2cReadCommand, i2cOpening, if_neg hlen.ne', sendAll, List.append_assoc,
    List.append_nil]

/-- The write phase of a read stops at its first NACK, whatever was to be taken after it. -/
theorem acksTaken_of_nack {ans : Nat → Bool} (h : true ∈ acksSeen ans 0 2) (m : Nat) :
    acksTaken ans 0 2 = if ans 0 then 1 else if ans 1 then 2 else m := by
  have h01 : ans 0 = true ∨ ans 1 = true := by
    simpa [nack_mem_acksSeen, List.range'_succ] using h
  cases h0 : ans 0 with
  | true => simp [acksTaken, h0]
  | false => simp [acksTaken, h0, h01.resolve_left (by simp [h0])]

/-- I2C_READ played from its accept: its acknowledgments are those up to the first NACK. -/
theorem playAll_i2cRead {s : State} (hacks : s.h.acks = []) (hwf : s.h.bstage.wf) (dev : BitVec 7)
    (reg : BitVec 8) {len : BitVec 8} (hlen : 0 < len.toNat) :
    ∃ bst : Memory,
      (true ∉ acksSeen s.env.answer 0 3 →
        ∀ k < len.toNat, bst.read k = byteOf s.env.answer (3 + 8 * k)) ∧
      playAll (i2cReadCommand s.params dev reg len).ops s =
        s.played { s.h with acks := acksSeen s.env.answer 0 3, bstage := bst }
          (if s.env.answer 0 then 1 else if s.env.answer 1 then 2 else if s.env.answer 2 then 3
            else 3 + 8 * len.toNat)
          (trStart s.params ++ trBytes s.params s.env.answer
            (trRestart s.params ++ trBytes s.params s.env.answer
              (trReceive s.params s.env.answer 3 len.toNat ++ trStop s.params) 2
              [BitVec.ofNat 8 (dev.toNat * 2 + 1)]) 0
            [BitVec.ofNat 8 (dev.toNat * 2), reg]) := by
  have hans : ∀ i, (s.env.after 0 (trStart s.params)).answer i = s.env.answer (0 + i) :=
    answer_after _ _ _
  have hsend := playAll_sendAll (s := s.played s.h 0 (trStart s.params)) (k := 0)
    [(.address, addressByte dev 0#1), (.data, reg)] hacks hans
  simp only [played_params, played_played, played_h, hacks, List.nil_append, addressByte_write,
    List.map_cons, List.map_nil, List.length_cons, List.length_nil, Nat.reduceAdd, Nat.zero_add]
    at hsend
  rw [i2cReadCommand_ops _ _ _ hlen, playAll_emits_append i2cStart_emits, playAll_append,
    addressByte_write, hsend, playAll_append, trBytes_eq, ← List.append_assoc]
  simp only [List.length_cons, List.length_nil, Nat.reduceAdd]
  generalize trStart s.params ++ trSent s.params s.env.answer 0
    [BitVec.ofNat 8 (dev.toNat * 2), reg] = es
  by_cases hnack : true ∈ acksSeen s.env.answer 0 2
  · have hdead : ∀ o ∈ i2cReadPhase s.params dev len.toNat,
        o.live (acksSeen s.env.answer 0 2) = false := fun o ho =>
      dead_of_nack hnack ((length_acksSeen_le _ 0 2).trans (le_phase_i2cReadPhase o ho))
    have hseen : acksSeen s.env.answer 0 3 = acksSeen s.env.answer 0 2 := acksSeen_of_nack hnack
    refine ⟨s.h.bstage, fun hclean => absurd (hseen ▸ hnack) hclean, ?_⟩
    rw [playAll_dead (s := s.played _ _ es) hdead, i2cStop_emits.playAll_played, if_pos hnack,
      hseen, acksTaken_of_nack hnack (if s.env.answer 2 then 3 else 3 + 8 * len.toNat)]
  · obtain ⟨h0, h1⟩ : s.env.answer 0 = false ∧ s.env.answer 1 = false := by
      simpa [nack_mem_acksSeen, List.range'_succ] using hnack
    have hnext : (s.env.after 2 es).answer = fun i => s.env.answer (2 + i) := answer_after_eq _ _ _
    obtain ⟨bst, hbytes, hread⟩ := playAll_i2cReadPhase
      (s := s.played { s.h with acks := [false, false] } 2 es) rfl hwf hnext dev len.toNat
    refine ⟨bst, fun hclean => hbytes (by simpa [acksSeen, h0, h1] using hclean), ?_⟩
    have hseen : acksSeen s.env.answer 0 2 = [false, false] := by simp [acksSeen, h0, h1]
    have htaken : acksTaken s.env.answer 0 2 = 2 := by simp [acksTaken, h0, h1]
    rw [if_neg hnack, hseen, htaken]
    refine (congrArg (playAll (i2cStop s.params)) hread).trans ?_
    rw [played_played, played_params, i2cStop_emits.playAll_played]
    have hcount : 2 + (1 + 8 * len.toNat) = 3 + 8 * len.toNat := by omega
    cases h2 : s.env.answer 2 <;> simp [h0, h1, h2, acksSeen, trReadPhase, trBytes, hcount]

/-- The result of I2C_READ by its three acknowledgments (41_i2c.md R140). -/
theorem resultOf_i2cRead {c : Command}
    (hc : c.nackResults = [.notPresent, .notAcknowledged, .notPresent]) (ans : Nat → Bool) :
    c.resultOf (acksSeen ans 0 3) =
      if ans 0 then .notPresent else if ans 1 then .notAcknowledged
      else if ans 2 then .notPresent else .ok := by
  rw [Command.resultOf, hc]
  simp only [acksSeen]
  generalize ans 0 = a₀, ans 1 = a₁, ans 2 = a₂
  revert a₀ a₁ a₂
  decide

/-- A command that reports OK has had no NACK. -/
theorem acked_of_resultOf_ok {c : Command} (hc : .ok ∉ c.nackResults) {acks : List Bool}
    (h : c.resultOf acks = .ok) : true ∉ acks := by
  unfold Command.resultOf at h
  split at h
  · rename_i hnone
    intro hnack
    simpa using List.findIdx?_eq_none_iff.1 hnone true hnack
  · rename_i j _
    rw [List.getD_eq_getElem?_getD] at h
    cases hj : c.nackResults[j]? with
    | none => simp [hj] at h
    | some r =>
      rw [hj, Option.getD_some] at h
      exact absurd (h ▸ List.mem_of_getElem? hj) hc

/-- Settles O30: the command's acknowledgments give its result, and with all three the bytes staged are
copied into BUF. -/
theorem i2cReadResult : Obligations.I2cReadResult := by
  intro s dev reg len hq hbuf hpos hlen ans res
  have hwf : (Instr.i2cRead dev reg len).wf s.params = true := decide_eq_true hlen
  obtain ⟨bst, hbytes, hplay⟩ := playAll_i2cRead
    (s := (s.accept (encode (.i2cRead dev reg len))).timeless) rfl reset_memory_wf.2 dev reg hpos
  have hexec := exec_of_played (i := .i2cRead dev reg len) hq hwf rfl hplay
  have hnoOk : Result.ok ∉ (commandOf (.i2cRead dev reg len) s).nackResults := by
    simp [commandOf, i2cReadCommand]
  have hres : (commandOf (.i2cRead dev reg len) s).resultOf (acksSeen ans 0 3) = res :=
    resultOf_i2cRead rfl ans
  refine ⟨if res = .ok then Memory.copy len.toNat bst s.x.buf else s.x.buf, ?_, ?_, ?_,
    fun hfail => if_neg hfail⟩
  · rw [← hres]
    exact hexec
  · intro hok k hk
    rw [if_pos hok, Memory.read_copy hbuf, if_pos hk]
    exact hbytes (acked_of_resultOf_ok hnoOk (hres.trans hok)) k hk
  · intro k hk
    split
    · rw [Memory.read_copy hbuf, if_neg (by omega)]
    · rfl

end Sys2Proof.Machine
end

section
/-! The commands of the Bit-Basher Core from a quiet state to their commit (40_bitbasher.md R105 to R108): a list of
writes puts its events on the port, a list of reads stages its answers bit by bit, and WRITE_BITS issues what
as many WRITE_BITs do. -/

namespace Sys2Proof.Machine

/-! ### The operand checks -/

/-- Check 4 of 30_encoding.md R92, for both commands of format BM. -/
theorem bitRangeOk_of_le {p : Params} {id : BitVec 8} {count : BitVec 6} (hcount : count.toNat ≤ 32)
    (hid : id.toNat < p.numBits) (hend : id.toNat + count.toNat ≤ p.numBits) :
    bitRangeOk p id count = true := by
  simp [bitRangeOk, hcount, hid, hend]

/-! ### Writes -/

theorem coreWrite_emits {p : Params} {acks : List Bool} (id : Nat) (lvl : Level) :
    Emits p acks [coreWrite id lvl] [.pinWr id (levelMask p lvl)] :=
  .write rfl .nil

theorem levelMask_eq_ite (p : Params) (lvl : Level) :
    levelMask p lvl = if lvl = .rel then 2 ^ p.maskW - 1 else 0 := by
  cases lvl <;> rfl

/-- Settles O24: the one event of the command is a write. -/
theorem writeBitResult : Obligations.WriteBitResult := by
  intro s id lvl hq hid
  have hwf : (Instr.writeBit id lvl).wf s.params = true := decide_eq_true hid
  have hplay := coreWrite_emits id.toNat lvl
    (s.accept (encode (.writeBit id lvl))).timeless rfl rfl
  rw [← levelMask_eq_ite]
  exact exec_of_played (i := .writeBit id lvl) hq hwf rfl hplay

/-- The elements of WRITE_BITS, index 0 first (40_bitbasher.md R107). -/
theorem writeBits_emits {p : Params} {acks : List Bool} (id : BitVec 8) (count : BitVec 6)
    (arg : Word) : Emits p acks (writeBitsCommand id count arg).ops
      ((List.range count.toNat).map fun i => evW p (id.toNat + i) (arg.getLsbD i)) := by
  rw [writeBitsCommand, List.map_eq_flatMap, List.map_eq_flatMap]
  refine .flatMap fun i => ?_
  rw [← pinWr_ofBit]
  exact coreWrite_emits _ _

/-- Settles O26: every event of the command is a write. -/
theorem writeBitsResult : Obligations.WriteBitsResult := by
  intro s id count hq hcount hid hend
  have hwf : (Instr.writeBits id count).wf s.params = true := bitRangeOk_of_le hcount hid hend
  have hplay := writeBits_emits id count s.x.arg
    (s.accept (encode (.writeBits id count))).timeless rfl rfl
  exact exec_of_played (i := .writeBits id count) hq hwf rfl hplay

/-! ### Reads -/

/-- A core read takes one answer and stages it. -/
theorem playAll_coreRead (id i : Nat) (s : State) :
    playAll [coreRead id i] s =
      s.played { s.h with rstage := setBit s.h.rstage i (s.env.answer 0) } 1
        [evR id (s.env.answer 0)] := by
  rw [playAll_cons_live (o := coreRead id i) rfl, coreRead, play_read]
  rfl

/-- The first `m` elements of READ_BITS: answer `i` is bit `i` of the staged word
(40_bitbasher.md R108). -/
theorem playAll_coreReads (id : Nat) {m : Nat} (hm : m ≤ 32) (s : State) :
    ∃ v : Word,
      (∀ i < 32, v.getLsbD i = if i < m then s.env.answer i else s.h.rstage.getLsbD i) ∧
      playAll ((List.range m).map fun i => coreRead (id + i) i) s =
        s.played { s.h with rstage := v } m
          ((List.range m).map fun i => evR (id + i) (s.env.answer i)) := by
  induction m with
  | zero => exact ⟨s.h.rstage, by simp, (played_nothing s).symm⟩
  | succ m ih =>
    obtain ⟨v, hbits, hplay⟩ := ih (by omega)
    refine ⟨setBit v m (s.env.answer m), fun i hi => ?_, ?_⟩
    · rw [getLsbD_setBit v m _ hi, hbits i hi]
      by_cases him : i = m
      · rw [if_pos him, if_pos (by omega), him]
      · rw [if_neg him]
        exact if_congr (by omega) rfl rfl
    · rw [List.range_succ, List.map_append, List.map_append, playAll_append, hplay,
        List.map_singleton, playAll_coreRead, played_played, played_env, answer_after]
      rfl

/-- Settles O25: the one answer is staged in bit 0 of a word of zeros. -/
theorem readBitResult : Obligations.ReadBitResult := by
  intro s id hq hid
  have hwf : (Instr.readBit id).wf s.params = true := decide_eq_true hid
  have hplay := playAll_coreRead id.toNat 0 (s.accept (encode (.readBit id))).timeless
  have hword (b : Bool) : setBit 0#32 0 b = (BitVec.ofBool b).setWidth 32 := by
    cases b <;> rfl
  rw [← hword]
  exact exec_of_played (i := .readBit id) hq hwf rfl hplay

/-- Settles O27: the answers are staged, one bit after the other, in a word of zeros. -/
theorem readBitsResult : Obligations.ReadBitsResult := by
  intro s id count hq hcount hid hend
  have hwf : (Instr.readBits id count).wf s.params = true := bitRangeOk_of_le hcount hid hend
  obtain ⟨v, hbits, hplay⟩ := playAll_coreReads id.toNat hcount
    (s.accept (encode (.readBits id count))).timeless
  refine ⟨v, exec_of_played (i := .readBits id count) hq hwf rfl hplay, fun i hi => ?_⟩
  have hzero : (0#32).getLsbD i = false := BitVec.getLsbD_zero
  refine (hbits i hi).trans ?_
  by_cases hic : i < count.toNat
  · rw [if_pos hic, decide_eq_true hic, Bool.true_and]
    rfl
  · rw [if_neg hic, decide_eq_false hic, Bool.false_and]
    exact hzero

/-! ### WRITE_BITS by single writes -/

theorem writeEach_succ {id n : Nat} {arg : Word} {s u : State}
    (h : writeEach id arg s n = .next u) :
    writeEach id arg s (n + 1) =
      exec (.writeBit (BitVec.ofNat 8 (id + n)) (.ofBit (arg.getLsbD n))) u := by
  simp only [writeEach, h]

/-- `n` WRITE_BITs from a quiet state issue one write each, and leave the state quiet. -/
theorem writeEach_quiet {s : State} (hq : s.quiet) (hids : s.params.numBits ≤ 256) {id : Nat}
    (arg : Word) {n : Nat} (hend : id + n ≤ s.params.numBits) :
    ∃ u, writeEach id arg s n = .next u ∧ u.quiet ∧ u.params = s.params ∧
      u.env.trace = s.env.trace ++
        (List.range n).map fun i => evW s.params (id + i) (arg.getLsbD i) := by
  induction n with
  | zero => exact ⟨s, rfl, hq, rfl, by simp⟩
  | succ n ih =>
    obtain ⟨u, hu, huq, hup, htrace⟩ := ih (by omega)
    have hline : (BitVec.ofNat 8 (id + n)).toNat = id + n := by
      rw [BitVec.toNat_ofNat]
      omega
    have hexec := writeBitResult u (BitVec.ofNat 8 (id + n)) (.ofBit (arg.getLsbD n)) huq
      (by rw [hline, hup]; omega)
    rw [← levelMask_eq_ite, pinWr_ofBit, hline, hup] at hexec
    refine ⟨_, (writeEach_succ hu).trans hexec, ⟨rfl, huq.2⟩, hup, ?_⟩
    rw [List.range_succ, List.map_append, ← List.append_assoc, ← htrace]
    rfl

/-- Settles O37: both traces are one write for each element, index 0 first. -/
theorem writeBitsIsRepeatedWriteBit : Obligations.WriteBitsIsRepeatedWriteBit := by
  intro s id count hp hq hcount hid hend
  obtain ⟨⟨-, hids⟩, -⟩ := hp
  obtain ⟨u, hu, -, -, htrace⟩ := writeEach_quiet hq hids s.x.arg hend
  exact ⟨_, u, writeBitsResult s id count hq hcount hid hend, hu, htrace.symm⟩

end Sys2Proof.Machine
end

section
/-! A run beside the next host request, with time counted. The wait before an event or a commit ends in a pause, where
the request is due, or the settle delay is over before that (`settleDown_before`); the settle gate and the least
duration of a stretch follow from this. -/

namespace Sys2Proof.Machine

/-! ### The next host request -/

section
variable {s : State} {g : Nat} {r : HostReq} {rest : List HostInput}

theorem elapse_host (hh : s.env.host = ⟨g, r⟩ :: rest) (n : Nat) :
    (s.elapse n).env.host = ⟨g - n, r⟩ :: rest := by
  simp [State.elapse, hh]

theorem perform_host_of_gap (hh : s.env.host = ⟨g, r⟩ :: rest) (o : PinOp) :
    (s.perform o).env.host = ⟨g - 1, r⟩ :: rest := by
  rw [perform_host_eq, elapse_host hh]

theorem elapse_gap_due (hh : s.env.host = ⟨g, r⟩ :: rest) (hr : r ≠ .wait) :
    (s.elapse g).due = true :=
  due_of_gap_zero (by rw [elapse_host hh, Nat.sub_self]) (.inl hr)

/-- The wait before an event or a commit: the host request ends it, or the settle delay is over before. -/
theorem settleDown_before (hh : s.env.host = ⟨g, r⟩ :: rest) (hr : r ≠ .wait) :
    (s.settleDown = s.elapse g ∧ s.settleDown.due = true) ∨
      ∃ m < g, s.h.settle ≤ m ∧ s.settleDown = s.elapse m ∧ s.settleDown.due = false := by
  have hwait : s.settleDown = s.elapse g ∨
      s.settleDown = s.elapse (min (s.h.settle + s.slack) g) := by
    have hb : s.budget = some g := by
      unfold State.budget
      rw [hh]
      cases r with
      | wait => exact absurd rfl hr
      | read | write | reset => rfl
    simp only [State.settleDown, hb]
    split
    · exact .inl rfl
    · exact .inr rfl
  by_cases hpause : s.settleDown = s.elapse g
  · exact .inl ⟨hpause, by rw [hpause]; exact elapse_gap_due hh hr⟩
  · have hwait := hwait.resolve_left hpause
    have hm : s.h.settle + s.slack < g := by
      by_contra hge
      rw [Nat.min_eq_right (by omega)] at hwait
      exact hpause hwait
    rw [Nat.min_eq_left hm.le] at hwait
    refine .inr ⟨_, hm, Nat.le_add_right _ _, hwait, ?_⟩
    rw [hwait]
    exact due_of_later (elapse_host hh _) (by omega)

/-- Where a request is due, no further cycle passes. -/
theorem settleDown_of_gap_zero (hh : s.env.host = ⟨0, r⟩ :: rest) (hr : r ≠ .wait) :
    s.settleDown = s ∧ s.settleDown.due = true := by
  obtain ⟨hwait, hdue⟩ | ⟨m, hm, -⟩ := settleDown_before hh hr
  · exact ⟨by rw [hwait, elapse_zero], hdue⟩
  · exact absurd hm (Nat.not_lt_zero m)

/-- A step that has no request to serve yet goes on with the running command. -/
theorem step_run_of_later {i : Instr} (hb : s.x.busy = true) (hd : decode s.h.cur = .ok i)
    (hh : s.env.host = ⟨g, r⟩ :: rest) (hg : 0 < g) :
    step s = .next (run (commandOf i s) ((commandOf i s).remaining s.h) s) := by
  obtain ⟨-, -, -, -, hdue, -⟩ | ⟨-, -, hs⟩ | ⟨-, hidle, -⟩ := step_cases s
  · simp [due_of_later hh hg] at hdue
  · rw [hs, resume_of_decode hd]
  · simp [hb] at hidle

theorem enter_self (s : State) : s.enter s.h.fsm = s := by
  rw [enter_eq, ite_self]

/-! ### The settle gate (40_bitbasher.md R102) -/

/-- A run that pauses in its first wait has changed time and h.FSM only. -/
theorem run_of_due {c : Command} {ops : List PinOp} (hlive : ∀ o ∈ ops, o.live s.h.acks = true)
    (hdue : s.settleDown.due = true) : ∃ f, run c ops s = s.settleDown.enter f := by
  cases ops with
  | nil => exact ⟨s.settleDown.h.fsm, by rw [run, if_pos hdue, enter_self]⟩
  | cons o ops => exact ⟨o.fsm, by simp [run, hlive o List.mem_cons_self, hdue]⟩

/-- Settles O43: the settle delay outlasts the cycles to the request, so the first wait of the run ends
in a pause. -/
theorem settleHoldsEventsBack : Obligations.SettleHoldsEventsBack := by
  intro s i g r rest hb hd hh hr hg hsettle
  obtain ⟨hwait, hdue⟩ | ⟨m, hm, hover, -⟩ := settleDown_before hh hr
  · obtain ⟨f, hrun⟩ := run_of_due (c := commandOf i s)
      (fun _ ho => (mem_ops_of_mem_remaining ho).2) hdue
    refine ⟨_, step_run_of_later hb hd hh hg, ?_⟩
    have hhost : (s.elapse g).env.host = ⟨0, r⟩ :: rest := by rw [elapse_host hh, Nat.sub_self]
    rw [hrun, hwait, enter_env, ← hhost]
    exact ⟨by simp, rfl, by simp, by simp, by simp⟩
  · omega

theorem eventOf_enter (o : PinOp) (f : Fsm) (s : State) : (s.enter f).eventOf o = s.eventOf o := by
  cases o <;> simp [State.eventOf, State.nextLevel]

/-- An event loads the settle counter if it is a write, and lets it run for one cycle if it is a read. -/
theorem perform_settle (o : PinOp) (s : State) :
    (s.perform o).h.settle =
      writeCount [s.eventOf o] * (s.x.udelay.toNat * s.params.clkPerUs) +
        readCount [s.eventOf o] * (s.h.settle - 1) := by
  cases o <;> simp [State.perform, State.eventOf, writeCount, readCount]

/-- A one-event command, one cycle after its accept with no settle delay running: the event is still to
come or has been issued, and no register has changed. -/
theorem run_one_cycle (c : Command) {o : PinOp} (hlive : o.live s.h.acks = true)
    (hsettle : s.h.settle = 0) (hh : s.env.host = ⟨1, r⟩ :: rest) (hr : r ≠ .wait) :
    (run c [o] s).x = s.x ∧
      ((run c [o] s).h.seq = s.h.seq ∧ (run c [o] s).h.settle = 0 ∧
        (run c [o] s).env.trace = s.env.trace ∨
       (run c [o] s).h.seq = s.h.seq + 1 ∧ (run c [o] s).h.settle = (s.perform o).h.settle ∧
        (run c [o] s).env.trace = s.env.trace ++ [s.eventOf o]) := by
  obtain ⟨hwait, hdue⟩ | ⟨m, hm, -, hwait, hdue⟩ := settleDown_before hh hr
  · obtain ⟨f, hrun⟩ := run_of_due (c := c) (ops := [o]) (by simpa using hlive) hdue
    rw [hrun, hwait]
    exact ⟨by simp, .inl (by simp [hsettle])⟩
  · rw [Nat.lt_one_iff.1 hm, elapse_zero] at hwait
    rw [hwait] at hdue
    have hissue : run c [o] s = run c [] ((s.enter o.fsm).perform o) := by
      simp only [run, hlive, hwait, enter_due, hdue, if_true, Bool.false_eq_true, if_false]
    have hhost := perform_host_of_gap (s := s.enter o.fsm) (by rw [enter_env, hh]) o
    obtain ⟨hsame, hdue'⟩ := settleDown_of_gap_zero hhost hr
    obtain ⟨f, hpause⟩ := run_of_due (c := c) (ops := []) (by simp) hdue'
    rw [hissue, hpause, hsame]
    exact ⟨by simp, .inr ⟨by simp, by simp [perform_settle, eventOf_enter],
      by simp [perform_trace, eventOf_enter]⟩⟩

/-- Settles O44: in the one cycle the command has waited, or has issued its event; a write loads the
settle counter and a read does not. -/
theorem writeLoadsSettle : Obligations.WriteLoadsSettle := by
  intro s id lvl r rest hb hsettle hid hh hr
  constructor
  · obtain ⟨hx, hseen⟩ := run_one_cycle (o := coreWrite id.toNat lvl)
      (s := s.accept (encode (.writeBit id lvl))) (writeBitCommand id lvl) rfl hsettle hh hr
    refine ⟨_, exec_of_wf hb (decide_eq_true hid), congrArg Regs.busy hx, ?_⟩
    rw [← pinWr_ofBit, Level.ofBit_toBit]
    exact hseen
  · obtain ⟨hx, hseen⟩ := run_one_cycle (o := coreRead id.toNat 0)
      (s := s.accept (encode (.readBit id))) (readBitCommand id) rfl hsettle hh hr
    refine ⟨_, exec_of_wf hb (decide_eq_true hid), congrArg Regs.busy hx, ?_⟩
    rw [← nextLevel_eq]
    obtain ⟨hseq, hzero, htrace⟩ | ⟨hseq, hzero, htrace⟩ := hseen
    · exact ⟨hzero, .inl ⟨hseq, htrace⟩⟩
    · refine ⟨hzero.trans ?_, .inr ⟨hseq, htrace⟩⟩
      rw [coreRead, State.perform, pinRead_settle, accept_settle, hsettle]

end

/-! ### The least duration (70_reset_and_hazards.md R240, R252) -/

/-- The cycles that the events `es`, issued from `s` on, take at least: the settle delay that runs in
`s`, that of each write, and one cycle for each event. -/
def State.least (s : State) (es : List PinEvent) : Nat :=
  s.h.settle + writeCount es * (s.x.udelay.toNat * s.params.clkPerUs) + es.length

theorem least_nil (s : State) : s.least [] = s.h.settle := by
  simp [State.least, writeCount]

theorem least_enter (f : Fsm) (s : State) (es : List PinEvent) :
    (s.enter f).least es = s.least es := by
  simp [State.least]

/-- Cycles that pass take that much off the settle delay. -/
theorem least_elapse_le (s : State) (n : Nat) (es : List PinEvent) :
    s.least es ≤ n + (s.elapse n).least es := by
  simp only [State.least, elapse_settle, elapse_x, elapse_params]
  omega

/-- An event takes one cycle, and the settle delay of a write runs from it on. -/
theorem least_cons_le (o : PinOp) {s : State} (hsettle : s.h.settle = 0) (es : List PinEvent) :
    s.least (s.eventOf o :: es) ≤ 1 + (s.perform o).least es := by
  have hcount : writeCount (s.eventOf o :: es) = writeCount [s.eventOf o] + writeCount es :=
    List.countP_append (l₁ := [s.eventOf o])
  simp only [State.least, hsettle, hcount, perform_settle, perform_x, perform_params, Nat.add_mul,
    List.length_cons]
  omega

/-- From `s`, its next host request `g` cycles away, a stretch of a command leads to `t`: paused at the
request or committed before it, after at least the cycles that its events and its commit take. -/
def State.Lasts (g : Nat) (r : HostReq) (rest : List HostInput) (s t : State) : Prop :=
  ∃ es, t.env.trace = s.env.trace ++ es ∧
    (t.x.busy = true → t.env.host = ⟨0, r⟩ :: rest ∧ s.least es ≤ g + t.h.settle) ∧
    (t.x.busy = false → ∃ g', t.env.host = ⟨g', r⟩ :: rest ∧ g' + s.least es + 1 ≤ g)

section
variable {s t : State} {g m : Nat} {r : HostReq} {rest : List HostInput}

/-- A stretch with no event that ends in a pause. -/
theorem State.Lasts.pause (hh : s.env.host = ⟨g, r⟩ :: rest) (hb : s.x.busy = true) (f : Fsm) :
    s.Lasts g r rest ((s.elapse g).enter f) := by
  refine ⟨[], by simp, fun _ => ⟨?_, ?_⟩, fun hidle => ?_⟩
  · rw [enter_env, elapse_host hh, Nat.sub_self]
  · rw [least_nil, enter_settle, elapse_settle]
    omega
  · simp [hb] at hidle

/-- A stretch with no event that commits after `m` cycles. -/
theorem State.Lasts.commit (hh : s.env.host = ⟨g, r⟩ :: rest) (hm : m < g) (hover : s.h.settle ≤ m)
    (d : Deliver) (res : Result) : s.Lasts g r rest ((s.elapse m).finish d res) := by
  refine ⟨[], by simp, fun hbusy => ?_, fun _ => ⟨g - m - 1, ?_, ?_⟩⟩
  · simp at hbusy
  · rw [finish_env]
    exact elapse_host (elapse_host hh m) 1
  · rw [least_nil]
    omega

/-- A stretch whose first event comes after `m` cycles. -/
theorem State.Lasts.event {o : PinOp} {f : Fsm} (hm : m < g) (hover : s.h.settle ≤ m)
    (h : (((s.elapse m).enter f).perform o).Lasts (g - m - 1) r rest t) : s.Lasts g r rest t := by
  obtain ⟨es, htrace, hpause, hcommit⟩ := h
  have hzero : ((s.elapse m).enter f).h.settle = 0 := by
    rw [enter_settle, elapse_settle, Nat.sub_eq_zero_of_le hover]
  have hwait := least_elapse_le s m (((s.elapse m).enter f).eventOf o :: es)
  have hissue := least_cons_le o hzero es
  rw [least_enter] at hissue
  refine ⟨((s.elapse m).enter f).eventOf o :: es, ?_, fun hb => ?_, fun hb => ?_⟩
  · rw [htrace, perform_trace]
    simp
  · obtain ⟨hhost, hle⟩ := hpause hb
    exact ⟨hhost, by omega⟩
  · obtain ⟨g', hhost, hle⟩ := hcommit hb
    exact ⟨g', hhost, by omega⟩

/-- A run by its events: each wait ends in a pause, or covers the settle delay before the event or the commit
that follows it. -/
theorem run_lasts (c : Command) (ops : List PinOp) (hh : s.env.host = ⟨g, r⟩ :: rest)
    (hr : r ≠ .wait) (hb : s.x.busy = true) : s.Lasts g r rest (run c ops s) := by
  induction ops generalizing s g with
  | nil =>
    rw [run]
    obtain ⟨hwait, hdue⟩ | ⟨m, hm, hover, hwait, hdue⟩ := settleDown_before hh hr
    · rw [if_pos hdue, hwait, ← enter_self (s.elapse g)]
      exact .pause hh hb _
    · rw [if_neg (by simp [hdue]), hwait]
      exact .commit hh hm hover _ _
  | cons o ops ih =>
    by_cases hlive : o.live s.h.acks = true
    · simp only [run, if_pos hlive, enter_due]
      obtain ⟨hwait, hdue⟩ | ⟨m, hm, hover, hwait, hdue⟩ := settleDown_before hh hr
      · rw [if_pos hdue, hwait]
        exact .pause hh hb _
      · rw [if_neg (by simp [hdue]), hwait]
        refine .event hm hover (ih (perform_host_of_gap ?_ o) (by simpa using hb))
        rw [enter_env, elapse_host hh]
    · rw [run_skip hlive]
      exact ih hh hb

end

/-- Settles O45: a stretch is a run of events, from the accept or from where the command stands. -/
theorem minimumDuration : Obligations.MinimumDuration := by
  rintro s t i g r rest hh hr (⟨hb, hwf, he⟩ | ⟨hb, hd, hg, hs⟩)
  · rw [exec_of_wf hb hwf] at he
    cases he
    exact run_lasts (s := s.accept (encode i)) _ _ hh hr rfl
  · rw [step_run_of_later hb hd hh hg] at hs
    cases hs
    exact run_lasts _ _ hh hr hb

end Sys2Proof.Machine
end

section
/-! The result of a commit (60_exceptions.md R204). A commit, in the step of the accept or in a later one, is the end of
a run that stands in its command (`Commits.run`); a run whose command samples no acknowledgment has none to
report a failure by. -/

namespace Sys2Proof.Machine

/-! ### Every commit is the end of a run -/

/-- A step that ends a running command has gone on with it: a request other than the reset leaves BUSY
at 1. -/
theorem resume_of_commit {s t : State} (hb : s.x.busy = true) (hreset : s.notReset)
    (hs : step s = .next t) (ht : t.x.busy = false) : resume s = .next t := by
  obtain ⟨g, r, rest, hhost, hdue, hserve⟩ | ⟨-, -, hresume⟩ | ⟨-, hidle, -⟩ := step_cases s
  · have hr := ne_reset_of_due hreset hhost hdue
    obtain ⟨hbt, -⟩ := serve_of_busy (s := s.withHost rest) hb hr (hserve.symm.trans hs)
    simp [ht] at hbt
  · exact hresume.symm.trans hs
  · simp [hb] at hidle

/-- The run that a commit ends, from the accept or from the middle of the command on. -/
theorem Commits.run {i : Instr} {s t : State} {before : List PinEvent} (h : Commits i s t before) :
    ∃ ops u, u.x.busy = true ∧ (∀ o ∈ ops, o ∈ (commandOf i s).ops) ∧
      (commandOf i s).StandsAt ops u.h ∧ t = Machine.run (commandOf i s) ops u := by
  obtain ⟨ht, ⟨hb, hwf, he, -⟩ | ⟨hb, hI, hd, hreset, hs, -⟩⟩ := h
  · rw [exec_of_wf hb hwf] at he
    cases he
    exact ⟨_, s.accept (encode i), rfl, fun _ ho => ho,
      .first (commandOf_planned i s) rfl rfl, rfl⟩
  · have hresume := resume_of_commit hb hreset hs ht
    rw [resume_of_decode hd] at hresume
    cases hresume
    obtain ⟨-, j, hj, -, hu⟩ := hI.running hb
    obtain rfl : i = j := by simpa [hd] using hj
    exact ⟨_, s, hb, fun _ ho => (mem_ops_of_mem_remaining ho).1,
      hu.standsAt (commandOf_planned i s), rfl⟩

/-! ### Commands that sample no acknowledgment -/

/-- No event of the list samples an acknowledgment. -/
def Unacked (l : List PinOp) : Prop := ∀ o ∈ l, o.samples = 0

section
variable {l l' : List PinOp}

theorem Unacked.append (h : Unacked l) (h' : Unacked l') : Unacked (l ++ l') :=
  List.forall_mem_append.2 ⟨h, h'⟩

theorem Unacked.flatMap {α : Type} {xs : List α} {f : α → List PinOp}
    (h : ∀ x, Unacked (f x)) : Unacked (xs.flatMap f) := by
  intro o ho
  obtain ⟨x, -, hx⟩ := List.mem_flatMap.1 ho
  exact h x o hx

theorem mdioSendBit_unacked (p : Params) (f : Fsm) (b : Bool) : Unacked (mdioSendBit p f b) := by
  simp [Unacked, mdioSendBit, PinOp.samples]

theorem mdioSendBits_unacked (p : Params) (f : Fsm) {n : Nat} (v : BitVec n) :
    Unacked (mdioSendBits p f v) :=
  .flatMap (mdioSendBit_unacked p f)

theorem mdioOpening_unacked (p : Params) (opc : BitVec 2) (phy reg : BitVec 5) :
    Unacked (mdioPreamble p ++ mdioHeader p opc phy reg) :=
  .append (.flatMap (mdioSendBit_unacked p .preamble))
    ((((mdioSendBits_unacked p .frame mdioStart).append (mdioSendBits_unacked p .frame opc)).append
      (mdioSendBits_unacked p .frame phy)).append (mdioSendBits_unacked p .frame reg))

theorem mdioRelease_unacked (p : Params) : Unacked (mdioRelease p) := by
  simp [Unacked, mdioRelease, PinOp.samples]

/-- Only the I2C framer samples acknowledgments. -/
theorem commandOf_unacked {i : Instr}
    (hi : ∀ dev reg len, i ≠ .i2cWrite dev reg len ∧ i ≠ .i2cRead dev reg len) (s : State) :
    Unacked (commandOf i s).ops := by
  cases i with
  | writeBit id lvl => simp [Unacked, commandOf, writeBitCommand, coreWrite, PinOp.samples]
  | readBit id => simp [Unacked, commandOf, readBitCommand, coreRead, PinOp.samples]
  | writeBits id count => simp [Unacked, commandOf, writeBitsCommand, coreWrite, PinOp.samples]
  | readBits id count => simp [Unacked, commandOf, readBitsCommand, coreRead, PinOp.samples]
  | i2cWrite dev reg len => exact absurd rfl (hi dev reg len).1
  | i2cRead dev reg len => exact absurd rfl (hi dev reg len).2
  | mdioRead phy reg =>
    have hta := mdioSendBit_unacked s.params .ta true
    have hbit (k : Nat) : Unacked (mdioRecvBit s.params k) := by
      simp [Unacked, mdioRecvBit, PinOp.samples]
    exact (((mdioOpening_unacked _ mdioOpRead phy reg).append (hta.append hta)).append
      (.flatMap hbit)).append (mdioRelease_unacked _)
  | mdioWrite phy reg =>
    exact (((mdioOpening_unacked _ mdioOpWrite phy reg).append (mdioSendBits_unacked _ _ _)).append
      (mdioSendBits_unacked _ _ _)).append (mdioRelease_unacked _)

/-- An event without a sample leaves the acknowledgments as they are. -/
theorem play_acks {o : PinOp} (ho : o.samples = 0) (s : State) : (s.play o).h.acks = s.h.acks := by
  cases o with
  | wb f n id lvl => rfl
  | rb f n id sink =>
    cases sink with
    | ack => simp [PinOp.samples] at ho
    | word i | byte k j => rfl

theorem Unacked.playAll_acks (h : Unacked l) (s : State) : (playAll l s).h.acks = s.h.acks := by
  induction l generalizing s with
  | nil => rfl
  | cons o l ih =>
    obtain ⟨ho, hl⟩ := List.forall_mem_cons.1 h
    rw [playAll, ih hl]
    split
    · exact play_acks ho s
    · rfl

end

/-- A run that samples no acknowledgment commits with the result of those it began with. -/
theorem run_result_of_unacked {c : Command} {ops : List PinOp} {s : State} (h : Unacked ops)
    (hb : s.x.busy = true) (ht : (run c ops s).x.busy = false) :
    (run c ops s).x.result = c.resultOf s.h.acks := by
  have hend := congrArg (fun u : State => u.x.result) (run_commit_alone c ops s hb ht)
  exact hend.trans (congrArg c.resultOf (h.playAll_acks s.alone.timeless))

/-- In a command that samples no acknowledgment there is none at any position. -/
theorem Command.StandsAt.acks_nil {c : Command} {ops : List PinOp} {h : Hidden}
    (hat : c.StandsAt ops h) (hc : Unacked c.ops) : h.acks = [] := by
  have hzero : ((c.issued h).map PinOp.samples).sum = 0 := by
    refine List.sum_eq_zero fun n hn => ?_
    obtain ⟨o, ho, rfl⟩ := List.mem_map.1 hn
    exact hc o (List.mem_filter.1 (List.mem_of_mem_take ho)).1
  exact List.length_eq_zero_iff.1 (hat.samples.trans hzero)

/-- Settles O40: no core or MDIO command samples an acknowledgment, so its commit finds no NACK. -/
theorem onlyI2cReportsFailure : Obligations.OnlyI2cReportsFailure := by
  intro s t i before hi h
  have hc := commandOf_unacked hi s
  obtain ⟨ops, u, hb, hmem, hat, rfl⟩ := h.run
  rw [run_result_of_unacked (fun o ho => hc o (hmem o ho)) hb h.1, hat.acks_nil hc]
  rfl

end Sys2Proof.Machine
end

section
/-! I2C_READ of no byte (41_i2c.md R155): with no read phase its events are those of an I2C_WRITE of no byte, and only
its results are its own. -/

namespace Sys2Proof.Machine

/-- With no byte to read or to write, both commands are the write phase and STOP. -/
theorem i2cReadCommand_ops_nothing (p : Params) (dev : BitVec 7) (reg : BitVec 8) (buf : Memory) :
    (i2cReadCommand p dev reg 0#8).ops = (i2cWriteCommand p dev reg 0#8 buf).ops := rfl

/-- The result of I2C_READ by the two acknowledgments of its write phase (41_i2c.md R140). -/
theorem resultOf_i2cRead_nothing {c : Command}
    (hc : c.nackResults = [.notPresent, .notAcknowledged, .notPresent]) (ans : Nat → Bool) :
    c.resultOf (acksSeen ans 0 2) =
      if ans 0 then .notPresent else if ans 1 then .notAcknowledged else .ok := by
  rw [Command.resultOf, hc]
  simp only [acksSeen]
  cases ans 0 with
  | true => rfl
  | false => cases ans 1 <;> rfl

/-- A delivery of no byte leaves BUF as it is, whatever the result. -/
theorem deliver_no_byte (res : Result) (buf bstage : Memory) :
    (Deliver.bytes 0).buf res buf bstage = buf :=
  ite_self buf

/-- Settles O29: the events are played as those of an I2C_WRITE of no byte, the two acknowledgments give
the result, and no byte is delivered. -/
theorem i2cReadNothingResult : Obligations.I2cReadNothingResult := by
  intro s dev reg hq
  have hwf : (Instr.i2cRead dev reg 0#8).wf s.params = true := by simp [Instr.wf, lengthOk]
  have hplay := playAll_i2cWrite (s := (s.accept (encode (.i2cRead dev reg 0#8))).timeless) rfl
    dev reg 0#8 s.x.buf
  rw [← i2cReadCommand_ops_nothing] at hplay
  have hexec := exec_of_played (i := .i2cRead dev reg 0#8) hq hwf rfl hplay
  have hres := resultOf_i2cRead_nothing (c := commandOf (.i2cRead dev reg 0#8) s) rfl s.env.answer
  rw [← hres]
  refine hexec.trans (congrArg (fun buf => Host.Outcome.next (s.afterCommand _ _ false _ buf _ _)) ?_)
  exact deliver_no_byte _ s.x.buf []

end Sys2Proof.Machine
end

section
/-! The event counts of the I2C commands (41_i2c.md R151, R156): the counts of a trace are those of its parts, and each
byte sent adds 27 writes and one read for as long as acknowledgments are taken. -/

namespace Sys2Proof.Machine

/-! ### Counting along a trace -/

@[simp] theorem counts_append (es fs : List PinEvent) :
    writeCount (es ++ fs) = writeCount es + writeCount fs ∧
      readCount (es ++ fs) = readCount es + readCount fs :=
  ⟨List.countP_append, List.countP_append⟩

/-- Pieces with the same counts, one after the other. -/
theorem counts_flatMap {α : Type} {f : α → List PinEvent} {w r : Nat}
    (h : ∀ x, writeCount (f x) = w ∧ readCount (f x) = r) (xs : List α) :
    writeCount (xs.flatMap f) = w * xs.length ∧ readCount (xs.flatMap f) = r * xs.length := by
  induction xs with
  | nil => exact ⟨rfl, rfl⟩
  | cons x xs ih => simp [h x, ih, Nat.mul_succ, Nat.add_comm]

section
variable (p : Params) (clock data : Nat)

@[simp] theorem counts_trStart : writeCount (trStart p) = 2 ∧ readCount (trStart p) = 0 := ⟨rfl, rfl⟩

@[simp] theorem counts_trRestart :
    writeCount (trRestart p) = 4 ∧ readCount (trRestart p) = 0 := ⟨rfl, rfl⟩

@[simp] theorem counts_trStop : writeCount (trStop p) = 3 ∧ readCount (trStop p) = 0 := ⟨rfl, rfl⟩

@[simp] theorem counts_trAck (a : Bool) :
    writeCount (trAck p a) = 3 ∧ readCount (trAck p a) = 1 := ⟨rfl, rfl⟩

@[simp] theorem counts_trBit (b : Bool) :
    writeCount (trBit p clock data b) = 3 ∧ readCount (trBit p clock data b) = 0 := ⟨rfl, rfl⟩

theorem counts_trSample (b : Bool) :
    writeCount (trSample p clock data b) = 2 ∧ readCount (trSample p clock data b) = 1 := ⟨rfl, rfl⟩

/-- Three writes for each bit of a field. -/
@[simp] theorem counts_trField {n : Nat} (v : BitVec n) :
    writeCount (trField p clock data v) = 3 * n ∧ readCount (trField p clock data v) = 0 := by
  simpa [trField] using counts_flatMap (fun k => counts_trBit p clock data (v.getLsbD (n - 1 - k)))
    (List.range n)

/-- A received byte: the release of SDA, eight samples, the framer's own acknowledgment bit. -/
theorem counts_trRecvByte (ans : Nat → Bool) (k : Nat) (b : Bool) :
    writeCount (trRecvByte p ans k b) = 20 ∧ readCount (trRecvByte p ans k b) = 8 := by
  have hbits := counts_flatMap (fun j => counts_trSample p p.sclId p.sdaId (ans (k + j)))
    (List.range 8)
  have hrelease : writeCount [evW p p.sdaId true] = 1 ∧ readCount [evW p p.sdaId true] = 0 :=
    ⟨rfl, rfl⟩
  simp only [trRecvByte, counts_append, hrelease, hbits, counts_trBit, List.length_range,
    Nat.reduceMul, Nat.reduceAdd, and_self]

@[simp] theorem counts_trReceive (ans : Nat → Bool) (k n : Nat) :
    writeCount (trReceive p ans k n) = 20 * n ∧ readCount (trReceive p ans k n) = 8 * n := by
  simpa [trReceive_eq] using counts_flatMap
    (fun m => counts_trRecvByte p ans (k + 8 * m) (decide (m + 1 = n))) (List.range n)

/-- Each acknowledgment taken closes one byte sent. -/
theorem counts_trSent (ans : Nat → Bool) (k : Nat) (vs : List Byte) :
    writeCount (trSent p ans k vs) = 27 * acksTaken ans k vs.length ∧
      readCount (trSent p ans k vs) = acksTaken ans k vs.length := by
  induction vs generalizing k with
  | nil => exact ⟨rfl, rfl⟩
  | cons v vs ih =>
    rw [trSent, List.length_cons, acksTaken]
    split
    · exact ⟨rfl, rfl⟩
    · simp [ih]
      omega

/-- In a command that only sends bytes the acknowledgments taken fix the counts: START and STOP are there in any
case. -/
theorem counts_trBytes_stop (ans : Nat → Bool) (vs : List Byte) :
    writeCount (trStart p ++ trBytes p ans (trStop p) 0 vs) = 5 + 27 * acksTaken ans 0 vs.length ∧
      readCount (trStart p ++ trBytes p ans (trStop p) 0 vs) = acksTaken ans 0 vs.length := by
  rw [trBytes_eq, ite_self]
  simp [counts_trSent]
  omega

end

/-! ### The acknowledgments taken -/

theorem acksTaken_of_acked {ans : Nat → Bool} {k n : Nat} (h : ∀ j < n, ans (k + j) = false) :
    acksTaken ans k n = n := by
  induction n generalizing k with
  | zero => rfl
  | succ n ih =>
    have h0 : ans k = false := h 0 (Nat.succ_pos n)
    have hrest : acksTaken ans (k + 1) n = n := ih fun j hj => by
      simpa only [Nat.add_assoc, Nat.add_comm 1] using h (j + 1) (Nat.succ_lt_succ hj)
    rw [acksTaken, h0, hrest]
    exact Nat.add_comm 1 n

/-- The first NACK is the last acknowledgment taken (41_i2c.md R140). -/
theorem acksTaken_of_first_nack {ans : Nat → Bool} {k m n : Nat} (hm : m < n)
    (hack : ∀ j < m, ans (k + j) = false) (hnack : ans (k + m) = true) :
    acksTaken ans k n = m + 1 := by
  induction n generalizing k m with
  | zero => omega
  | succ n ih =>
    rw [acksTaken]
    cases m with
    | zero => exact if_pos hnack
    | succ m =>
      have h0 : ans k = false := hack 0 (Nat.succ_pos m)
      have hrest : acksTaken ans (k + 1) n = m + 1 := by
        refine ih (Nat.lt_of_succ_lt_succ hm) (fun j hj => ?_) ?_
        · simpa only [Nat.add_assoc, Nat.add_comm 1] using hack (j + 1) (Nat.succ_lt_succ hj)
        · simpa only [Nat.add_assoc, Nat.add_comm 1] using hnack
      rw [h0, hrest]
      exact Nat.add_comm 1 (m + 1)

/-! ### The commands -/

/-- Settles O33: the number of acknowledgments taken, which the first NACK fixes, gives both counts. -/
theorem i2cWriteEventCounts : Obligations.I2cWriteEventCounts := by
  intro s dev reg len hq htrace hlen ans
  refine ⟨_, i2cWriteResult s dev reg len hq hlen, ?_⟩
  obtain ⟨hwrites, hreads⟩ := counts_trBytes_stop s.params ans
    (BitVec.ofNat 8 (dev.toNat * 2) :: reg :: (List.range len.toNat).map s.x.buf.read)
  simp only [List.length_cons, List.length_map, List.length_range] at hwrites hreads
  simp only [State.afterCommand, Env.after, htrace, List.nil_append]
  rw [hwrites, hreads]
  refine ⟨fun h0 => ?_, fun h0 h1 => ?_, fun j hj hack hnack => ?_, fun hack => ?_⟩
  · rw [acksTaken_of_first_nack (m := 0) (by omega) (by simp) h0]
    simp
  · rw [acksTaken_of_first_nack (m := 1) (by omega) (by simpa using h0) h1]
    simp
  · rw [acksTaken_of_first_nack (m := 2 + j) (by omega) (by simpa using hack) (by simpa using hnack)]
    omega
  · rw [acksTaken_of_acked (fun j hj => by simpa using hack j (by omega))]
    omega

/-- The trace of I2C_READ of at least one byte, in any idle state. -/
theorem exec_i2cRead_trace {s : State} {dev : BitVec 7} {reg len : BitVec 8} (hq : s.quiet)
    (hpos : 0 < len.toNat) (hlen : len.toNat ≤ s.params.bufBytes) :
    ∃ t, exec (.i2cRead dev reg len) s = .next t ∧ t.env.trace = s.env.trace ++
      (trStart s.params ++ trBytes s.params s.env.answer
        (trRestart s.params ++ trBytes s.params s.env.answer
          (trReceive s.params s.env.answer 3 len.toNat ++ trStop s.params) 2
          [BitVec.ofNat 8 (dev.toNat * 2 + 1)]) 0
        [BitVec.ofNat 8 (dev.toNat * 2), reg]) := by
  have hwf : (Instr.i2cRead dev reg len).wf s.params = true := decide_eq_true hlen
  obtain ⟨_, -, hplay⟩ := playAll_i2cRead
    (s := (s.accept (encode (.i2cRead dev reg len))).timeless) rfl reset_memory_wf.2 dev reg hpos
  exact ⟨_, exec_of_played (i := .i2cRead dev reg len) hq hwf rfl hplay, rfl⟩

/-- Settles O34: with no byte to read the trace is that of two bytes sent; else its parts up to the
first NACK are counted. -/
theorem i2cReadEventCounts : Obligations.I2cReadEventCounts := by
  intro s dev reg len hq htrace hlen
  dsimp only
  obtain hn | hn : len.toNat = 0 ∨ 1 ≤ len.toNat := by omega
  · obtain rfl : len = 0#8 := BitVec.eq_of_toNat_eq hn
    refine ⟨_, i2cReadNothingResult s dev reg hq, ?_⟩
    obtain ⟨hwrites, hreads⟩ := counts_trBytes_stop s.params s.env.answer
      [BitVec.ofNat 8 (dev.toNat * 2), reg]
    simp only [State.afterCommand, Env.after, htrace, List.nil_append]
    rw [hwrites, hreads]
    simp +contextual [acksTaken]
  · obtain ⟨t, hexec, ht⟩ := exec_i2cRead_trace (dev := dev) (reg := reg) hq hn hlen
    refine ⟨t, hexec, ?_⟩
    rw [ht, htrace]
    refine ⟨fun _ h0 h1 h2 => ?_, fun h => ?_, fun h0 => ?_, fun h0 h1 => ?_, fun _ h0 h1 h2 => ?_⟩
    · simp [trBytes, h0, h1, h2]
      omega
    · omega
    · simp [trBytes, h0]
    · simp [trBytes, h0, h1]
    · simp [trBytes, h0, h1, h2]

end Sys2Proof.Machine
end

section
/-! How a command that commits ends on the pin-backend port. The trace since the accept shows the command's events up to
the commit, in any schedule (`Commits.trace`), so it ends with what the command ends with whatever was
acknowledged: STOP, for an I2C command (41_i2c.md R137, R141). -/

namespace Sys2Proof.Machine

/-! ### The trace of a command since its accept -/

/-- Since the trace was `before`, the events that `c` has issued are on the port. -/
def State.Shows (c : Command) (before : List PinEvent) (s : State) : Prop :=
  ∃ evs, s.env.trace = before ++ evs ∧
    List.Forall₂ (fun o e => o.shows s.params e = true) (c.issued s.h) evs

section
variable {c : Command} {o : PinOp} {ops : List PinOp} {before : List PinEvent} {s t : State}

/-- In the middle of a command the trace was shorter by h.SEQ events at its accept. -/
theorem State.Underway.shows (h : s.Underway c) :
    s.Shows c (s.env.trace.take (s.env.trace.length - s.h.seq)) := by
  obtain ⟨before, evs, htrace, hevs, -⟩ := h.events
  have hlen : s.h.seq = evs.length := h.issued_length.symm.trans hevs.length_eq
  refine ⟨evs, ?_, hevs⟩
  rw [htrace, hlen, List.length_append, Nat.add_sub_cancel, List.take_left]

/-- Before the first event there is none to show. -/
theorem shows_of_first (hseq : s.h.seq = 0) : s.Shows c s.env.trace :=
  ⟨[], (List.append_nil _).symm, by simp [Command.issued, hseq]⟩

/-- What is shown is not changed by time and h.FSM. -/
theorem State.Shows.gate (h : s.Shows c before) (f : Fsm) :
    (s.settleDown.enter f).Shows c before := by
  obtain ⟨evs, htrace, hevs⟩ := h
  refine ⟨evs, by simpa using htrace, ?_⟩
  rw [issued_congr (h := s.h) (by simp) (by simp)]
  simpa using hevs

/-- The next event joins the events issued. -/
theorem Command.StandsAt.issued_perform (hat : c.StandsAt (o :: ops) s.h)
    (hlive : o.live s.h.acks = true) : c.issued (s.perform o).h = c.issued s.h ++ [o] := by
  have hsplit := issued_append_remaining c s.h
  rw [hat.remaining, List.filter_cons, if_pos hlive, List.append_cons] at hsplit
  have hseq : (s.perform o).h.seq = (c.issued s.h ++ [o]).length := by
    rw [perform_seq, List.length_append, hat.length, List.length_singleton]
  rw [Command.issued, filter_live_next (perform_acks o s) hsplit.symm (hat.phase_le hlive), hseq]
  exact List.take_left

theorem State.Shows.perform (h : s.Shows c before) (hat : c.StandsAt (o :: ops) s.h)
    (hlive : o.live s.h.acks = true) : (s.perform o).Shows c before := by
  obtain ⟨evs, htrace, hevs⟩ := h
  refine ⟨evs ++ [s.eventOf o], by rw [perform_trace, htrace, List.append_assoc], ?_⟩
  rw [perform_params, hat.issued_perform hlive]
  exact List.rel_append hevs (.cons (shows_eventOf o s) .nil)

/-- With no event to come, all those are issued that the acknowledgments let through. -/
theorem Command.StandsAt.issued_of_end {h : Hidden} (hat : c.StandsAt [] h) :
    c.issued h = c.ops.filter fun o => o.live h.acks := by
  have hsplit := issued_append_remaining c h
  rwa [hat.remaining, List.filter_nil, List.append_nil] at hsplit

/-- A run that commits has put on the port all the events that its acknowledgments let through. -/
theorem run_trace_of_commit (hat : c.StandsAt ops s.h) (h : s.Shows c before)
    (hb : s.x.busy = true) (ht : (run c ops s).x.busy = false) :
    ∃ acks evs, (run c ops s).env.trace = before ++ evs ∧
      List.Forall₂ (fun o e => o.shows s.params e = true)
        (c.ops.filter fun o => o.live acks) evs := by
  induction ops generalizing s with
  | nil =>
    obtain ⟨evs, htrace, hevs⟩ := h
    refine ⟨s.h.acks, evs, ?_, hat.issued_of_end ▸ hevs⟩
    simp only [run] at ht ⊢
    split at ht
    · simp [hb] at ht
    · rw [if_neg ‹_›]
      simpa using htrace
  | cons o ops ih =>
    by_cases hlive : o.live s.h.acks = true
    · have hlive' : o.live (s.settleDown.enter o.fsm).h.acks = true := by simpa using hlive
      have hat' : c.StandsAt (o :: ops) (s.settleDown.enter o.fsm).h :=
        hat.congr (by simp) (by simp)
      simp only [run, if_pos hlive] at ht ⊢
      split at ht
      · simp [hb] at ht
      · rw [if_neg ‹_›]
        have hrest := ih (hat'.perform hlive') ((h.gate o.fsm).perform hat' hlive')
          (by simpa using hb) ht
        simpa using hrest
    · rw [run_skip hlive] at ht ⊢
      exact ih (hat.skip hlive) h hb ht

end

/-- Every commit has put on the port, since the accept, the events of its command. -/
theorem Commits.trace {i : Instr} {s t : State} {before : List PinEvent} (h : Commits i s t before) :
    ∃ acks evs, t.env.trace = before ++ evs ∧
      List.Forall₂ (fun o e => o.shows s.params e = true)
        ((commandOf i s).ops.filter fun o => o.live acks) evs := by
  obtain ⟨ht, ⟨hb, hwf, he, rfl⟩ | ⟨hb, hI, hd, hreset, hs, rfl⟩⟩ := h
  · rw [exec_of_wf hb hwf] at he
    cases he
    exact run_trace_of_commit (s := s.accept (encode i)) (.first (commandOf_planned i s) rfl rfl)
      (shows_of_first rfl) rfl ht
  · have hresume := resume_of_commit hb hreset hs ht
    rw [resume_of_decode hd] at hresume
    cases hresume
    obtain ⟨-, j, hj, -, hu⟩ := hI.running hb
    obtain rfl : i = j := by simpa [hd] using hj
    exact run_trace_of_commit (hu.standsAt (commandOf_planned i s)) hu.shows hb ht

/-! ### The last writes of a command -/

/-- The event a `PinWrite` is to put on the port; it does not depend on what the environment answers. -/
theorem shows_write {p : Params} {f : Fsm} {n id : Nat} {lvl : Level} {e : PinEvent} :
    (PinOp.wb f n id lvl).shows p e = true ↔ e = .pinWr id (levelMask p lvl) := by
  cases e <;> simp [PinOp.shows]

/-- STOP needs no acknowledgment. -/
theorem i2cStop_live (p : Params) (acks : List Bool) :
    (i2cStop p).filter (fun o => o.live acks) = i2cStop p := rfl

/-- STOP on the port is its three writes. -/
theorem eq_trStop_of_shows {p : Params} {es : List PinEvent}
    (h : List.Forall₂ (fun o e => o.shows p e = true) (i2cStop p) es) : es = trStop p := by
  simpa [i2cStop, trStop, List.forall₂_cons_left_iff, shows_write, pinWr_rel, pinWr_a0] using h

/-- Every I2C command has STOP as its last events (41_i2c.md R141). -/
theorem i2c_ops_end_with_stop {i : Instr}
    (hi : ∃ dev reg len, i = .i2cWrite dev reg len ∨ i = .i2cRead dev reg len) (s : State) :
    ∃ ops, (commandOf i s).ops = ops ++ i2cStop s.params := by
  obtain ⟨dev, reg, len, rfl | rfl⟩ := hi <;> exact ⟨_, rfl⟩

/-- Settles O38: the trace of a commit shows the command's events, the last of which are STOP. -/
theorem i2cEndsWithStop : Obligations.I2cEndsWithStop := by
  intro s t i before hi h
  obtain ⟨ops, hops⟩ := i2c_ops_end_with_stop hi s
  obtain ⟨acks, evs, htrace, hevs⟩ := h.trace
  rw [hops, List.filter_append, i2cStop_live] at hevs
  have hstop := List.forall₂_drop (ops.filter fun o => o.live acks).length hevs
  rw [List.drop_left] at hstop
  refine ⟨evs.take (ops.filter fun o => o.live acks).length, ?_⟩
  rw [htrace, List.append_assoc, ← trStop, ← eq_trStop_of_shows hstop, List.take_append_drop]

end Sys2Proof.Machine
end

section
/-! MDIO_READ (42_mdio.md R180): everything before and after the samples only writes; each of the sixteen samples stages
its bit of the result word, so at the commit the word is the value of the answers. -/

namespace Sys2Proof.Machine

/-! ### The staged word -/

/-- A word whose low half holds the answers, most significant first, and whose high half is zero is the
value of the answers, zero-extended. -/
theorem eq_valueOf {v : Word} {ans : Nat → Bool}
    (h : ∀ i < 32, v.getLsbD i = if i < 16 then ans (15 - i) else false) :
    v = (valueOf ans).setWidth 32 := by
  refine BitVec.eq_of_getLsbD_eq fun i hi => ?_
  rw [h i hi, BitVec.getLsbD_setWidth, decide_eq_true hi, Bool.true_and, valueOf,
    BitVec.getLsbD_ofFnLE]
  rfl

/-- The first `m` samples (42_mdio.md R175): answer `j` is bit `15 - j` of the staged word. -/
theorem playAll_mdioRecvBits {s : State} (hclean : true ∉ s.h.acks) {m : Nat} (hm : m ≤ 16) :
    ∃ v : Word,
      (∀ i < 32, v.getLsbD i =
        if 16 - m ≤ i ∧ i < 16 then s.env.answer (15 - i) else s.h.rstage.getLsbD i) ∧
      playAll ((List.range m).flatMap fun j => mdioRecvBit s.params (15 - j)) s =
        s.played { s.h with rstage := v } m ((List.range m).flatMap fun j =>
          trSample s.params s.params.mdcId s.params.mdioId (s.env.answer j)) := by
  induction m with
  | zero =>
    exact ⟨s.h.rstage, fun i _ => (if_neg (by omega)).symm, (played_nothing s).symm⟩
  | succ m ih =>
    obtain ⟨v, hbits, hplay⟩ := ih (by omega)
    refine ⟨setBit v (15 - m) (s.env.answer m), fun i hi => ?_, ?_⟩
    · rw [getLsbD_setBit v _ _ hi, hbits i hi]
      by_cases him : i = 15 - m
      · rw [if_pos him, if_pos (by omega), show 15 - i = m by omega]
      · rw [if_neg him]
        exact if_congr (by omega) rfl rfl
    · have hsample := playAll_sample
        (s := s.played { s.h with rstage := v } m ((List.range m).flatMap fun j =>
          trSample s.params s.params.mdcId s.params.mdioId (s.env.answer j)))
        hclean .mrdata 0 s.params.mdcId s.params.mdioId (sink := .word (15 - m)) (by simp)
      simp only [played_played, played_env, answer_after] at hsample
      simp only [List.range_succ, List.flatMap_append, playAll_append, hplay,
        List.flatMap_singleton]
      exact hsample

/-! ### The command -/

/-- The trace of MDIO_READ before its samples (42_mdio.md R180): preamble, ST, OPC, PHY, REG and the two
released turnaround periods. -/
def trMdioReadOpening (p : Params) (phy reg : BitVec 5) : List PinEvent :=
  (List.replicate p.preambleBits true).flatMap (trBit p p.mdcId p.mdioId)
    ++ trField p p.mdcId p.mdioId mdioStart ++ trField p p.mdcId p.mdioId mdioOpRead
    ++ trField p p.mdcId p.mdioId phy ++ trField p p.mdcId p.mdioId reg
    ++ trBit p p.mdcId p.mdioId true ++ trBit p p.mdcId p.mdioId true

theorem mdioReadOpening_emits {p : Params} {acks : List Bool} (phy reg : BitVec 5) : Emits p acks
    (mdioPreamble p ++ mdioHeader p mdioOpRead phy reg
      ++ (mdioSendBit p .ta true ++ mdioSendBit p .ta true))
    (trMdioReadOpening p phy reg) := by
  have hta : Emits p acks (mdioSendBit p .ta true) (trBit p p.mdcId p.mdioId true) :=
    mdioSendBit_emits true
  have h := (mdioPreamble_emits.append (mdioHeader_emits mdioOpRead phy reg)).append
    (hta.append hta)
  simpa only [trMdioReadOpening, trField_append, List.append_assoc] using h

/-- The command's samples in the order of the answers. -/
theorem mdioReadCommand_ops (p : Params) (phy reg : BitVec 5) :
    (mdioReadCommand p phy reg).ops =
      (mdioPreamble p ++ mdioHeader p mdioOpRead phy reg
        ++ (mdioSendBit p .ta true ++ mdioSendBit p .ta true))
      ++ (List.range 16).flatMap (fun j => mdioRecvBit p (15 - j)) ++ mdioRelease p := rfl

theorem playAll_mdioRead {s : State} (hclean : true ∉ s.h.acks) (hstage : s.h.rstage = 0#32)
    (phy reg : BitVec 5) :
    playAll (mdioReadCommand s.params phy reg).ops s =
      s.played { s.h with rstage := (valueOf s.env.answer).setWidth 32 } 16
        (trMdioReadOpening s.params phy reg
          ++ (List.range 16).flatMap
            (fun k => trSample s.params s.params.mdcId s.params.mdioId (s.env.answer k))
          ++ [evW s.params s.params.mdioId true]) := by
  obtain ⟨v, hbits, hsamples⟩ := playAll_mdioRecvBits
    (s := s.played s.h 0 (trMdioReadOpening s.params phy reg)) hclean (m := 16) le_rfl
  simp only [played_params, played_h, played_env, answer_after, Nat.zero_add, played_played, hstage,
    BitVec.getLsbD_zero, Nat.sub_self, Nat.zero_le, true_and] at hbits hsamples
  rw [mdioReadCommand_ops, List.append_assoc, playAll_emits_append (mdioReadOpening_emits phy reg),
    playAll_append, hsamples, mdioRelease_emits.playAll_played, eq_valueOf hbits]

/-- ADVISORY of a zero-extended value (42_mdio.md R181). -/
theorem advisoryOf_ok_setWidth (v : BitVec 16) :
    advisoryOf .ok (v.setWidth 32) = decide (v = 0xFFFF#16) := by
  have hlow : (v.setWidth 32).extractLsb' 0 16 = v := by
    refine BitVec.eq_of_getLsbD_eq fun i hi => ?_
    simp [hi]
    omega
  rw [advisoryOf, hlow]
  rfl

/-- Settles O31: the events played from the accept stage the value of the sixteen answers, which the commit
delivers with the advisory rule. -/
theorem mdioReadResult : Obligations.MdioReadResult := by
  intro s phy reg hq
  have hplay := playAll_mdioRead (s := (s.accept (encode (.mdioRead phy reg))).timeless)
    List.not_mem_nil rfl phy reg
  dsimp only
  rw [← advisoryOf_ok_setWidth]
  exact exec_of_played (i := .mdioRead phy reg) hq rfl rfl hplay

end Sys2Proof.Machine
end

section
/-! What MDIO_READ and MDIO_WRITE come to, read off their traces and commits: the event counts (42_mdio.md R182, R185)
and the advisory no-response (R181). -/

namespace Sys2Proof.Machine

/-! ### Event counts -/

/-- Three writes for each preamble bit. -/
theorem counts_preamble (p : Params) :
    writeCount ((List.replicate p.preambleBits true).flatMap (trBit p p.mdcId p.mdioId))
        = 3 * p.preambleBits ∧
      readCount ((List.replicate p.preambleBits true).flatMap (trBit p p.mdcId p.mdioId)) = 0 := by
  simpa using counts_flatMap (counts_trBit p p.mdcId p.mdioId) (List.replicate p.preambleBits true)

/-- Two writes and one read for each sample. -/
theorem counts_samples (p : Params) (clock data : Nat) (ans : Nat → Bool) (n : Nat) :
    writeCount ((List.range n).flatMap fun k => trSample p clock data (ans k)) = 2 * n ∧
      readCount ((List.range n).flatMap fun k => trSample p clock data (ans k)) = n := by
  simpa using counts_flatMap (fun k => counts_trSample p clock data (ans k)) (List.range n)

/-- The final release is one write. -/
theorem counts_release (p : Params) :
    writeCount [evW p p.mdioId true] = 1 ∧ readCount [evW p p.mdioId true] = 0 := ⟨rfl, rfl⟩

/-- Settles O35: the counts of each command's trace are the sums of those of its parts. -/
theorem mdioEventCounts : Obligations.MdioEventCounts := by
  intro s phy reg hq htrace
  refine ⟨⟨_, mdioReadResult s phy reg hq, ?_⟩, ⟨_, mdioWriteResult s phy reg hq, ?_⟩⟩
  · simp only [State.afterCommand, Env.after, htrace, List.nil_append, counts_append, counts_preamble,
      counts_trField, counts_trBit, counts_samples, counts_release, and_self]
  · simp only [State.afterCommand, Env.after, htrace, List.nil_append, counts_append, counts_preamble,
      counts_trField, counts_release, and_self]

/-! ### The advisory no-response -/

/-- A value is all ones exactly when its sixteen answers are. -/
theorem valueOf_eq_ones_iff {ans : Nat → Bool} :
    valueOf ans = 0xFFFF#16 ↔ ∀ k < 16, ans k = true := by
  have hones : ∀ i < 16, (0xFFFF#16).getLsbD i = true := by decide
  have hbit : ∀ i < 16, (valueOf ans).getLsbD i = ans (15 - i) := fun i hi => by
    rw [valueOf, BitVec.getLsbD_ofFnLE, dif_pos hi]
  constructor
  · intro h k hk
    have hk' := hbit (15 - k) (by omega)
    rw [h, hones _ (by omega), show 15 - (15 - k) = k by omega] at hk'
    exact hk'.symm
  · intro h
    refine BitVec.eq_of_getLsbD_eq fun i hi => ?_
    rw [hbit i hi, hones i hi, h _ (by omega)]

/-- Zero-extension loses nothing. -/
theorem setWidth_eq_ones_iff (v : BitVec 16) : v.setWidth 32 = 0x0000FFFF#32 ↔ v = 0xFFFF#16 := by
  rw [← BitVec.toNat_inj, ← BitVec.toNat_inj, BitVec.toNat_setWidth, Nat.mod_eq_of_lt (by omega)]
  rfl

/-- Settles O36: the commit of O31 has ADVISORY and RDATA of the same value, the sixteen answers. -/
theorem advisoryIffAllOnes : Obligations.AdvisoryIffAllOnes := by
  intro s phy reg hq
  refine ⟨_, mdioReadResult s phy reg hq, rfl, ?_, ?_⟩
  · exact decide_eq_true_iff.trans valueOf_eq_ones_iff
  · exact decide_eq_true_iff.trans (setWidth_eq_ones_iff _).symm

end Sys2Proof.Machine
end

section
/-! How an MDIO command that commits ends on the pin-backend port: its last two events, the clock low and the release of
MDIO, need no acknowledgment, so every commit has put them on the port last (42_mdio.md R178). -/

namespace Sys2Proof.Machine

/-- A commit ends with what its command ends with, when that needs no acknowledgment. -/
theorem Commits.trace_end {i : Instr} {s t : State} {before : List PinEvent} {ops tail : List PinOp}
    (h : Commits i s t before) (hops : (commandOf i s).ops = ops ++ tail)
    (hphase : ∀ o ∈ tail, o.phase = 0) :
    ∃ es evs, t.env.trace = before ++ es ++ evs ∧
      List.Forall₂ (fun o e => o.shows s.params e = true) tail evs := by
  obtain ⟨acks, evs, htrace, hevs⟩ := h.trace
  have hlive : tail.filter (fun o => o.live acks) = tail :=
    List.filter_eq_self.2 fun o ho => live_of_phase_zero (hphase o ho) acks
  rw [hops, List.filter_append, hlive] at hevs
  have htail := List.forall₂_drop (ops.filter fun o => o.live acks).length hevs
  rw [List.drop_left] at htail
  exact ⟨_, _, by rw [htrace, List.append_assoc, List.take_append_drop], htail⟩

/-- The end of an MDIO command whose last bit period belongs to the framer state `f`. -/
def mdioEnd (p : Params) (f : Fsm) : List PinOp :=
  .wb f 0 p.mdcId .a0 :: mdioRelease p

/-- Bit periods that each end with the event `o` end with it together. -/
theorem flatMap_range_end {g : Nat → List PinOp} {o : PinOp} (h : ∀ k, ∃ l, g k = l ++ [o])
    (n : Nat) : ∃ l, (List.range (n + 1)).flatMap g = l ++ [o] := by
  obtain ⟨l, hl⟩ := h n
  refine ⟨(List.range n).flatMap g ++ l, ?_⟩
  rw [List.range_succ, List.flatMap_append, List.flatMap_singleton, hl, List.append_assoc]

/-- Sampled bits end with the clock low (42_mdio.md R175). -/
theorem mdioRecvBits_end (p : Params) (n : Nat) :
    ∃ l, (List.range (n + 1)).flatMap (fun j => mdioRecvBit p (n - j)) =
      l ++ [.wb .mrdata 0 p.mdcId .a0] :=
  flatMap_range_end
    (fun k => ⟨[.wb .mrdata 0 p.mdcId .rel, .rb .mrdata 0 p.mdioId (.word (n - k))], rfl⟩) n

/-- So does a field sent (42_mdio.md R173, R174). -/
theorem mdioSendBits_end (p : Params) (f : Fsm) {n : Nat} (v : BitVec (n + 1)) :
    ∃ l, mdioSendBits p f v = l ++ [.wb f 0 p.mdcId .a0] := by
  rw [mdioSendBits, msbFirst_eq, List.flatMap_map]
  exact flatMap_range_end
    (fun k => ⟨[.wb f 0 p.mdioId (.ofBit (v.getLsbD (n - k))), .wb f 0 p.mdcId .rel], rfl⟩) n

/-- After such bits the release makes the end. -/
theorem append_release_end {p : Params} {f : Fsm} {bits : List PinOp}
    (h : ∃ l, bits = l ++ [.wb f 0 p.mdcId .a0]) (pre : List PinOp) :
    ∃ ops, pre ++ bits ++ mdioRelease p = ops ++ mdioEnd p f := by
  obtain ⟨l, rfl⟩ := h
  exact ⟨pre ++ l, by simp [mdioEnd]⟩

/-- Both commands end so, after their last bit period, sampled or sent. -/
theorem mdio_ops_end {i : Instr} (hi : ∃ phy reg, i = .mdioRead phy reg ∨ i = .mdioWrite phy reg)
    (s : State) : ∃ ops f, (commandOf i s).ops = ops ++ mdioEnd s.params f := by
  obtain ⟨phy, reg, rfl | rfl⟩ := hi
  · obtain ⟨ops, hops⟩ := append_release_end (mdioRecvBits_end s.params 15) _
    exact ⟨ops, .mrdata, hops⟩
  · obtain ⟨ops, hops⟩ := append_release_end
      (mdioSendBits_end s.params .mwdata (s.x.arg.extractLsb' 0 16)) _
    exact ⟨ops, .mwdata, hops⟩

theorem eq_of_shows_mdioEnd {p : Params} {f : Fsm} {es : List PinEvent}
    (h : List.Forall₂ (fun o e => o.shows p e = true) (mdioEnd p f) es) :
    es = [evW p p.mdcId false, evW p p.mdioId true] := by
  simpa [mdioEnd, mdioRelease, List.forall₂_cons_left_iff, shows_write, pinWr_rel, pinWr_a0] using h

/-- Settles O39: the trace of a commit ends with the end of its command, the clock low and the release. -/
theorem mdioEndsReleased : Obligations.MdioEndsReleased := by
  intro s t i before hi h
  obtain ⟨ops, f, hops⟩ := mdio_ops_end hi s
  obtain ⟨es, evs, htrace, hevs⟩ := h.trace_end hops (by simp [mdioEnd, mdioRelease, PinOp.phase])
  exact ⟨es, eq_of_shows_mdioEnd hevs ▸ htrace⟩

end Sys2Proof.Machine
end

section
/-! The block's one exception and its idle state: a command's word fails a check of 30_encoding.md R92 exactly
when the command is not well-formed, so writing an illegal word to CMD is a rejection (60_exceptions.md
R203); an idle block with no request due waits until the next one is due (R216). -/

namespace Sys2Proof.Machine

/-! ### The words that are rejected -/

/-- The reserved bits of the command's format (30_encoding.md R81 to R84). -/
def reservedBits : Instr → Word
  | .writeBit _ _ => 0xFFFE00F0#32
  | .readBit _ => 0xFFFF00F0#32
  | .writeBits _ _ | .readBits _ _ => 0xFFC000F0#32
  | .i2cWrite _ _ _ | .i2cRead _ _ _ => 0x000080F0#32
  | .mdioRead _ _ | .mdioWrite _ _ => 0xFFE0E0F0#32

/-- A row of 30_encoding.md R89 asks for 0 in every reserved bit. -/
theorem row_reserved (i : Instr) :
    Laws.Pattern.rowMask i &&& reservedBits i = reservedBits i ∧
      Laws.Pattern.rowMatch i &&& reservedBits i = 0#32 := by
  cases i <;> simp only [Laws.Pattern.rowMask, Laws.Pattern.rowMatch, reservedBits] <;> decide

theorem encode_reserved (i : Instr) : encode i &&& reservedBits i = 0#32 := by
  have hrow : encode i &&& Laws.Pattern.rowMask i = Laws.Pattern.rowMatch i := by
    cases i with
    | writeBit id lvl => exact Laws.Pattern.writeBit id lvl
    | readBit id => exact Laws.Pattern.readBit id
    | writeBits id count => exact Laws.Pattern.writeBits id count
    | readBits id count => exact Laws.Pattern.readBits id count
    | i2cWrite dev reg len => exact Laws.Pattern.i2cWrite dev reg len
    | i2cRead dev reg len => exact Laws.Pattern.i2cRead dev reg len
    | mdioRead phy reg => exact Laws.Pattern.mdioRead phy reg
    | mdioWrite phy reg => exact Laws.Pattern.mdioWrite phy reg
  obtain ⟨hmask, hmatch⟩ := row_reserved i
  rw [← hmask, ← BitVec.and_assoc, hrow, hmatch]

theorem bitRangeOk_eq_false {p : Params} {id : BitVec 8} {count : BitVec 6} :
    bitRangeOk p id count = false ↔
      32 < count.toNat ∨ p.numBits ≤ id.toNat ∨ p.numBits < id.toNat + count.toNat := by
  simp only [bitRangeOk, Bool.and_eq_false_iff, decide_eq_false_iff_not, Nat.not_le, Nat.not_lt,
    or_assoc]

/-- By its opcode a command's word meets the checks of its own format only; its reserved bits are zero, and
the check on its operands is that of `Instr.wf`. -/
theorem illegalWord_encode {p : Params} {i : Instr} :
    illegalWord p (encode i) = true ↔ i.wf p = false := by
  have hz := encode_reserved i
  cases i with
  | writeBit id lvl =>
    obtain ⟨hop, hid, -⟩ := formatB1_fields 1#4 lvl.toBit id
    simp only [encode, reservedBits] at hz
    simp [illegalWord, fieldOf, encode, hop, hid, hz, Instr.wf, bitIdOk]
  | readBit id =>
    obtain ⟨hop, hid, -⟩ := formatB1_fields 2#4 false id
    simp only [encode, reservedBits] at hz
    simp [illegalWord, fieldOf, encode, hop, hid, hz, Instr.wf, bitIdOk]
  | writeBits id count =>
    obtain ⟨hop, hid, hcount⟩ := formatBM_fields 3#4 id count
    simp only [encode, reservedBits] at hz
    simp [illegalWord, fieldOf, encode, hop, hid, hcount, hz, Instr.wf, bitRangeOk_eq_false]
  | readBits id count =>
    obtain ⟨hop, hid, hcount⟩ := formatBM_fields 4#4 id count
    simp only [encode, reservedBits] at hz
    simp [illegalWord, fieldOf, encode, hop, hid, hcount, hz, Instr.wf, bitRangeOk_eq_false]
  | i2cWrite dev reg len =>
    obtain ⟨hop, -, -, hlen⟩ := formatI2_fields 5#4 dev reg len
    simp only [encode, reservedBits] at hz
    simp [illegalWord, fieldOf, encode, hop, hlen, hz, Instr.wf, lengthOk]
  | i2cRead dev reg len =>
    obtain ⟨hop, -, -, hlen⟩ := formatI2_fields 6#4 dev reg len
    simp only [encode, reservedBits] at hz
    simp [illegalWord, fieldOf, encode, hop, hlen, hz, Instr.wf, lengthOk]
  | mdioRead phy reg =>
    obtain ⟨hop, -, -⟩ := formatMD_fields 7#4 phy reg
    simp only [encode, reservedBits] at hz
    simp [illegalWord, fieldOf, encode, hop, hz, Instr.wf]
  | mdioWrite phy reg =>
    obtain ⟨hop, -, -⟩ := formatMD_fields 8#4 phy reg
    simp only [encode, reservedBits] at hz
    simp [illegalWord, fieldOf, encode, hop, hz, Instr.wf]

/-- An illegal word does not decode, or decodes to a command that is not well-formed; an idle block rejects
both (60_exceptions.md R203). -/
theorem writeCmd_of_illegal {s : State} {w : Word} (hb : s.x.busy = false)
    (hw : illegalWord s.params w = true) : writeCmd w s = .next (s.reject w) := by
  cases hd : decode w with
  | error e => simp only [writeCmd, hd]
  | ok i =>
    obtain rfl := encode_of_decode hd
    have hwf : i.wf s.params = false := illegalWord_encode.1 hw
    rw [writeCmd_of_decode hd]
    exact illFormedCommandRejected s i hb hwf

/-- Settles O9: the write of the word is its rejection, after which BUSY is still 0, so the next CMD write
runs its command. -/
theorem illegalWordRejected : Obligations.IllegalWordRejected := by
  intro s w rest h hb hw
  refine ⟨(s.withHost rest).reject w, ?_, rfl, rfl, fun v i hd => ?_⟩
  · rw [step_cmdWrite h hb, writeCmd_of_illegal (s := s.withHost rest) hb hw]
  · exact stepRunsDecodedCommand _ v i rest rfl hb hd

/-! ### Waiting -/

/-- An idle block waits for the next request, whatever it is. -/
theorem budget_of_idle {s : State} {g : Nat} {r : HostReq} {rest : List HostInput}
    (hh : s.env.host = ⟨g, r⟩ :: rest) (hb : s.x.busy = false) : s.budget = some g := by
  unfold State.budget
  rw [hh]
  cases r with
  | wait => simp [hb]
  | read | write | reset => rfl

/-- The idle wait lasts until the next request is due. -/
theorem idleWait_host {s : State} {g : Nat} {r : HostReq} {rest : List HostInput}
    (hh : s.env.host = ⟨g, r⟩ :: rest) (hb : s.x.busy = false) :
    s.idleWait.env.host = ⟨0, r⟩ :: rest := by
  simp only [State.idleWait, budget_of_idle hh hb]
  rw [elapse_host hh, Nat.sub_self]

/-- An idle block with no request due waits. -/
theorem step_of_idle {s : State} (hb : s.x.busy = false) (hdue : s.due = false) :
    step s = .next s.idleWait := by
  obtain ⟨-, -, -, -, hnow, -⟩ | ⟨-, hbusy, -⟩ | ⟨-, -, hs⟩ := step_cases s
  · exact absurd (hdue.symm.trans hnow) (by simp)
  · exact absurd (hb.symm.trans hbusy) (by simp)
  · exact hs

/-- Settles O47: the step is the idle wait, in which some number of cycles pass and nothing else happens. -/
theorem idleBlockWaits : Obligations.IdleBlockWaits := by
  intro s hb hdue
  have hstep := step_of_idle hb hdue
  obtain ⟨n, hn⟩ := idleWait_eq_elapse s
  rw [hn] at hstep
  exact ⟨s.elapse n, hstep, rfl, rfl, rfl, rfl, rfl, elapse_host_nil,
    fun g r rest hh => hn ▸ idleWait_host hh hb⟩

end Sys2Proof.Machine
end

section
/-! Reset (70_reset_and_hazards.md R230 to R233): a reset request that is due is served in every state, also beside a
running command, and the registers read their reset values after it. -/

namespace Sys2Proof.Machine

/-! ### The reset input -/

/-- A running command does not defer a reset that is due (R232). -/
theorem step_reset {s : State} {rest : List HostInput} (h : s.env.host = ⟨0, .reset⟩ :: rest) :
    step s = .next (s.withHost rest).hardReset := by
  rw [step_due h (.inl (by simp))]
  rfl

/-- Settles O22: the step is the reset of the state without the request; `State.hardReset` puts every register
and hidden item at its value of R233 and keeps the parameters and the surroundings. -/
theorem resetInput : Obligations.ResetInput := by
  intro s rest h
  rw [step_reset h]
  rfl

/-! ### What the registers read after reset -/

/-- Every flag of STATUS and the code of its result is 0 after reset, whatever the parameters. -/
theorem statusWord_reset (p : Params) : statusWord (Regs.reset p) = 0#32 := by
  simp [statusWord, Regs.reset, Result.code, place]

/-- Settles O23: the register map (`registerReads`) at the reset values; UDELAY is read with its upper half 0,
and BUF lists no byte. -/
theorem resetReads : Obligations.ResetReads := by
  obtain ⟨hcmd, hudelay, harg, hrdata, -⟩ := registerReads State.reset
  exact ⟨hcmd, statusWord_reset Params.default, BitVec.eq_of_toNat_eq hudelay, harg, hrdata,
    Memory.read_nil⟩

end Sys2Proof.Machine
end
